-- ==== Sys2Proof/Word.lean ====
section
/-! DEFINITION. The bit strings of the machine (00_scope.md R12 and R13): unsigned values of a fixed width. -/

namespace Sys2Proof

/-- A byte: buffer contents, the pad byte, sequence numbers, the checksum (R12). -/
abbrev Byte := BitVec 8

/-- A 16-bit value: the CRC, the length registers, RESULT (R12). -/
abbrev Half := BitVec 16

/-- A 32-bit value: a host-visible register or a command word (R12). -/
abbrev Word := BitVec 32

/-- A byte string (R13): a finite sequence of bytes, indexed from 0. -/
abbrev Bytes := List Byte

end Sys2Proof
end

