-- ==== Sys2Proof/Syntax.lean ====
section
/-! DEFINITION. The command set (30_encoding.md R72) and the host's accesses (R80): what a host program is
written in.  One constructor of `Instr` per row of spec/opcode_table.json. -/

namespace Sys2Proof

/-- Integrity mode: 0 = 8-bit checksum, 1 = 16-bit CRC (10_state.md R22, R35). -/
inductive IMode where
  | checksum
  | crc
  deriving DecidableEq, Repr

/-- Block-size mode: 0 = Xmodem (128 bytes, SOH), 1 = Xmodem1k (LARGE_CAP bytes, STX) (10_state.md R22, R35). -/
inductive BMode where
  | xmodem
  | xmodem1k
  deriving DecidableEq, Repr

/-- The nine commands of R72, each with its operand at the operand's own width (R71). -/
inductive Instr where
  /-- CSUM.SEED b -/
  | csumSeed (seed : Byte)
  /-- CSUM.FEED -/
  | csumFeed
  /-- CRC.SEED h -/
  | crcSeed (seed : Half)
  /-- CRC.FEED -/
  | crcFeed
  /-- CFG.PAD b -/
  | cfgPad (pad : Byte)
  /-- CFG.IMODE b -/
  | cfgImode (mode : IMode)
  /-- CFG.BMODE b -/
  | cfgBmode (mode : BMode)
  /-- PKT.ENC seq -/
  | pktEnc (seq : Byte)
  /-- PKT.DEC e -/
  | pktDec (expected : Byte)
  deriving DecidableEq, Repr

/-- One event at the engine's host interface: an access (R80, 20_memory.md R54) or the assertion of the reset
input (70_reset_and_hazards.md R210).  Addresses are host addresses, BASE + offset (20_memory.md R50). -/
inductive HostEvent where
  /-- 32-bit read -/
  | r32 (addr : Nat)
  /-- 32-bit write -/
  | w32 (addr : Nat) (value : Word)
  /-- 8-bit read -/
  | r8 (addr : Nat)
  /-- 8-bit write -/
  | w8 (addr : Nat) (value : Byte)
  /-- an access of a width other than 8 and 32 bits, read or write -/
  | otherWidth (addr : Nat) (bits : Nat) (isWrite : Bool)
  /-- the reset input is asserted -/
  | assertReset
  deriving DecidableEq, Repr

/-- A value that a host read returned, with the width it was read at. -/
inductive ReadValue where
  | word (v : Word)
  | byte (b : Byte)
  deriving DecidableEq, Repr

end Sys2Proof
end

