-- ==== Sys2Proof/WellFormed.lean ====
section
/-! DEFINITION. Well-formedness: of a raw command word's fields (30_encoding.md R70, R71, R74), of an
instruction, and of a host event. -/

namespace Sys2Proof

/-- The operand forms of R71. -/
inductive Form where
  | none
  | imm1
  | imm8
  | imm16
  deriving DecidableEq, Repr

/-- How many low bits of IMM the form uses; the bits above must be zero (R71). -/
def Form.width : Form → Nat
  | .none => 0
  | .imm1 => 1
  | .imm8 => 8
  | .imm16 => 16

/-- The three fields of a CMD32 word (R70). -/
structure Cmd32 where
  op : Byte
  rsv : Byte
  imm : Half
  deriving DecidableEq, Repr

/-- The form of each listed OP; an OP that is not listed has none (R72). -/
def formOfOp (op : Byte) : Option Form :=
  if op = 0x01#8 then some .imm8
  else if op = 0x02#8 then some .none
  else if op = 0x03#8 then some .imm16
  else if op = 0x04#8 then some .none
  else if op = 0x10#8 then some .imm8
  else if op = 0x11#8 then some .imm1
  else if op = 0x12#8 then some .imm1
  else if op = 0x20#8 then some .imm8
  else if op = 0x21#8 then some .imm8
  else none

/-- R74: a word is legal when (a) its OP is listed, (b) RSV is 0 and (c) IMM has no bit set that the form of
its OP requires to be zero. -/
def Cmd32.wellFormed (c : Cmd32) : Bool :=
  match formOfOp c.op with
  | none => false
  | some f => c.rsv == 0#8 && decide (c.imm.toNat < 2 ^ f.width)

/-- The form of an instruction's row (R72). -/
def Instr.form : Instr → Form
  | .csumSeed _ => .imm8
  | .csumFeed => .none
  | .crcSeed _ => .imm16
  | .crcFeed => .none
  | .cfgPad _ => .imm8
  | .cfgImode _ => .imm1
  | .cfgBmode _ => .imm1
  | .pktEnc _ => .imm8
  | .pktDec _ => .imm8

/-- The bit an integrity mode is written as (R101). -/
def IMode.toNat : IMode → Nat
  | .checksum => 0
  | .crc => 1

/-- The bit a block-size mode is written as (R102). -/
def BMode.toNat : BMode → Nat
  | .xmodem => 0
  | .xmodem1k => 1

/-- The operand's value, 0 where the form has none (R71). -/
def Instr.operand : Instr → Nat
  | .csumSeed b => b.toNat
  | .csumFeed => 0
  | .crcSeed h => h.toNat
  | .crcFeed => 0
  | .cfgPad b => b.toNat
  | .cfgImode m => m.toNat
  | .cfgBmode m => m.toNat
  | .pktEnc b => b.toNat
  | .pktDec b => b.toNat

/-- An instruction is well-formed when its operand fits its form.  The operand types of `Instr` admit no other
value, so every term is well-formed (`Laws.EncodesWellFormed`); the check that can fail is `Cmd32.wellFormed`. -/
def Instr.wellFormed (i : Instr) : Bool := decide (i.operand < 2 ^ i.form.width)

/-- A host event is well-formed when an access of "another width" has a width other than 8 and 32 (R54). -/
def HostEvent.wellFormed : HostEvent → Bool
  | .r32 _ => true
  | .w32 _ _ => true
  | .r8 _ => true
  | .w8 _ _ => true
  | .otherWidth _ bits _ => bits != 8 && bits != 32
  | .assertReset => true

end Sys2Proof
end

