-- ==== Sys2Proof/Decode.lean ====
section
/-! DEFINITION. The command decoder, total on all 2^32 words (30_encoding.md R70 to R74), and the encoder. -/

namespace Sys2Proof

/-- Why a word is no legal command: the three cases of R74. -/
inductive IllegalWord where
  /-- (a) the OP is not in R72 -/
  | unlistedOp
  /-- (b) RSV is not 0 -/
  | reservedBits
  /-- (c) IMM has a bit set that the OP's form requires to be zero -/
  | immediateBits
  deriving DecidableEq, Repr

/-- `zext_16` of a byte (00_scope.md R13). -/
def zext16 (b : Byte) : Half := b.setWidth 16

/-- `v[15:8]` (00_scope.md R13). -/
def hiByte (v : Half) : Byte := v.extractLsb' 8 8

/-- `v[7:0]` (00_scope.md R13). -/
def loByte (v : Half) : Byte := v.extractLsb' 0 8

/-- OP, bits 31:24 (R70). -/
def opField (w : Word) : Byte := w.extractLsb' 24 8

/-- RSV, bits 23:16 (R70). -/
def rsvField (w : Word) : Byte := w.extractLsb' 16 8

/-- IMM, bits 15:0 (R70). -/
def immField (w : Word) : Half := w.extractLsb' 0 16

/-- The three fields of a word (R70). -/
def cmd32 (w : Word) : Cmd32 := { op := opField w, rsv := rsvField w, imm := immField w }

/-- Form `none`: IMM[15:0] = 0 (R71). -/
def formNone (imm : Half) (i : Instr) : Except IllegalWord Instr :=
  if imm = 0#16 then .ok i else .error .immediateBits

/-- Form `imm1`: IMM[15:1] = 0, the operand is IMM[0] (R71). -/
def formImm1 (imm : Half) (mk : Bool → Instr) : Except IllegalWord Instr :=
  if imm.extractLsb' 1 15 = 0#15 then .ok (mk (imm.getLsbD 0)) else .error .immediateBits

/-- Form `imm8`: IMM[15:8] = 0, the operand is IMM[7:0] (R71). -/
def formImm8 (imm : Half) (mk : Byte → Instr) : Except IllegalWord Instr :=
  if hiByte imm = 0#8 then .ok (mk (loByte imm)) else .error .immediateBits

/-- Form `imm16`: no bit is required to be zero, the operand is IMM[15:0] (R71). -/
def formImm16 (imm : Half) (mk : Half → Instr) : Except IllegalWord Instr :=
  .ok (mk imm)

/-- Operand bit of CFG.IMODE: 0 selects checksum, 1 selects CRC (R101). -/
def imodeOfBit (b : Bool) : IMode := if b then .crc else .checksum

/-- Operand bit of CFG.BMODE: 0 selects Xmodem, 1 selects Xmodem1k (R102). -/
def bmodeOfBit (b : Bool) : BMode := if b then .xmodem1k else .xmodem

/-- The instruction an OP and an IMM make (R72); RSV is checked by `decode`. -/
def decodeOp (op : Byte) (imm : Half) : Except IllegalWord Instr :=
  if op = 0x01#8 then formImm8 imm .csumSeed
  else if op = 0x02#8 then formNone imm .csumFeed
  else if op = 0x03#8 then formImm16 imm .crcSeed
  else if op = 0x04#8 then formNone imm .crcFeed
  else if op = 0x10#8 then formImm8 imm .cfgPad
  else if op = 0x11#8 then formImm1 imm (fun b => .cfgImode (imodeOfBit b))
  else if op = 0x12#8 then formImm1 imm (fun b => .cfgBmode (bmodeOfBit b))
  else if op = 0x20#8 then formImm8 imm .pktEnc
  else if op = 0x21#8 then formImm8 imm .pktDec
  else .error .unlistedOp

/-- The decoder: total on all 2^32 words (R73). -/
def decode (w : Word) : Except IllegalWord Instr :=
  match decodeOp (opField w) (immField w) with
  | .error e => .error e
  | .ok i => if rsvField w = 0#8 then .ok i else .error .reservedBits

/-- The CMD32 word with the given OP, RSV = 0 and IMM (R70). -/
def cmdWord (op : Byte) (imm : Half) : Word := op ++ 0#8 ++ imm

/-- The operand bit that stands for an integrity mode (R101). -/
def IMode.bit : IMode → Half
  | .checksum => 0#16
  | .crc => 1#16

/-- The operand bit that stands for a block-size mode (R102). -/
def BMode.bit : BMode → Half
  | .xmodem => 0#16
  | .xmodem1k => 1#16

/-- The word of an instruction, from the encodings of R72. -/
def encode : Instr → Word
  | .csumSeed b => cmdWord 0x01#8 (zext16 b)
  | .csumFeed => cmdWord 0x02#8 0#16
  | .crcSeed h => cmdWord 0x03#8 h
  | .crcFeed => cmdWord 0x04#8 0#16
  | .cfgPad b => cmdWord 0x10#8 (zext16 b)
  | .cfgImode m => cmdWord 0x11#8 m.bit
  | .cfgBmode m => cmdWord 0x12#8 m.bit
  | .pktEnc b => cmdWord 0x20#8 (zext16 b)
  | .pktDec b => cmdWord 0x21#8 (zext16 b)

/-- One row of R72: a word is the row's command when `(word & mask) == pattern`. -/
structure OpcodeRow where
  mnemonic : String
  pattern : Word
  mask : Word
  deriving DecidableEq, Repr

/-- The nine rows of R72, as the table prints them. -/
def opcodeTable : List OpcodeRow :=
  [ { mnemonic := "CSUM.SEED", pattern := 0x01000000#32, mask := 0xFFFFFF00#32 },
    { mnemonic := "CSUM.FEED", pattern := 0x02000000#32, mask := 0xFFFFFFFF#32 },
    { mnemonic := "CRC.SEED", pattern := 0x03000000#32, mask := 0xFFFF0000#32 },
    { mnemonic := "CRC.FEED", pattern := 0x04000000#32, mask := 0xFFFFFFFF#32 },
    { mnemonic := "CFG.PAD", pattern := 0x10000000#32, mask := 0xFFFFFF00#32 },
    { mnemonic := "CFG.IMODE", pattern := 0x11000000#32, mask := 0xFFFFFFFE#32 },
    { mnemonic := "CFG.BMODE", pattern := 0x12000000#32, mask := 0xFFFFFFFE#32 },
    { mnemonic := "PKT.ENC", pattern := 0x20000000#32, mask := 0xFFFFFF00#32 },
    { mnemonic := "PKT.DEC", pattern := 0x21000000#32, mask := 0xFFFFFF00#32 } ]

/-- A word matches a row of R72. -/
def OpcodeRow.matchesWord (r : OpcodeRow) (w : Word) : Bool := w &&& r.mask == r.pattern

/-- The mnemonic of an instruction's row (R72). -/
def Instr.mnemonic : Instr → String
  | .csumSeed _ => "CSUM.SEED"
  | .csumFeed => "CSUM.FEED"
  | .crcSeed _ => "CRC.SEED"
  | .crcFeed => "CRC.FEED"
  | .cfgPad _ => "CFG.PAD"
  | .cfgImode _ => "CFG.IMODE"
  | .cfgBmode _ => "CFG.BMODE"
  | .pktEnc _ => "PKT.ENC"
  | .pktDec _ => "PKT.DEC"

/-- The word whose bits, numbered as spec/opcode_table.json numbers them, are `w`: a command is one 32-bit
value and has no byte order at the host interface (20_memory.md R59); the bits at and above `nbits` are 0. -/
def tableWord (nbits w : Nat) : Word := BitVec.ofNat 32 (w % 2 ^ nbits)

/-- The instruction the decoder reads from a word numbered as spec/opcode_table.json numbers it. -/
def decodeTableWord (nbits w : Nat) : Option Instr :=
  match decode (tableWord nbits w) with
  | .ok i => some i
  | .error _ => none

end Sys2Proof
end

