-- ==== Sys2Proof/Config.lean ====
section
/-! DEFINITION. What one instance of the engine fixes: the OPEN parameters of 92_eei_decisions.md D3 to D5
(00_scope.md R9 to R11).  The model takes them as an argument (R17): they stand in State as a field that no
step changes, and every statement holds for each of their admitted values. -/

namespace Sys2Proof

/-- LARGE_CAP, "a named parameter with value 1024 or 8192" (R9, D5). -/
inductive LargeCap where
  | cap1024
  | cap8192
  deriving DecidableEq, Repr

/-- The number LARGE_CAP stands for (R9). -/
def LargeCap.bytes : LargeCap → Nat
  | .cap1024 => 1024
  | .cap8192 => 8192

/-- The parameters of one engine instance: BASE (R11), LARGE_CAP (R9), IBUF_SIZE and OBUF_SIZE (R10). -/
structure Params where
  base : Nat
  largeCap : LargeCap
  ibufSize : Nat
  obufSize : Nat
  deriving DecidableEq, Repr

/-- The parameter values the spec admits: BASE is 64 KiB aligned (R11), each buffer holds the largest frame
(R10) and fits its 16 KiB region (20_memory.md R50). -/
abbrev Params.Admitted (p : Params) : Prop :=
  p.base % 0x10000 = 0
    ∧ p.largeCap.bytes + 5 ≤ p.ibufSize ∧ p.ibufSize ≤ 0x4000
    ∧ p.largeCap.bytes + 5 ≤ p.obufSize ∧ p.obufSize ≤ 0x4000

/-- The instance that `State.reset` has: the reference buffer sizes of R10 (8197 each), LARGE_CAP 1024 and
BASE 0.  DESIGN CHOICE: the spec leaves LARGE_CAP and BASE open (notes/assumptions/1.md). -/
def Params.reference : Params :=
  { base := 0, largeCap := .cap1024, ibufSize := 8197, obufSize := 8197 }

end Sys2Proof
end

