-- ==== Sys2Proof/Machine/State.lean ====
section
/-! DEFINITION. The architectural state (10_state.md R22), its reset value (R44, 70_reset_and_hazards.md
R210), and the reasons a step can stop (60_exceptions.md R193). -/

namespace Sys2Proof.Machine

open Sys2Proof

/-- The contents of a buffer: the bytes written since reset, each with its index, indexes strictly rising.
An index that is not listed holds no value (10_state.md R43). -/
abbrev Memory := List Host.Cell

/-- STATUS.CODE: the eight values of 60_exceptions.md R190.  The codes 8 to 15 are reserved and "never
produced", so they have no constructor. -/
inductive StatusCode where
  | ok
  | checksumMismatch
  | sequenceMismatch
  | badStart
  | shortFrame
  | contentTooLong
  | badLength
  | illegalCommand
  deriving DecidableEq, Repr

/-- The state.  `params` to `obuf` are the engine (R22, with the parameter registers of R38); `pending` and
`reads` are its host interface: the events the host has yet to perform, oldest first (R21: the program "is the
host's sequence of register and buffer accesses, executed in the host's order"), and the values its reads have
returned, newest first. -/
structure State where
  /-- BASE, LARGE_CAP, IBUF_SIZE, OBUF_SIZE; PARAM_CAP, PARAM_IBUF and PARAM_OBUF read it (R38) -/
  params : Params
  /-- CRC_ACC (R33) -/
  crcAcc : Half
  /-- SUM_ACC (R34) -/
  sumAcc : Byte
  /-- PAD (R35) -/
  pad : Byte
  /-- IMODE (R35) -/
  imode : IMode
  /-- BMODE (R35) -/
  bmode : BMode
  /-- STATUS.CODE (R31) -/
  code : StatusCode
  /-- RESULT (R32) -/
  result : Half
  /-- IN_LEN (R36) -/
  inLen : Half
  /-- OUT_LEN (R37) -/
  outLen : Half
  /-- IBUF (20_memory.md R51) -/
  ibuf : Memory
  /-- OBUF (20_memory.md R52) -/
  obuf : Memory
  /-- the host events still to come, oldest first (R21) -/
  pending : List HostEvent
  /-- the values the host's reads have returned, newest first -/
  reads : List ReadValue
  deriving DecidableEq, Repr

/-- The state of an engine with parameters `p` right after reset (R44, R210, R211), the host having nothing
pending. -/
def State.resetWith (p : Params) : State :=
  { params := p
    crcAcc := 0x0000#16
    sumAcc := 0x00#8
    pad := 0x1A#8
    imode := .crc
    bmode := .xmodem
    code := .ok
    result := 0x0000#16
    inLen := 0x0000#16
    outLen := 0x0000#16
    ibuf := []
    obuf := []
    pending := []
    reads := [] }

/-- The machine right after reset, for the reference instance of the parameters (notes/assumptions/1.md). -/
def State.reset : State := State.resetWith Params.reference

/-- Why a step faults: the host's run has left what the spec gives a meaning to (60_exceptions.md R193).  Each
is safe: the machine stops where hardware might go on, so no claim can rest on what follows. -/
inductive Fault where
  /-- A host access to an address outside the engine's 64 KiB window (20_memory.md R50).  Raised by
  `perform`.  Safe. -/
  | outsideWindow
  /-- An access of a width its region does not take (20_memory.md R54).  Raised by `perform`.  Safe. -/
  | wrongWidth
  /-- A register access at an offset that is no multiple of 4 (20_memory.md R54).  Raised by `perform`.  Safe. -/
  | misaligned
  /-- An access to a reserved offset (10_state.md R39, 20_memory.md R50, R54).  Raised by `perform`.  Safe. -/
  | reservedOffset
  /-- A buffer access at or beyond the buffer's size (20_memory.md R54).  Raised by `perform`.  Safe. -/
  | beyondBuffer
  /-- A write to a read-only register (20_memory.md R56).  Raised by `writeReg`.  Safe. -/
  | readOnlyRegister
  /-- A host write to OBUF (20_memory.md R52, R56).  Raised by `perform`.  Safe. -/
  | outputBufferWrite
  /-- A write that sets a bit shown as 0 in the register's field table: IN_LEN bits 31:16
  (20_memory.md R56, 10_state.md R36).  Raised by `writeReg`.  Safe. -/
  | zeroBitsSet
  /-- A read, by the host or by a command, of an IBUF byte not written since reset (10_state.md R43).  Raised
  by `perform`, CSUM.FEED, CRC.FEED, PKT.ENC and PKT.DEC.  Safe. -/
  | unwrittenInput
  /-- A host read of an OBUF byte not written since reset (10_state.md R43).  Raised by `perform`.  Safe. -/
  | unwrittenOutput
  deriving DecidableEq, Repr

/-- Why a step is refused. -/
inductive Refusal where
  /-- The instruction has no meaning in the model yet.  Raised by `exec` in a refused arm; every arm of this
  model has its meaning, so nothing raises it.  Safe. -/
  | notModelled (mnemonic : String)
  deriving DecidableEq, Repr

end Sys2Proof.Machine
end

