-- ==== Sys2Proof/Machine/Ops.lean ====
section
/-! DEFINITION. The named operations over the buffers and the registers.  The engine has no exception to take
and none to return from (60_exceptions.md R195): a command ends by `report`, which writes STATUS.CODE. -/

namespace Sys2Proof.Machine

open Sys2Proof

/-! ### Buffers -/

/-- The canonical form: indexes strictly rising, so each is listed once. -/
abbrev Memory.Canonical (m : Memory) : Prop := m.Pairwise (fun x y => x.1 < y.1)

/-- The canonical form as a Bool. -/
def Memory.wf (m : Memory) : Bool := decide m.Canonical

/-- Every listed index lies below `n`: the buffer has `n` bytes (20_memory.md R51, R52). -/
abbrev Memory.Below (m : Memory) (n : Nat) : Prop := ∀ c ∈ m, c.1 < n

/-- One byte; none where it has not been written since reset (10_state.md R43). -/
def Memory.read : Memory → Nat → Option Byte
  | [], _ => none
  | (k, b) :: m, a => if k = a then some b else Memory.read m a

/-- Store one byte, keeping the canonical form. -/
def Memory.write : Memory → Nat → Byte → Memory
  | [], a, b => [(a, b)]
  | (k, c) :: m, a, b =>
    if a < k then (a, b) :: (k, c) :: m
    else if a = k then (a, b) :: m
    else (k, c) :: Memory.write m a b

/-- The `n` bytes from index `a`, in index order (20_memory.md R55); none where one of them is unwritten
(10_state.md R43).  One pass over the list. -/
def Memory.readRange : Memory → Nat → Nat → Option Bytes
  | _, _, 0 => some []
  | [], _, _ + 1 => none
  | (k, b) :: m, a, n + 1 =>
    if k < a then Memory.readRange m a (n + 1)
    else if k = a then (Memory.readRange m (a + 1) n).map (b :: ·)
    else none

/-- The cells that hold a byte string from index `a` on. -/
def cellsFrom : Nat → Bytes → Memory
  | _, [] => []
  | a, b :: bs => (a, b) :: cellsFrom (a + 1) bs

/-- Store a byte string from index `a` on.  One pass over the list; it is what storing the bytes one at a time
in index order gives (20_memory.md R55; `Obligations.RangeAccessIsBytewise`). -/
def Memory.writeRange (m : Memory) (a : Nat) (bs : Bytes) : Memory :=
  m.filter (fun c => c.1 < a) ++ cellsFrom a bs ++ m.filter (fun c => a + bs.length ≤ c.1)

/-! ### Registers -/

/-- The end of every command: STATUS.CODE is written (60_exceptions.md R191). -/
def State.report (s : State) (c : StatusCode) : State := { s with code := c }

/-- A checksum command's end: SUM_ACC and RESULT take the value, zero-extended (10_state.md R32, R34). -/
def State.finishSum (s : State) (v : Byte) : State :=
  { s with sumAcc := v, result := zext16 v, code := .ok }

/-- A CRC command's end: CRC_ACC and RESULT take the value (10_state.md R32, R33). -/
def State.finishCrc (s : State) (v : Half) : State :=
  { s with crcAcc := v, result := v, code := .ok }

/-- A packet command's failure: RESULT as given, OUT_LEN 0, OBUF unchanged (10_state.md R32, R37). -/
def State.failPacket (s : State) (c : StatusCode) (v : Half) : State :=
  { s with result := v, outLen := 0#16, code := c }

/-- A packet command's success: the bytes go to OBUF from index 0, OUT_LEN is their count, and bytes of OBUF
beyond keep what they held (10_state.md R37, 20_memory.md R52). -/
def State.finishPacket (s : State) (out : Bytes) (v : Half) : State :=
  { s with
    obuf := s.obuf.writeRange 0 out
    outLen := BitVec.ofNat 16 out.length
    result := v
    code := .ok }

/-- An illegal command word: STATUS.CODE and nothing else (60_exceptions.md R192). -/
def State.illegalCommand (s : State) : State := s.report .illegalCommand

/-- The next state a command answers with. -/
def done (s : State) : Host.Outcome State Fault Refusal := .next s

/-! ### The host's side -/

/-- A host write of IN_LEN (10_state.md R36). -/
def State.setInLen (s : State) (n : Half) : State := { s with inLen := n }

/-- A host write of IBUF[i] (20_memory.md R51). -/
def State.storeInput (s : State) (i : Nat) (b : Byte) : State := { s with ibuf := s.ibuf.write i b }

/-- A host read returns its value and has no other effect (20_memory.md R57). -/
def State.returnRead (s : State) (v : ReadValue) : State := { s with reads := v :: s.reads }

/-- The reset input is asserted: every register takes its reset value and both buffers are unwritten; the
parameters are constant (70_reset_and_hazards.md R210, R211, 10_state.md R38).  The host's remaining events and
the values it has read are the host's, not the engine's. -/
def State.assertReset (s : State) : State :=
  { State.resetWith s.params with pending := s.pending, reads := s.reads }

/-- With no host event pending the engine stays as it is, ready for the next access (60_exceptions.md R202,
notes/assumptions/3.md). -/
def hostIdle (s : State) : Host.Outcome State Fault Refusal := .next s

end Sys2Proof.Machine
end

