-- ==== Sys2Proof/Machine/Wire.lean ====
section
/-! DEFINITION. The wire constants and the block formats (30_encoding.md R75 to R79). -/

namespace Sys2Proof.Machine

open Sys2Proof

/-- SOH: start byte of a 128-byte block (R75). -/
def soh : Byte := 0x01#8

/-- STX: start byte of a large block (R75). -/
def stx : Byte := 0x02#8

/-- EOT; used by the surrounding software only (R75). -/
def eot : Byte := 0x04#8

/-- ACK; used by the surrounding software only (R75). -/
def ack : Byte := 0x06#8

/-- NAK; used by the surrounding software only (R75). -/
def nak : Byte := 0x15#8

/-- CAN, with the value the source gives (R75, 90_conflicts.md C8); used by the surrounding software only. -/
def can : Byte := 0x16#8

/-- The CRC request 'C'; used by the surrounding software only (R75). -/
def crcRequest : Byte := 0x43#8

/-- SMALL_CAP: the data field of an SOH block (00_scope.md R8). -/
def smallCap : Nat := 128

/-- `be16(v)`: most significant byte first (00_scope.md R13, 20_memory.md R58). -/
def be16 (v : Half) : Bytes := [hiByte v, loByte v]

/-- `(hi << 8) | lo`: the value whose big-endian bytes are `hi`, `lo` (20_memory.md R58). -/
def ofBe16 (hi lo : Byte) : Half := hi ++ lo

/-- A block format: start byte, data field size `cap`, length prefix size `P` (R77). -/
structure Framing where
  start : Byte
  cap : Nat
  prefixLen : Nat
  deriving DecidableEq, Repr

/-- The largest content a block carries, cap - P (R77). -/
def Framing.contentCap (fr : Framing) : Nat := fr.cap - fr.prefixLen

/-- When encoding, the capacity selects the start byte and the prefix width (R78, 43_packet_encode.md R140). -/
def framingOfCap (cap : Nat) : Framing :=
  if cap = smallCap then { start := soh, cap := cap, prefixLen := 1 }
  else { start := stx, cap := cap, prefixLen := 2 }

/-- BMODE gives the encoder's capacity (R78, R146). -/
def capOfMode (large : LargeCap) : BMode → Nat
  | .xmodem => smallCap
  | .xmodem1k => large.bytes

/-- When decoding, the start byte gives the capacity and the prefix width; no other start byte is a frame
(R78, 44_packet_decode.md R160). -/
def framingOfStart (large : LargeCap) (start : Byte) : Option Framing :=
  if start = soh then some (framingOfCap smallCap)
  else if start = stx then some (framingOfCap large.bytes)
  else none

/-- T: 1 byte in checksum mode, 2 bytes in CRC mode (R79). -/
def trailerLen : IMode → Nat
  | .checksum => 1
  | .crc => 2

/-- The sequence pair `[seq, 255 - seq]` (43_packet_encode.md R143). -/
def seqPair (seq : Byte) : Bytes := [seq, 255#8 - seq]

/-- The length prefix of a content of `n` bytes, P bytes wide and big-endian (R58, 43_packet_encode.md R140). -/
def lengthPrefix (prefixLen n : Nat) : Bytes :=
  if prefixLen = 1 then [BitVec.ofNat 8 n] else be16 (BitVec.ofNat 16 n)

/-- The trailer's bytes for an integrity value: its low byte, or both bytes big-endian (R58, R79). -/
def trailerBytes (imode : IMode) (tv : Half) : Bytes :=
  match imode with
  | .checksum => [loByte tv]
  | .crc => be16 tv

end Sys2Proof.Machine
end

