-- ==== Sys2Proof/Machine/Operands.lean ====
section
/-! DEFINITION. The operands of commands (10_state.md R20): the immediate, which the decoder assembles
(30_encoding.md R71), and IBUF[0:IN_LEN] (10_state.md R36, 20_memory.md R51). -/

namespace Sys2Proof.Machine

open Sys2Proof

/-- IN_LEN > IBUF_SIZE, which makes a command fail with BAD_LENGTH before it reads a buffer byte
(10_state.md R36). -/
def State.inputTooLong (s : State) : Bool := decide (s.params.ibufSize < s.inLen.toNat)

/-- IBUF[a : a + n], none where one of these bytes is unwritten (10_state.md R43). -/
def State.inputRange (s : State) (a n : Nat) : Option Bytes := s.ibuf.readRange a n

/-- IBUF[0:IN_LEN]. -/
def State.input (s : State) : Option Bytes := s.inputRange 0 s.inLen.toNat

/-- The shape of both FEED commands (41_checksum.md R113, 42_crc16.md R123): BAD_LENGTH changes nothing but
STATUS.CODE; an unwritten input byte faults. -/
def feed (s : State) (finish : Bytes → State) : Host.Outcome State Fault Refusal :=
  if s.inputTooLong then done (s.report .badLength)
  else
    match s.input with
    | none => .fault .unwrittenInput
    | some data => done (finish data)

end Sys2Proof.Machine
end

