-- ==== Sys2Proof/Machine/Checksum.lean ====
section
/-! DEFINITION. The 8-bit additive checksum unit (41_checksum.md R110 to R114). -/

namespace Sys2Proof.Machine

open Sys2Proof

/-- `checksum(data, seed)`: each byte is added modulo 256 (R110). -/
def checksum (data : Bytes) (seed : Byte) : Byte := data.foldl (fun acc b => acc + b) seed

/-- CSUM.SEED (R112). -/
def execCsumSeed (b : Byte) (s : State) : Host.Outcome State Fault Refusal :=
  done (s.finishSum b)

/-- CSUM.FEED (R113). -/
def execCsumFeed (s : State) : Host.Outcome State Fault Refusal :=
  feed s (fun data => s.finishSum (checksum data s.sumAcc))

end Sys2Proof.Machine
end

