-- ==== Sys2Proof/Machine/PacketEncode.lean ====
section
/-! DEFINITION. The packet encoder (43_packet_encode.md R140 to R147). -/

namespace Sys2Proof.Machine

open Sys2Proof

/-- The integrity value of a data field, computed with seed 0 (R141): the checksum zero-extended, or the CRC. -/
def integrityValue (imode : IMode) (data : Bytes) : Half :=
  match imode with
  | .checksum => zext16 (checksum data 0x00#8)
  | .crc => crc16 data 0x0000#16

/-- The data field: length prefix, content, pad; exactly `cap` bytes when the content fits (R140,
30_encoding.md R76). -/
def dataField (fr : Framing) (content : Bytes) (pad : Byte) : Bytes :=
  lengthPrefix fr.prefixLen content.length ++ content
    ++ List.replicate (fr.cap - fr.prefixLen - content.length) pad

/-- The frame around a data field: start byte, sequence pair, data field, trailer (30_encoding.md R76). -/
def frameAround (fr : Framing) (seq : Byte) (data : Bytes) (imode : IMode) (tv : Half) : Bytes :=
  fr.start :: seqPair seq ++ data ++ trailerBytes imode tv

/-- A frame and its trailer value. -/
structure Encoded where
  frame : Bytes
  trailer : Half
  deriving DecidableEq, Repr

/-- `encode(seq, content, cap, pad, imode)`; none is the failure CONTENT_TOO_LONG (R140). -/
def encodeFrame (seq : Byte) (content : Bytes) (cap : Nat) (pad : Byte) (imode : IMode) : Option Encoded :=
  let fr := framingOfCap cap
  if fr.contentCap < content.length then none
  else
    let data := dataField fr content pad
    let tv := integrityValue imode data
    some { frame := frameAround fr seq data imode tv, trailer := tv }

/-- The capacity PKT.ENC uses: 128 or LARGE_CAP, as BMODE says (R142, R146). -/
def State.encodeCap (s : State) : Nat := capOfMode s.params.largeCap s.bmode

/-- The longest content PKT.ENC accepts, cap - P (R142). -/
def State.encodeContentCap (s : State) : Nat := (framingOfCap s.encodeCap).contentCap

/-- PKT.ENC (R142).  Both length failures come before any IBUF byte is read. -/
def execPktEnc (seq : Byte) (s : State) : Host.Outcome State Fault Refusal :=
  if s.inputTooLong then done (s.failPacket .badLength 0#16)
  else if s.encodeContentCap < s.inLen.toNat then done (s.failPacket .contentTooLong 0#16)
  else
    match s.input with
    | none => .fault .unwrittenInput
    | some content =>
      match encodeFrame seq content s.encodeCap s.pad s.imode with
      | none => done (s.failPacket .contentTooLong 0#16)
      | some r => done (s.finishPacket r.frame r.trailer)

end Sys2Proof.Machine
end

