-- ==== Sys2Proof/Machine/PacketDecode.lean ====
section
/-! DEFINITION. The packet decoder (44_packet_decode.md R160 to R172). -/

namespace Sys2Proof.Machine

open Sys2Proof

/-- What `decode` returns: a status code, a 16-bit value and a content string (R160). -/
structure Decoded where
  code : StatusCode
  value : Half
  content : Bytes
  deriving DecidableEq, Repr

/-- A failure that returns no integrity value: `(code, 0, [])` (R160). -/
def Decoded.failure (c : StatusCode) : Decoded := { code := c, value := 0#16, content := [] }

/-- The declared length: 1 byte, or 2 bytes big-endian (R160, R164). -/
def declaredLength (fr : Framing) (data : Bytes) : Nat :=
  if fr.prefixLen = 1 then (data.getD 0 0#8).toNat
  else (ofBe16 (data.getD 0 0#8) (data.getD 1 0#8)).toNat

/-- The content of a data field: the first min(D, cap - P) bytes after the prefix (R160, R164). -/
def contentOf (fr : Framing) (data : Bytes) : Bytes :=
  (data.drop fr.prefixLen).take (min (declaredLength fr data) fr.contentCap)

/-- The last two lines of R160's pseudocode: compare the received trailer with the recomputed value (R162),
then extract the content. -/
def judgeFrame (fr : Framing) (imode : IMode) (data trailer : Bytes) : Decoded :=
  let tv := integrityValue imode data
  if trailer = trailerBytes imode tv then { code := .ok, value := tv, content := contentOf fr data }
  else { code := .checksumMismatch, value := tv, content := [] }

/-- The frame length a start byte implies, 3 + cap + T (30_encoding.md R76). -/
def frameLen (fr : Framing) (imode : IMode) : Nat := 3 + fr.cap + trailerLen imode

/-- R160's pseudocode, over a way to read `n` bytes of the frame from index `a`: each read stands where the
pseudocode indexes the frame, so the reads made are exactly the bytes it indexes.  `decodeFrame` reads from a
byte string and PKT.DEC from IBUF, where a byte can be unwritten. -/
def decodeVia {m : Type → Type} [Monad m] (rd : Nat → Nat → m Bytes) (len : Nat) (large : LargeCap)
    (imode : IMode) (expected : Byte) : m Decoded :=
  if len = 0 then pure (.failure .shortFrame)
  else do
    let start ← rd 0 1
    match framingOfStart large (start.getD 0 0#8) with
    | none => pure (.failure .badStart)
    | some fr =>
      if len < 3 then pure (.failure .sequenceMismatch)
      else do
        let pair ← rd 1 2
        if pair ≠ seqPair expected then pure (.failure .sequenceMismatch)
        else if len < frameLen fr imode then pure (.failure .shortFrame)
        else do
          let data ← rd 3 fr.cap
          let trailer ← rd (3 + fr.cap) (trailerLen imode)
          pure (judgeFrame fr imode data trailer)

/-- `f[a : a + n]` of a byte string (00_scope.md R13). -/
def slice (f : Bytes) (a n : Nat) : Bytes := (f.drop a).take n

/-- `decode(f, imode, expected)` of a byte string (R160). -/
def decodeFrame (large : LargeCap) (f : Bytes) (imode : IMode) (expected : Byte) : Decoded :=
  decodeVia (m := Id) (fun a n => slice f a n) f.length large imode expected

/-- R160 on IBUF[0:IN_LEN]; none where a byte the pseudocode indexes is unwritten (R163). -/
def State.decodeInput (s : State) (expected : Byte) : Option Decoded :=
  decodeVia (m := Option) (fun a n => s.inputRange a n) s.inLen.toNat s.params.largeCap s.imode expected

/-- The end of PKT.DEC for a result of R160 (R163). -/
def State.finishDecode (s : State) (r : Decoded) : State :=
  match r.code with
  | .ok => s.finishPacket r.content r.value
  | c => s.failPacket c r.value

/-- PKT.DEC (R163).  BMODE and PAD are not read. -/
def execPktDec (expected : Byte) (s : State) : Host.Outcome State Fault Refusal :=
  if s.inputTooLong then done (s.failPacket .badLength 0#16)
  else
    match s.decodeInput expected with
    | none => .fault .unwrittenInput
    | some r => done (s.finishDecode r)

end Sys2Proof.Machine
end

