-- ==== Sys2Proof/Machine/SessionConfig.lean ====
section
/-! DEFINITION. CFG.PAD, CFG.IMODE, CFG.BMODE (40_session_config.md R100 to R103). -/

namespace Sys2Proof.Machine

open Sys2Proof

/-- CFG.PAD: PAD <- b (R100). -/
def execCfgPad (b : Byte) (s : State) : Host.Outcome State Fault Refusal :=
  done ({ s with pad := b }.report .ok)

/-- CFG.IMODE: IMODE <- b (R101). -/
def execCfgImode (m : IMode) (s : State) : Host.Outcome State Fault Refusal :=
  done ({ s with imode := m }.report .ok)

/-- CFG.BMODE: BMODE <- b (R102). -/
def execCfgBmode (m : BMode) (s : State) : Host.Outcome State Fault Refusal :=
  done ({ s with bmode := m }.report .ok)

end Sys2Proof.Machine
end

