-- ==== Sys2Proof/Machine/Dispatch.lean ====
section
/-! DEFINITION. One arm per command of 30_encoding.md R72, each a direct call of its meaning. -/

namespace Sys2Proof.Machine

open Sys2Proof

/-- The effect of a legal command. -/
def exec (i : Instr) (s : State) : Host.Outcome State Fault Refusal :=
  match i with
  | .csumSeed b => Sys2Proof.Machine.execCsumSeed b s
  | .csumFeed => Sys2Proof.Machine.execCsumFeed s
  | .crcSeed h => Sys2Proof.Machine.execCrcSeed h s
  | .crcFeed => Sys2Proof.Machine.execCrcFeed s
  | .cfgPad b => Sys2Proof.Machine.execCfgPad b s
  | .cfgImode m => Sys2Proof.Machine.execCfgImode m s
  | .cfgBmode m => Sys2Proof.Machine.execCfgBmode m s
  | .pktEnc seq => Sys2Proof.Machine.execPktEnc seq s
  | .pktDec e => Sys2Proof.Machine.execPktDec e s

end Sys2Proof.Machine
end

