-- ==== Sys2Proof/Machine/Flags.lean ====
section
/-! DEFINITION. STATUS.CODE's numbers and the register images made of bit fields.  The engine has no
condition-code flags (10_state.md R40); the only status indication is STATUS.CODE. -/

namespace Sys2Proof.Machine

open Sys2Proof

/-- The number of each status code (60_exceptions.md R190). -/
def StatusCode.bits : StatusCode → BitVec 4
  | .ok => 0#4
  | .checksumMismatch => 1#4
  | .sequenceMismatch => 2#4
  | .badStart => 3#4
  | .shortFrame => 4#4
  | .contentTooLong => 5#4
  | .badLength => 6#4
  | .illegalCommand => 7#4

/-- IMODE's bit in CFG (10_state.md R35). -/
def imodeBit : IMode → BitVec 1
  | .checksum => 0#1
  | .crc => 1#1

/-- BMODE's bit in CFG (10_state.md R35). -/
def bmodeBit : BMode → BitVec 1
  | .xmodem => 0#1
  | .xmodem1k => 1#1

/-- STATUS: CODE in bits 3:0, the rest 0 (10_state.md R31). -/
def statusWord (s : State) : Word := s.code.bits.setWidth 32

/-- CFG: IMODE bit 0, BMODE bit 1, PAD bits 15:8, the rest 0 (10_state.md R35). -/
def cfgWord (s : State) : Word := 0#16 ++ s.pad ++ 0#6 ++ bmodeBit s.bmode ++ imodeBit s.imode

end Sys2Proof.Machine
end

