-- ==== Sys2Proof/Machine/Access.lean ====
section
/-! DEFINITION. The host's accesses: the address map (20_memory.md R50), the register map (10_state.md R30 to
R39), admission (20_memory.md R54, R56), and the execution of a command word written to CMD. -/

namespace Sys2Proof.Machine

open Sys2Proof

/-- The registers of the map (10_state.md R30 to R38). -/
inductive Reg where
  | cmd
  | status
  | result
  | crcAcc
  | sumAcc
  | cfg
  | inLen
  | outLen
  | paramCap
  | paramIbuf
  | paramObuf
  deriving DecidableEq, Repr

/-- The offset of each register (10_state.md R30 to R38). -/
def Reg.offset : Reg → Nat
  | .cmd => 0x00
  | .status => 0x04
  | .result => 0x08
  | .crcAcc => 0x0C
  | .sumAcc => 0x10
  | .cfg => 0x14
  | .inLen => 0x18
  | .outLen => 0x1C
  | .paramCap => 0x20
  | .paramIbuf => 0x24
  | .paramObuf => 0x28

/-- The register at an offset; none at the reserved offsets (10_state.md R39). -/
def regAt (off : Nat) : Option Reg :=
  if off = 0x00 then some .cmd
  else if off = 0x04 then some .status
  else if off = 0x08 then some .result
  else if off = 0x0C then some .crcAcc
  else if off = 0x10 then some .sumAcc
  else if off = 0x14 then some .cfg
  else if off = 0x18 then some .inLen
  else if off = 0x1C then some .outLen
  else if off = 0x20 then some .paramCap
  else if off = 0x24 then some .paramIbuf
  else if off = 0x28 then some .paramObuf
  else none

/-- Offset of IBUF[0] in the window (20_memory.md R50). -/
def ibufOffset : Nat := 0x4000

/-- Offset of OBUF[0] in the window (20_memory.md R50). -/
def obufOffset : Nat := 0x8000

/-- Offset of the window's last region, all reserved (20_memory.md R50). -/
def reservedRegion : Nat := 0xC000

/-- Size of the window (20_memory.md R50). -/
def windowSize : Nat := 0x10000

/-- The host address of a register. -/
def regAddr (p : Params) (r : Reg) : Nat := p.base + r.offset

/-- The host address of IBUF[i]. -/
def ibufAddr (p : Params) (i : Nat) : Nat := p.base + ibufOffset + i

/-- The host address of OBUF[i]. -/
def obufAddr (p : Params) (i : Nat) : Nat := p.base + obufOffset + i

/-- A region of the window, with the offset within it for the buffers (20_memory.md R50). -/
inductive Place where
  | registers (off : Nat)
  | input (i : Nat)
  | output (i : Nat)
  | reserved
  | outside
  deriving DecidableEq, Repr

/-- Where a host address lies (20_memory.md R50). -/
def placeOf (p : Params) (addr : Nat) : Place :=
  if addr < p.base then .outside
  else
    let off := addr - p.base
    if off < ibufOffset then .registers off
    else if off < obufOffset then .input (off - ibufOffset)
    else if off < reservedRegion then .output (off - obufOffset)
    else if off < windowSize then .reserved
    else .outside

/-- What a host read of a register returns (10_state.md R30 to R38): CMD reads 0, unused bits read 0. -/
def readReg (r : Reg) (s : State) : Word :=
  match r with
  | .cmd => 0#32
  | .status => statusWord s
  | .result => s.result.setWidth 32
  | .crcAcc => s.crcAcc.setWidth 32
  | .sumAcc => s.sumAcc.setWidth 32
  | .cfg => cfgWord s
  | .inLen => s.inLen.setWidth 32
  | .outLen => s.outLen.setWidth 32
  | .paramCap => BitVec.ofNat 32 s.params.largeCap.bytes
  | .paramIbuf => BitVec.ofNat 32 s.params.ibufSize
  | .paramObuf => BitVec.ofNat 32 s.params.obufSize

/-- A word written to CMD is executed at once and whole (10_state.md R30, 70_reset_and_hazards.md R215): a
legal command by its rule, any other word by 60_exceptions.md R192. -/
def command (w : Word) (s : State) : Host.Outcome State Fault Refusal :=
  match decode w with
  | .ok i => exec i s
  | .error _ => done s.illegalCommand

/-- A host write of a register: CMD executes, IN_LEN stores, every other register is read-only
(10_state.md R30, R36, 20_memory.md R56). -/
def writeReg (r : Reg) (v : Word) (s : State) : Host.Outcome State Fault Refusal :=
  match r with
  | .cmd => command v s
  | .inLen => if v.extractLsb' 16 16 = 0#16 then done (s.setInLen (v.extractLsb' 0 16)) else .fault .zeroBitsSet
  | .status => .fault .readOnlyRegister
  | .result => .fault .readOnlyRegister
  | .crcAcc => .fault .readOnlyRegister
  | .sumAcc => .fault .readOnlyRegister
  | .cfg => .fault .readOnlyRegister
  | .outLen => .fault .readOnlyRegister
  | .paramCap => .fault .readOnlyRegister
  | .paramIbuf => .fault .readOnlyRegister
  | .paramObuf => .fault .readOnlyRegister

/-- A 32-bit access: the register it reaches, or why it is not admitted (20_memory.md R54). -/
def wordAccess (p : Params) (addr : Nat) : Except Fault Reg :=
  match placeOf p addr with
  | .registers off =>
    if off % 4 ≠ 0 then .error .misaligned
    else
      match regAt off with
      | none => .error .reservedOffset
      | some r => .ok r
  | .input _ => .error .wrongWidth
  | .output _ => .error .wrongWidth
  | .reserved => .error .reservedOffset
  | .outside => .error .outsideWindow

/-- 32-bit read. -/
def hostRead32 (addr : Nat) (s : State) : Host.Outcome State Fault Refusal :=
  match wordAccess s.params addr with
  | .error f => .fault f
  | .ok r => .next (s.returnRead (.word (readReg r s)))

/-- 32-bit write. -/
def hostWrite32 (addr : Nat) (v : Word) (s : State) : Host.Outcome State Fault Refusal :=
  match wordAccess s.params addr with
  | .error f => .fault f
  | .ok r => writeReg r v s

/-- A buffer byte's value goes to the host; an unwritten byte faults (10_state.md R43). -/
def returnByte (b : Option Byte) (unwritten : Fault) (s : State) : Host.Outcome State Fault Refusal :=
  match b with
  | none => .fault unwritten
  | some v => .next (s.returnRead (.byte v))

/-- 8-bit read of a buffer byte (20_memory.md R51, R52, R54). -/
def hostRead8 (addr : Nat) (s : State) : Host.Outcome State Fault Refusal :=
  match placeOf s.params addr with
  | .registers _ => .fault .wrongWidth
  | .input i =>
    if s.params.ibufSize ≤ i then .fault .beyondBuffer else returnByte (s.ibuf.read i) .unwrittenInput s
  | .output i =>
    if s.params.obufSize ≤ i then .fault .beyondBuffer else returnByte (s.obuf.read i) .unwrittenOutput s
  | .reserved => .fault .reservedOffset
  | .outside => .fault .outsideWindow

/-- 8-bit write: IBUF only (20_memory.md R51, R52, R54, R56). -/
def hostWrite8 (addr : Nat) (b : Byte) (s : State) : Host.Outcome State Fault Refusal :=
  match placeOf s.params addr with
  | .registers _ => .fault .wrongWidth
  | .input i => if s.params.ibufSize ≤ i then .fault .beyondBuffer else .next (s.storeInput i b)
  | .output _ => .fault .outputBufferWrite
  | .reserved => .fault .reservedOffset
  | .outside => .fault .outsideWindow

/-- An access of another width is admitted nowhere (20_memory.md R54). -/
def hostOtherWidth (addr : Nat) (s : State) : Host.Outcome State Fault Refusal :=
  match placeOf s.params addr with
  | .registers _ => .fault .wrongWidth
  | .input _ => .fault .wrongWidth
  | .output _ => .fault .wrongWidth
  | .reserved => .fault .reservedOffset
  | .outside => .fault .outsideWindow

/-- One host event, performed whole (20_memory.md R57, R60, 70_reset_and_hazards.md R215). -/
def perform (e : HostEvent) (s : State) : Host.Outcome State Fault Refusal :=
  match e with
  | .r32 addr => hostRead32 addr s
  | .w32 addr v => hostWrite32 addr v s
  | .r8 addr => hostRead8 addr s
  | .w8 addr b => hostWrite8 addr b s
  | .otherWidth addr _ _ => hostOtherWidth addr s
  | .assertReset => .next s.assertReset

/-- The event that hands the engine a command word: a host write of it to CMD (10_state.md R30, R80). -/
def commandEvent (p : Params) (w : Word) : HostEvent := .w32 (regAddr p .cmd) w

end Sys2Proof.Machine
end

