-- ==== Sys2Proof/Machine/Step.lean ====
section
/-! DEFINITION. One step: the host performs its next access (10_state.md R21). -/

namespace Sys2Proof.Machine

open Sys2Proof

/-- One step: the oldest pending host event is performed (10_state.md R21, 20_memory.md R60). -/
def step (s : State) : Host.Outcome State Fault Refusal :=
  match s.pending with
  | [] => hostIdle s
  | e :: rest => perform e { s with pending := rest }

/-- The engine fetches nothing (20_memory.md R63): a command is the data of a host write to CMD, so the place
the next step takes its command from is the host's next event (notes/assumptions/2.md). -/
def State.withFetchWord (s : State) (nbits w : Nat) : State :=
  { s with pending := commandEvent s.params (tableWord nbits w) :: s.pending }

end Sys2Proof.Machine
end

