-- ==== Sys2Proof/Machine/Pseudo.lean ====
section
/-! DEFINITION. The assembler's operations and pseudo-instructions (30_encoding.md R80, R81) as the host
events they expand to. -/

namespace Sys2Proof.Machine

open Sys2Proof

/-- `MNEMONIC imm`: a host write to CMD of the word R72 gives (R80). -/
def issue (p : Params) (i : Instr) : HostEvent := commandEvent p (encode i)

/-- `W8 IBUF+i, b0` and so on for a byte string, from index `i` (R80, R81). -/
def putBytes (p : Params) : Nat → Bytes → List HostEvent
  | _, [] => []
  | i, b :: bs => .w8 (ibufAddr p i) b :: putBytes p (i + 1) bs

/-- `W32 IN_LEN, n` (R80). -/
def putLength (p : Params) (n : Nat) : HostEvent := .w32 (regAddr p .inLen) (BitVec.ofNat 32 n)

/-- `PUT [b0, ..., bn-1]` (R81). -/
def put (p : Params) (bs : Bytes) : List HostEvent := putBytes p 0 bs ++ [putLength p bs.length]

/-- `CSUM.CALC s`: `CSUM.SEED s` then `CSUM.FEED` (R81). -/
def csumCalc (p : Params) (seed : Byte) : List HostEvent := [issue p (.csumSeed seed), issue p .csumFeed]

/-- `CRC.CALC h`: `CRC.SEED h` then `CRC.FEED` (R81). -/
def crcCalc (p : Params) (seed : Half) : List HostEvent := [issue p (.crcSeed seed), issue p .crcFeed]

/-- The byte moves of `COPYBACK`: `R8 OBUF+i` giving b_i, then `W8 IBUF+i, b_i` (R81). -/
def copyBytes (p : Params) : Nat → Bytes → List HostEvent
  | _, [] => []
  | i, b :: bs => .r8 (obufAddr p i) :: .w8 (ibufAddr p i) b :: copyBytes p (i + 1) bs

/-- `COPYBACK` when the host's reads give OUT_LEN = n and the bytes `bs`, n of them: `R32 OUT_LEN`, the byte
moves, `W32 IN_LEN, n` (R81). -/
def copyback (p : Params) (bs : Bytes) : List HostEvent :=
  .r32 (regAddr p .outLen) :: copyBytes p 0 bs ++ [putLength p bs.length]

/-- What the host's reads in `COPYBACK` give it: OBUF[0:OUT_LEN]; none where one of these bytes is unwritten
and its read faults. -/
def State.output (s : State) : Option Bytes := s.obuf.readRange 0 s.outLen.toNat

/-- The host's next events are these, before those already pending. -/
def State.enqueue (s : State) (es : List HostEvent) : State := { s with pending := es ++ s.pending }

/-- `k` steps, stopping at the first fault or refusal. -/
def run (k : Nat) (s : State) : Host.Outcome State Fault Refusal :=
  match k with
  | 0 => .next s
  | k + 1 =>
    match step s with
    | .next t => run k t
    | .fault f => .fault f
    | .refused r => .refused r

end Sys2Proof.Machine
end

