-- ==== Sys2Proof/Safety.lean ====
section
/-! DEFINITION. What counts as a safe state, a safe step and an admitted access. -/

namespace Sys2Proof.Machine

open Sys2Proof

/-- The invariant of every engine state: the parameters are admitted (00_scope.md R9 to R11, 20_memory.md
R50), both buffers are in canonical form and lie within their sizes (R51, R52), and OBUF[0:OUT_LEN] has been
written, within OBUF_SIZE (10_state.md R37). -/
structure State.Inv (s : State) : Prop where
  params : s.params.Admitted
  ibufCanonical : s.ibuf.Canonical
  obufCanonical : s.obuf.Canonical
  ibufBelow : s.ibuf.Below s.params.ibufSize
  obufBelow : s.obuf.Below s.params.obufSize
  outLenFits : s.outLen.toNat ≤ s.params.obufSize
  outputWritten : ∀ i < s.outLen.toNat, (s.obuf.read i).isSome

/-- IBUF[0:IN_LEN] holds exactly these bytes, read one at a time. -/
abbrev State.InputIs (s : State) (data : Bytes) : Prop :=
  data.length = s.inLen.toNat ∧ ∀ i, (h : i < data.length) → s.ibuf.read i = some data[i]

/-- OBUF[0:OUT_LEN] holds exactly these bytes, read one at a time. -/
abbrev State.OutputIs (s : State) (data : Bytes) : Prop :=
  data.length = s.outLen.toNat ∧ ∀ i, (h : i < data.length) → s.obuf.read i = some data[i]

/-- A buffer that holds a frame from index 0, its data field of `cap` bytes at index 3, has the integrity mode's
trailer right after it (30_encoding.md R76, R79): the data field's checksum, 1 byte, or its CRC, 2 bytes with the
most significant first, each from seed 0 (43_packet_encode.md R141, 44_packet_decode.md R162). -/
abbrev Memory.HoldsTrailer (b : Memory) (cap : Nat) (mode : IMode) : Prop :=
  ∃ data : Bytes, data.length = cap ∧ (∀ j, (h : j < data.length) → b.read (3 + j) = some data[j])
    ∧ match mode with
      | .checksum => b.read (3 + cap) = some (checksum data 0x00#8)
      | .crc => b.read (3 + cap) = some (hiByte (crc16 data 0x0000#16))
          ∧ b.read (4 + cap) = some (loByte (crc16 data 0x0000#16))

/-- The legal command the next step runs, where the next event writes one to CMD. -/
def State.nextCommand (s : State) : Option Instr :=
  match s.pending with
  | .w32 addr w :: _ => if addr = regAddr s.params .cmd then (decode w).toOption else none
  | _ => none

/-- The next event asserts the reset input. -/
def State.resetNext (s : State) : Prop := s.pending.head? = some .assertReset

/-- A step that ends in no fault (60_exceptions.md R193: a faulted state is never a good end state). -/
def SafeStep (s : State) : Prop := ∃ t, step s = .next t

/-- Change the next state of an outcome, leaving a fault or a refusal as it is. -/
def onNext (f : State → State) : Host.Outcome State Fault Refusal → Host.Outcome State Fault Refusal
  | .next t => .next (f t)
  | .fault r => .fault r
  | .refused r => .refused r

/-- A host read of the register returns `v` and does nothing else to the state (20_memory.md R57). -/
def State.ReadsAs (s : State) (r : Reg) (v : Word) : Prop :=
  ∀ rest, step { s with pending := .r32 (regAddr s.params r) :: rest }
    = .next { s with pending := rest, reads := .word v :: s.reads }

/-- No host write of the register is admitted (20_memory.md R56). -/
def State.RejectsWrites (s : State) (r : Reg) : Prop :=
  ∀ v rest, step { s with pending := .w32 (regAddr s.params r) v :: rest } = .fault .readOnlyRegister

end Sys2Proof.Machine
end

