-- ==== Sys2Proof/Certificates/Slice0/Obligations.lean ====
section
/-! DEFINITION. The statements for the provers.  Each docstring names the rules of spec/ it formalises; a
statement that rests on an inference the spec marks "[derived: ...]", or on a log entry, says so. -/

open Sys2Proof Sys2Proof.Machine

/-! ### The command encoding (30_encoding.md) -/

/-- Decoding the encoding of an instruction gives it back, for all nine commands and every operand value. -/
def Obligations.DecodeOfEncodeIsTheInstruction : Prop :=
  ∀ i : Instr, i.wellFormed = true → decode (encode i) = .ok i

/-- Each legal word has one spelling: it is the encoding of what it decodes to, so no bit of it is dropped. -/
def Obligations.EncodeOfDecodeIsTheWord : Prop :=
  ∀ (w : Word) (i : Instr), decode w = .ok i → encode i = w

/-- R72, R73: a word that matches a row of the table executes that row's command, its operand being the bits
the row's mask leaves free; a word that matches none is illegal and executes R192; no two rows match the same
word. -/
def Obligations.CommandWordsAreTheRowsOfTheTable : Prop :=
  (∀ (w : Word) (r : OpcodeRow), r ∈ opcodeTable → w &&& r.mask = r.pattern →
      ∃ i, decode w = .ok i ∧ i.mnemonic = r.mnemonic ∧ i.operand = (w &&& ~~~r.mask).toNat
        ∧ ∀ s, command w s = exec i s)
    ∧ (∀ w : Word, (∀ r ∈ opcodeTable, w &&& r.mask ≠ r.pattern) →
      (∃ e, decode w = .error e) ∧ ∀ s : State, command w s = .next { s with code := .illegalCommand })
    ∧ opcodeTable.Pairwise (fun r q => ∀ w : Word, ¬ (w &&& r.mask = r.pattern ∧ w &&& q.mask = q.pattern))

/-- R74, R192: the illegal words are exactly those with (a) an OP outside the map, (b) RSV not 0, or (c) a bit
of IMM set that the OP's form requires to be zero; the host write that hands one to the engine is a step that
sets STATUS.CODE to ILLEGAL_COMMAND and changes nothing else. -/
def Obligations.IllegalWordsChangeOnlyStatus : Prop :=
  (∀ w : Word, (∃ e, decode w = .error e) ↔
      ((opField w).toNat = 0x00 ∨ (0x05 ≤ (opField w).toNat ∧ (opField w).toNat ≤ 0x0F)
        ∨ (0x13 ≤ (opField w).toNat ∧ (opField w).toNat ≤ 0x1F) ∨ 0x22 ≤ (opField w).toNat)
      ∨ rsvField w ≠ 0#8
      ∨ ((opField w = 0x02#8 ∨ opField w = 0x04#8) ∧ immField w ≠ 0#16)
      ∨ ((opField w = 0x11#8 ∨ opField w = 0x12#8) ∧ 2 ≤ (immField w).toNat)
      ∨ ((opField w = 0x01#8 ∨ opField w = 0x10#8 ∨ opField w = 0x20#8 ∨ opField w = 0x21#8)
          ∧ 0x100 ≤ (immField w).toNat))
    ∧ ∀ (w : Word) (e : IllegalWord) (s : State) (rest : List HostEvent), decode w = .error e →
        step { s with pending := .w32 (regAddr s.params .cmd) w :: rest }
          = .next { s with pending := rest, code := .illegalCommand }

/-- Words that R80, R100 to R102 and 95_test_vectors.md write out, and what they stand for. -/
def Obligations.WordsPrintedInTheSpecDecode : Prop :=
  decode 0x01000014#32 = .ok (.csumSeed 0x14#8)
    ∧ decode 0x02000000#32 = .ok .csumFeed
    ∧ decode 0x0300FFFF#32 = .ok (.crcSeed 0xFFFF#16)
    ∧ decode 0x04000000#32 = .ok .crcFeed
    ∧ decode 0x100000FF#32 = .ok (.cfgPad 0xFF#8)
    ∧ decode 0x11000000#32 = .ok (.cfgImode .checksum)
    ∧ decode 0x11000001#32 = .ok (.cfgImode .crc)
    ∧ decode 0x12000001#32 = .ok (.cfgBmode .xmodem1k)
    ∧ decode 0x20000005#32 = .ok (.pktEnc 5#8)
    ∧ decode 0x210000FF#32 = .ok (.pktDec 255#8)
    ∧ decode 0x00000000#32 = .error .unlistedOp
    ∧ decode 0x0301FFFF#32 = .error .reservedBits
    ∧ decode 0x12000003#32 = .error .immediateBits

/-! ### Steps -/

/-- A step runs the decoded command: when the host's next event writes a legal word to CMD, the step is the
command's own effect, with the event taken off the host's list; the event `withFetchWord` places is such a
write (log entry 2); with no event pending the state stays as it is (log entry 3). -/
def Obligations.StepRunsTheDecodedCommand : Prop :=
  (∀ (s : State) (w : Word) (i : Instr) (rest : List HostEvent), decode w = .ok i →
      step { s with pending := .w32 (regAddr s.params .cmd) w :: rest } = exec i { s with pending := rest })
    ∧ (∀ (s : State) (i : Instr), i.wellFormed = true →
      step (s.withFetchWord 32 (encode i).toNat) = exec i s)
    ∧ ∀ s : State, s.pending = [] → step s = .next s

/-! ### Session configuration (40_session_config.md) -/

/-- R100: CFG.PAD sets the pad byte and STATUS.CODE and nothing else; its word; the words that are not
CFG.PAD; PAD is read by PKT.ENC alone; the rule's example. -/
def Obligations.CfgPadSetsThePadByte : Prop :=
  (∀ (b : Byte) (s : State), exec (.cfgPad b) s = .next { s with pad := b, code := .ok })
    ∧ (∀ b : Byte, encode (.cfgPad b) = 0x10000000#32 ||| b.setWidth 32)
    ∧ (∀ (w : Word) (s : State), opField w = 0x10#8 → rsvField w ≠ 0#8 ∨ 0x100 ≤ (immField w).toNat →
        command w s = .next { s with code := .illegalCommand })
    ∧ (∀ (i : Instr) (b : Byte) (s : State), (∀ q, i ≠ .pktEnc q) → (∀ q, i ≠ .cfgPad q) →
        exec i { s with pad := b } = onNext (fun t => { t with pad := b }) (exec i s))
    ∧ ∀ s : State, s.imode = .crc → s.bmode = .xmodem →
        ∃ t, command 0x10000000#32 s = .next t ∧ readReg .cfg t = 0x00000001#32

/-- R101: CFG.IMODE sets the integrity mode and STATUS.CODE and nothing else; its word; IMM 2 to 0xFFFF is
illegal; IMODE is read by PKT.ENC, whose frame then ends in the mode's trailer (1 byte in checksum mode, 2 bytes
in CRC mode), and by PKT.DEC, which then accepts only a frame that long and with that trailer, alone; the rule's
example. -/
def Obligations.CfgImodeSetsTheIntegrityMode : Prop :=
  (∀ (m : IMode) (s : State), exec (.cfgImode m) s = .next { s with imode := m, code := .ok })
    ∧ encode (.cfgImode .checksum) = 0x11000000#32 ∧ encode (.cfgImode .crc) = 0x11000001#32
    ∧ (∀ (imm : Half) (s : State), 2 ≤ imm.toNat →
        command (cmdWord 0x11#8 imm) s = .next { s with code := .illegalCommand })
    ∧ (∀ (i : Instr) (m : IMode) (s : State), (∀ q, i ≠ .pktEnc q) → (∀ q, i ≠ .pktDec q) →
        (∀ q, i ≠ .cfgImode q) →
        exec i { s with imode := m } = onNext (fun t => { t with imode := m }) (exec i s))
    ∧ (∀ (m : IMode) (q : Byte) (s u : State), exec (.pktEnc q) { s with imode := m } = .next u → u.code = .ok →
        u.outLen.toNat = 3 + capOfMode s.params.largeCap s.bmode + (match m with
          | .checksum => 1
          | .crc => 2)
        ∧ u.obuf.HoldsTrailer (capOfMode s.params.largeCap s.bmode) m)
    ∧ (∀ (m : IMode) (e : Byte) (s u : State), exec (.pktDec e) { s with imode := m } = .next u → u.code = .ok →
        3 + 128 + (match m with
          | .checksum => 1
          | .crc => 2) ≤ s.inLen.toNat)
    ∧ (∀ (m : IMode) (e : Byte) (s u : State), s.ibuf.Canonical → exec (.pktDec e) { s with imode := m } = .next u →
        u.code = .ok →
        ∃ (start : Byte) (fr : Framing), s.ibuf.read 0 = some start
          ∧ framingOfStart s.params.largeCap start = some fr
          ∧ 3 + fr.cap + trailerLen m ≤ s.inLen.toNat ∧ s.ibuf.HoldsTrailer fr.cap m)
    ∧ ∀ p : Params, ∃ t, command 0x11000000#32 (State.resetWith p) = .next t ∧ readReg .cfg t = 0x00001A00#32

/-- R102: CFG.BMODE sets the block-size mode and STATUS.CODE and nothing else; its word; IMM 2 to 0xFFFF is
illegal; BMODE is read by PKT.ENC alone; the rule's example, whose next PKT.ENC emits an STX frame of
3 + LARGE_CAP + 2 bytes. -/
def Obligations.CfgBmodeSetsTheBlockSizeMode : Prop :=
  (∀ (m : BMode) (s : State), exec (.cfgBmode m) s = .next { s with bmode := m, code := .ok })
    ∧ encode (.cfgBmode .xmodem) = 0x12000000#32 ∧ encode (.cfgBmode .xmodem1k) = 0x12000001#32
    ∧ (∀ (imm : Half) (s : State), 2 ≤ imm.toNat →
        command (cmdWord 0x12#8 imm) s = .next { s with code := .illegalCommand })
    ∧ (∀ (i : Instr) (m : BMode) (s : State), (∀ q, i ≠ .pktEnc q) → (∀ q, i ≠ .cfgBmode q) →
        exec i { s with bmode := m } = onNext (fun t => { t with bmode := m }) (exec i s))
    ∧ ∀ (p : Params) (seq : Byte), p.Admitted →
        ∃ t u, command 0x12000001#32 (State.resetWith p) = .next t ∧ readReg .cfg t = 0x00001A03#32
          ∧ exec (.pktEnc seq) t = .next u ∧ u.outLen.toNat = 3 + p.largeCap.bytes + 2
          ∧ u.obuf.read 0 = some 0x02#8

/-! ### The checksum unit (41_checksum.md) -/

/-- R110: `checksum(data, seed)` is `(seed + sum of the bytes) mod 256`. -/
def Obligations.ChecksumIsTheSumModulo256 : Prop :=
  ∀ (data : Bytes) (seed : Byte),
    (checksum data seed).toNat = (seed.toNat + (data.map BitVec.toNat).sum) % 256

/-- The laws of `checksum` that R111 infers from R110 (the spec marks them derived): empty data, chaining with
its golden value, order independence, seed shift, zero bytes. -/
def Obligations.ChecksumLaws : Prop :=
  (∀ s : Byte, checksum [] s = s)
    ∧ (∀ (a b : Bytes) (s : Byte), checksum b (checksum a s) = checksum (a ++ b) s)
    ∧ (∀ (a b : Bytes) (s : Byte), a.Perm b → checksum a s = checksum b s)
    ∧ (∀ (d : Bytes) (s : Byte), checksum d s = s + checksum d 0#8)
    ∧ (∀ (d : Bytes) (n : Nat) (s : Byte), checksum (d ++ List.replicate n 0#8) s = checksum d s)
    ∧ checksum [0x77#8, 0x6F#8, 0x72#8, 0x6C#8, 0x64#8]
        (checksum [0x68#8, 0x65#8, 0x6C#8, 0x6C#8, 0x6F#8] 0#8) = 0x3C#8

/-- R112: CSUM.SEED loads SUM_ACC and RESULT, sets STATUS.CODE, and changes nothing else; its word; a word
with IMM[15:8] != 0 is illegal. -/
def Obligations.CsumSeedLoadsTheAccumulator : Prop :=
  (∀ (b : Byte) (s : State),
      exec (.csumSeed b) s = .next { s with sumAcc := b, result := b.setWidth 16, code := .ok })
    ∧ (∀ b : Byte, encode (.csumSeed b) = 0x01000000#32 ||| b.setWidth 32)
    ∧ ∀ (imm : Half) (s : State), 0x100 ≤ imm.toNat →
        command (cmdWord 0x01#8 imm) s = .next { s with code := .illegalCommand }

/-- R113: CSUM.FEED.  BAD_LENGTH changes nothing but STATUS.CODE; otherwise, with IBUF[0:IN_LEN] written,
SUM_ACC and RESULT take the checksum of those bytes from SUM_ACC, STATUS.CODE is OK and nothing else changes;
an unwritten byte among them faults.  With no input SUM_ACC stays.  Two FEEDs, with IBUF holding `a` and then
`b`, leave the checksum of `a ++ b`, so the same input fed twice counts twice; the rule's two examples. -/
def Obligations.CsumFeedAddsTheInput : Prop :=
  (∀ s : State, s.params.ibufSize < s.inLen.toNat → exec .csumFeed s = .next { s with code := .badLength })
    ∧ (∀ (s : State) (data : Bytes), s.ibuf.Canonical → s.inLen.toNat ≤ s.params.ibufSize → s.InputIs data →
        exec .csumFeed s
          = .next { s with
              sumAcc := checksum data s.sumAcc
              result := (checksum data s.sumAcc).setWidth 16
              code := .ok })
    ∧ (∀ (s : State) (i : Nat), s.ibuf.Canonical → s.inLen.toNat ≤ s.params.ibufSize → i < s.inLen.toNat →
        s.ibuf.read i = none → exec .csumFeed s = .fault .unwrittenInput)
    ∧ (∀ s : State, s.inLen = 0#16 →
        exec .csumFeed s = .next { s with result := s.sumAcc.setWidth 16, code := .ok })
    ∧ (∀ (s : State) (a b : Bytes) (m : Memory), s.ibuf.Canonical → m.Canonical →
        s.inLen.toNat ≤ s.params.ibufSize → s.InputIs a → b.length ≤ s.params.ibufSize → b.length < 0x10000 →
        (∀ i, (h : i < b.length) → m.read i = some b[i]) →
        ∃ t u, exec .csumFeed s = .next t
          ∧ exec .csumFeed { t with ibuf := m, inLen := BitVec.ofNat 16 b.length } = .next u
          ∧ u.sumAcc = checksum (a ++ b) s.sumAcc)
    ∧ (∀ (s : State) (data : Bytes), s.ibuf.Canonical → s.inLen.toNat ≤ s.params.ibufSize → s.InputIs data →
        ∃ t u, exec .csumFeed s = .next t ∧ exec .csumFeed t = .next u
          ∧ u.sumAcc = checksum (data ++ data) s.sumAcc)
    ∧ checksum [0x01#8] 0xFF#8 = 0x00#8
    ∧ checksum [0x68#8, 0x65#8, 0x6C#8, 0x6C#8, 0x6F#8] 0x00#8 = 0x14#8
    ∧ encode .csumFeed = 0x02000000#32

/-! ### The CRC unit (42_crc16.md) -/

/-- R122: CRC.SEED loads CRC_ACC and RESULT, sets STATUS.CODE, and changes nothing else; its word; a word with
RSV != 0 is illegal. -/
def Obligations.CrcSeedLoadsTheAccumulator : Prop :=
  (∀ (h : Half) (s : State), exec (.crcSeed h) s = .next { s with crcAcc := h, result := h, code := .ok })
    ∧ (∀ h : Half, encode (.crcSeed h) = 0x03000000#32 ||| h.setWidth 32)
    ∧ (∀ (h : Half) (s : State), command (cmdWord 0x03#8 h) s = exec (.crcSeed h) s)
    ∧ ∀ (w : Word) (s : State), opField w = 0x03#8 → rsvField w ≠ 0#8 →
        command w s = .next { s with code := .illegalCommand }

/-- R123: CRC.FEED.  BAD_LENGTH changes nothing but STATUS.CODE; otherwise, with IBUF[0:IN_LEN] written,
CRC_ACC and RESULT take the CRC of those bytes from CRC_ACC, STATUS.CODE is OK and nothing else changes; an
unwritten byte among them faults.  With no input CRC_ACC stays; zeros from seed 0 give 0.  Two FEEDs, with IBUF
holding `a` and then `b`, leave the CRC of `a ++ b`, so the same input fed twice is processed twice; the rule's
example. -/
def Obligations.CrcFeedRunsTheInput : Prop :=
  (∀ s : State, s.params.ibufSize < s.inLen.toNat → exec .crcFeed s = .next { s with code := .badLength })
    ∧ (∀ (s : State) (data : Bytes), s.ibuf.Canonical → s.inLen.toNat ≤ s.params.ibufSize → s.InputIs data →
        exec .crcFeed s
          = .next { s with crcAcc := crc16 data s.crcAcc, result := crc16 data s.crcAcc, code := .ok })
    ∧ (∀ (s : State) (i : Nat), s.ibuf.Canonical → s.inLen.toNat ≤ s.params.ibufSize → i < s.inLen.toNat →
        s.ibuf.read i = none → exec .crcFeed s = .fault .unwrittenInput)
    ∧ (∀ s : State, s.inLen = 0#16 → exec .crcFeed s = .next { s with result := s.crcAcc, code := .ok })
    ∧ (∀ (s : State) (a b : Bytes) (m : Memory), s.ibuf.Canonical → m.Canonical →
        s.inLen.toNat ≤ s.params.ibufSize → s.InputIs a → b.length ≤ s.params.ibufSize → b.length < 0x10000 →
        (∀ i, (h : i < b.length) → m.read i = some b[i]) →
        ∃ t u, exec .crcFeed s = .next t
          ∧ exec .crcFeed { t with ibuf := m, inLen := BitVec.ofNat 16 b.length } = .next u
          ∧ u.crcAcc = crc16 (a ++ b) s.crcAcc)
    ∧ (∀ (s : State) (data : Bytes), s.ibuf.Canonical → s.inLen.toNat ≤ s.params.ibufSize → s.InputIs data →
        ∃ t u, exec .crcFeed s = .next t ∧ exec .crcFeed t = .next u ∧ u.crcAcc = crc16 (data ++ data) s.crcAcc)
    ∧ (∀ n : Nat, crc16 (List.replicate n 0x00#8) 0x0000#16 = 0x0000#16)
    ∧ crc16 [0x31#8, 0x32#8, 0x33#8, 0x34#8, 0x35#8, 0x36#8, 0x37#8, 0x38#8, 0x39#8] 0x0000#16 = 0x31C3#16
    ∧ encode .crcFeed = 0x04000000#32

/-- The polynomial over GF(2) whose coefficients are the bits of a value, bit i at x^i. -/
noncomputable def bitsPoly {n : Nat} (v : BitVec n) : Polynomial (ZMod 2) :=
  ∑ i ∈ Finset.range n, if v.getLsbD i then Polynomial.X ^ i else 0

/-- The polynomial of a byte string, first byte and its bit 7 highest. -/
noncomputable def bytesPoly (data : Bytes) : Polynomial (ZMod 2) :=
  data.foldl (fun p b => p * Polynomial.X ^ 8 + bitsPoly b) 0

/-- R2, R127: the CRC is polynomial arithmetic over GF(2).  `crc16(data, seed)` is the remainder modulo
x^16 + x^12 + x^5 + 1 of data(x) x^16 + seed(x) x^(8 len): it is congruent to it, and 16 bits hold no degree
above 15. -/
def Obligations.CrcIsThePolynomialRemainder : Prop :=
  ∀ (data : Bytes) (seed : Half),
    (bytesPoly data * Polynomial.X ^ 16 + bitsPoly seed * Polynomial.X ^ (8 * data.length))
        %ₘ (Polynomial.X ^ 16 + Polynomial.X ^ 12 + Polynomial.X ^ 5 + 1)
      = bitsPoly (crc16 data seed)

/-- R121 and R125 (the spec marks both derived): each entry of the printed table is the CRC of its index from
seed 0, and the table-driven form gives the bitwise form's value for every data and seed. -/
def Obligations.TableDrivenFormIsTheBitwiseForm : Prop :=
  crcTable.length = 256
    ∧ (∀ i : Byte, crcTableEntry i = crc16 [i] 0#16)
    ∧ ∀ (data : Bytes) (seed : Half), crc16ByTable data seed = crc16 data seed

/-- The laws of `crc16` that R126 infers from R120 (the spec marks them derived): empty data, chaining with
its golden value, zero data, residue, linearity, order dependence. -/
def Obligations.CrcLaws : Prop :=
  (∀ s : Half, crc16 [] s = s)
    ∧ (∀ (a b : Bytes) (s : Half), crc16 b (crc16 a s) = crc16 (a ++ b) s)
    ∧ (∀ n : Nat, crc16 (List.replicate n 0#8) 0#16 = 0#16)
    ∧ (∀ (x : Bytes) (s : Half), crc16 (x ++ be16 (crc16 x s)) s = 0#16)
    ∧ (∀ (x y : Bytes) (s t : Half), x.length = y.length →
        crc16 (List.zipWith (· ^^^ ·) x y) (s ^^^ t) = crc16 x s ^^^ crc16 y t)
    ∧ crc16 [0x01#8, 0x00#8] 0#16 = 0x3331#16 ∧ crc16 [0x00#8, 0x01#8] 0#16 = 0x1021#16
    ∧ crc16 [0x77#8, 0x6F#8, 0x72#8, 0x6C#8, 0x64#8]
        (crc16 [0x68#8, 0x65#8, 0x6C#8, 0x6C#8, 0x6F#8] 0#16) = 0x4AB3#16

/-! ### What commands read and write -/

/-- R41: the two accumulators are independent; no command reads or writes both.  A command that is not of the
checksum unit carries SUM_ACC through, whatever it holds, and one that is not of the CRC unit carries CRC_ACC
through. -/
def Obligations.AccumulatorsAreIndependent : Prop :=
  (∀ (i : Instr) (v : Byte) (s : State), (∀ b, i ≠ .csumSeed b) → i ≠ .csumFeed →
      exec i { s with sumAcc := v } = onNext (fun t => { t with sumAcc := v }) (exec i s))
    ∧ (∀ (i : Instr) (v : Half) (s : State), (∀ h, i ≠ .crcSeed h) → i ≠ .crcFeed →
      exec i { s with crcAcc := v } = onNext (fun t => { t with crcAcc := v }) (exec i s))
    ∧ (∀ (b : Byte) (s : State), ∃ t, exec (.csumSeed b) s = .next t ∧ t.sumAcc = b)
    ∧ (∀ (h : Half) (s : State), ∃ t, exec (.crcSeed h) s = .next t ∧ t.crcAcc = h)
    ∧ ∀ (s t : State) (data : Bytes), s.ibuf.Canonical → s.inLen.toNat ≤ s.params.ibufSize → s.InputIs data →
        (exec .csumFeed s = .next t → t.sumAcc = checksum data s.sumAcc)
          ∧ (exec .crcFeed s = .next t → t.crcAcc = crc16 data s.crcAcc)

/-- R141: the encoder's trailer is computed with seed 0 over the frame's data field, and the codec neither
reads nor writes CRC_ACC or SUM_ACC: whatever they hold, PKT.ENC and PKT.DEC carry them through. -/
def Obligations.CodecNeverTouchesTheAccumulators : Prop :=
  (∀ (seq : Byte) (content : Bytes) (pad : Byte) (l : LargeCap) (b : BMode) (r : Encoded),
      (encodeFrame seq content (capOfMode l b) pad .checksum = some r →
        r.trailer = (checksum (slice r.frame 3 (capOfMode l b)) 0#8).setWidth 16)
      ∧ (encodeFrame seq content (capOfMode l b) pad .crc = some r →
        r.trailer = crc16 (slice r.frame 3 (capOfMode l b)) 0#16))
    ∧ ∀ (i : Instr) (c : Half) (v : Byte) (s : State), (∃ q, i = .pktEnc q ∨ i = .pktDec q) →
        exec i { s with crcAcc := c, sumAcc := v }
          = onNext (fun t => { t with crcAcc := c, sumAcc := v }) (exec i s)

/-- R40: no command reads STATUS.CODE, and every command overwrites it: what a command does, and the whole
state it leaves, is the same whatever STATUS.CODE held before. -/
def Obligations.NoCommandReadsStatus : Prop :=
  ∀ (w : Word) (c : StatusCode) (s : State), command w { s with code := c } = command w s

/-- R53, with R51's and R36's sentences on IBUF and IN_LEN: no command reads OBUF, so the outcome does not
depend on it but for OBUF itself; and no command writes IBUF, IN_LEN, the parameters or the host's side. -/
def Obligations.CommandsReadNoOutputAndWriteNoInput : Prop :=
  (∀ (i : Instr) (m : Memory) (s : State),
      onNext (fun t => { t with obuf := [] }) (exec i { s with obuf := m })
        = onNext (fun t => { t with obuf := [] }) (exec i s))
    ∧ ∀ (i : Instr) (s t : State), exec i s = .next t →
        t.ibuf = s.ibuf ∧ t.inLen = s.inLen ∧ t.params = s.params ∧ t.pending = s.pending ∧ t.reads = s.reads

/-! ### The packet encoder (43_packet_encode.md, 30_encoding.md) -/

/-- R140: `encode`, in both block formats: the failure, and otherwise the frame and trailer value the
pseudocode builds. -/
def Obligations.EncodeBuildsTheFrame : Prop :=
  ∀ (seq : Byte) (content : Bytes) (pad : Byte) (imode : IMode) (l : LargeCap),
    (127 < content.length → encodeFrame seq content 128 pad imode = none)
    ∧ (l.bytes - 2 < content.length → encodeFrame seq content l.bytes pad imode = none)
    ∧ (content.length ≤ 127 →
        let data := [BitVec.ofNat 8 content.length] ++ content ++ List.replicate (128 - 1 - content.length) pad
        encodeFrame seq content 128 pad .checksum
            = some ⟨[0x01#8, seq, 255#8 - seq] ++ data ++ [checksum data 0#8], (checksum data 0#8).setWidth 16⟩
          ∧ encodeFrame seq content 128 pad .crc
            = some ⟨[0x01#8, seq, 255#8 - seq] ++ data ++ be16 (crc16 data 0#16), crc16 data 0#16⟩)
    ∧ (content.length ≤ l.bytes - 2 →
        let data := be16 (BitVec.ofNat 16 content.length) ++ content
          ++ List.replicate (l.bytes - 2 - content.length) pad
        encodeFrame seq content l.bytes pad .checksum
            = some ⟨[0x02#8, seq, 255#8 - seq] ++ data ++ [checksum data 0#8], (checksum data 0#8).setWidth 16⟩
          ∧ encodeFrame seq content l.bytes pad .crc
            = some ⟨[0x02#8, seq, 255#8 - seq] ++ data ++ be16 (crc16 data 0#16), crc16 data 0#16⟩)

/-- R76, R77: the fields of a frame at their offsets, with no gaps, and the frame lengths of each format: the
start byte, the pair, the length prefix, the content, the pad, the trailer over the data field. -/
def Obligations.FrameLayout : Prop :=
  (∀ (seq : Byte) (content : Bytes) (pad : Byte) (imode : IMode) (l : LargeCap) (b : BMode) (r : Encoded),
      encodeFrame seq content (capOfMode l b) pad imode = some r →
        let cap := capOfMode l b
        let n := content.length
        let P := match b with
          | .xmodem => 1
          | .xmodem1k => 2
        n ≤ cap - P
          ∧ r.frame.length = 3 + cap + trailerLen imode
          ∧ slice r.frame 0 1 = [match b with
              | .xmodem => 0x01#8
              | .xmodem1k => 0x02#8]
          ∧ slice r.frame 1 1 = [seq]
          ∧ slice r.frame 2 1 = [~~~seq]
          ∧ slice r.frame 3 P = (match b with
              | .xmodem => [BitVec.ofNat 8 n]
              | .xmodem1k => be16 (BitVec.ofNat 16 n))
          ∧ slice r.frame (3 + P) n = content
          ∧ slice r.frame (3 + P + n) (cap - P - n) = List.replicate (cap - P - n) pad
          ∧ slice r.frame (3 + cap) (trailerLen imode) = (match imode with
              | .checksum => [checksum (slice r.frame 3 cap) 0#8]
              | .crc => be16 (crc16 (slice r.frame 3 cap) 0#16)))
    ∧ (∀ l : LargeCap, capOfMode l .xmodem = 128 ∧ framingOfStart l 0x01#8 = some ⟨0x01#8, 128, 1⟩
        ∧ framingOfStart l 0x02#8 = some ⟨0x02#8, l.bytes, 2⟩)
    ∧ capOfMode .cap1024 .xmodem1k = 1024 ∧ capOfMode .cap8192 .xmodem1k = 8192
    ∧ (framingOfCap 128).contentCap = 127 ∧ (framingOfCap 1024).contentCap = 1022
    ∧ (framingOfCap 8192).contentCap = 8190
    ∧ trailerLen .checksum = 1 ∧ trailerLen .crc = 2

/-- R143: the pair's second byte is `255 - seq`, the bitwise NOT of seq; the two sum to 0xFF and XOR to 0xFF;
every frame carries the pair after its start byte. -/
def Obligations.SequencePairIsOnesComplement : Prop :=
  (∀ seq : Byte, seqPair seq = [seq, 255#8 - seq] ∧ 255#8 - seq = ~~~seq ∧ seq + (255#8 - seq) = 0xFF#8
      ∧ seq.toNat + (255#8 - seq).toNat = 0xFF ∧ seq ^^^ (255#8 - seq) = 0xFF#8)
    ∧ ∀ (seq : Byte) (content : Bytes) (cap : Nat) (pad : Byte) (imode : IMode) (r : Encoded),
        encodeFrame seq content cap pad imode = some r → slice r.frame 1 2 = [seq, 255#8 - seq]

/-- R142: PKT.ENC.  BAD_LENGTH, then CONTENT_TOO_LONG, each with RESULT 0, OUT_LEN 0 and nothing else changed
but STATUS.CODE; otherwise, with IBUF[0:IN_LEN] written, OBUF[0:OUT_LEN] is the frame of R140, RESULT its
trailer value, STATUS.CODE OK, the later bytes of OBUF and everything else as before, and the frame fits OBUF;
an unwritten content byte faults; the command's word. -/
def Obligations.PktEncBuildsOneFrame : Prop :=
  (∀ (seq : Byte) (s : State), s.params.ibufSize < s.inLen.toNat →
      exec (.pktEnc seq) s = .next { s with result := 0#16, outLen := 0#16, code := .badLength })
    ∧ (∀ (seq : Byte) (s : State), s.inLen.toNat ≤ s.params.ibufSize →
      (s.bmode = .xmodem ∧ 127 < s.inLen.toNat) ∨ (s.bmode = .xmodem1k ∧ s.params.largeCap.bytes - 2 < s.inLen.toNat) →
      exec (.pktEnc seq) s = .next { s with result := 0#16, outLen := 0#16, code := .contentTooLong })
    ∧ (∀ (seq : Byte) (s : State) (content : Bytes), s.ibuf.Canonical → s.params.Admitted →
      s.inLen.toNat ≤ s.params.ibufSize →
      (s.bmode = .xmodem ∧ s.inLen.toNat ≤ 127)
        ∨ (s.bmode = .xmodem1k ∧ s.inLen.toNat ≤ s.params.largeCap.bytes - 2) →
      s.InputIs content →
      ∃ r t, encodeFrame seq content (match s.bmode with
            | .xmodem => 128
            | .xmodem1k => s.params.largeCap.bytes) s.pad s.imode = some r
        ∧ exec (.pktEnc seq) s = .next t
        ∧ t = { s with
            obuf := t.obuf
            outLen := BitVec.ofNat 16 r.frame.length
            result := r.trailer
            code := .ok }
        ∧ t.OutputIs r.frame
        ∧ (∀ j, r.frame.length ≤ j → t.obuf.read j = s.obuf.read j)
        ∧ r.frame.length ≤ s.params.obufSize)
    ∧ (∀ (seq : Byte) (s : State) (i : Nat), s.ibuf.Canonical → s.inLen.toNat ≤ s.params.ibufSize →
      (s.bmode = .xmodem ∧ s.inLen.toNat ≤ 127)
        ∨ (s.bmode = .xmodem1k ∧ s.inLen.toNat ≤ s.params.largeCap.bytes - 2) →
      i < s.inLen.toNat → s.ibuf.read i = none → exec (.pktEnc seq) s = .fault .unwrittenInput)
    ∧ ∀ seq : Byte, encode (.pktEnc seq) = 0x20000000#32 ||| seq.setWidth 32

/-- Laws of `encode` that R144 infers from R140 (the spec marks them derived): in CRC mode the frame after the
pair runs to zero; in checksum mode the trailer byte is the data field's checksum; the pad byte shows only in
the pad bytes and the trailer. -/
def Obligations.EncodedFrameLaws : Prop :=
  ∀ (seq : Byte) (content : Bytes) (pad : Byte) (l : LargeCap) (b : BMode) (r : Encoded),
    (encodeFrame seq content (capOfMode l b) pad .crc = some r → crc16 (r.frame.drop 3) 0#16 = 0#16)
    ∧ (encodeFrame seq content (capOfMode l b) pad .checksum = some r →
        r.frame[3 + capOfMode l b]? = some (checksum (slice r.frame 3 (capOfMode l b)) 0#8))
    ∧ ∀ (imode : IMode) (pad' : Byte) (r' : Encoded),
        encodeFrame seq content (capOfMode l b) pad imode = some r →
        encodeFrame seq content (capOfMode l b) pad' imode = some r' →
          r'.frame.length = r.frame.length
          ∧ r'.frame.take (3 + (framingOfCap (capOfMode l b)).prefixLen + content.length)
            = r.frame.take (3 + (framingOfCap (capOfMode l b)).prefixLen + content.length)

/-! ### The packet decoder (44_packet_decode.md) -/

/-- R160: `decode`, check by check in the rule's order, written with the bytes the pseudocode indexes; and the
bytes after 3 + cap + T do not affect the result. -/
def Obligations.DecodeFollowsTheCheckOrder : Prop :=
  (∀ (l : LargeCap) (f : Bytes) (imode : IMode) (e : Byte),
      decodeFrame l f imode e =
        if f.length = 0 then ⟨.shortFrame, 0#16, []⟩
        else if f.getD 0 0#8 ≠ 0x01#8 ∧ f.getD 0 0#8 ≠ 0x02#8 then ⟨.badStart, 0#16, []⟩
        else
          let cap := if f.getD 0 0#8 = 0x01#8 then 128 else l.bytes
          let P := if f.getD 0 0#8 = 0x01#8 then 1 else 2
          let T := match imode with
            | .checksum => 1
            | .crc => 2
          if f.length < 3 then ⟨.sequenceMismatch, 0#16, []⟩
          else if f.getD 1 0#8 ≠ e ∨ f.getD 2 0#8 ≠ 255#8 - e then ⟨.sequenceMismatch, 0#16, []⟩
          else if f.length < 3 + cap + T then ⟨.shortFrame, 0#16, []⟩
          else
            let data := (f.drop 3).take cap
            let tv : Half := match imode with
              | .checksum => (checksum data 0#8).setWidth 16
              | .crc => crc16 data 0#16
            let good : Bool := match imode with
              | .checksum => f.getD (3 + cap) 0#8 == loByte tv
              | .crc => f.getD (3 + cap) 0#8 == hiByte tv && f.getD (4 + cap) 0#8 == loByte tv
            let D := if P = 1 then (data.getD 0 0#8).toNat
              else (data.getD 0 0#8).toNat * 256 + (data.getD 1 0#8).toNat
            if good then ⟨.ok, tv, (data.drop P).take (min D (cap - P))⟩ else ⟨.checksumMismatch, tv, []⟩)
    ∧ ∀ (l : LargeCap) (f extra : Bytes) (imode : IMode) (e : Byte) (fr : Framing),
        framingOfStart l (f.getD 0 0#8) = some fr → 3 + fr.cap + trailerLen imode ≤ f.length →
          decodeFrame l (f ++ extra) imode e = decodeFrame l f imode e

/-- R161: with a legal start byte, the sequence check passes exactly when `f[1] == e` and `f[2] == 255 - e`;
a consistent pair for another sequence, an inconsistent pair and a corrupted complement are each
SEQUENCE_MISMATCH. -/
def Obligations.SequenceCheckComparesBothBytes : Prop :=
  (∀ (l : LargeCap) (f : Bytes) (imode : IMode) (e : Byte), 3 ≤ f.length →
      f.getD 0 0#8 = 0x01#8 ∨ f.getD 0 0#8 = 0x02#8 →
      ((decodeFrame l f imode e).code ≠ .sequenceMismatch ↔ f.getD 1 0#8 = e ∧ f.getD 2 0#8 = 255#8 - e))
    ∧ ∀ (l : LargeCap) (start x y : Byte) (tail : Bytes) (imode : IMode) (e : Byte),
        start = 0x01#8 ∨ start = 0x02#8 →
          (x ≠ e ∧ y = 255#8 - x) ∨ x.toNat + y.toNat ≠ 255 ∨ (x = e ∧ y ≠ 255#8 - x) →
          decodeFrame l (start :: x :: y :: tail) imode e = ⟨.sequenceMismatch, 0#16, []⟩

/-- R162: the trailer check recomputes the integrity value over the data field with seed 0 and compares 1 byte
in checksum mode, 2 bytes big-endian in CRC mode; a mismatch is CHECKSUM_MISMATCH; the decoder neither reads nor
writes CRC_ACC or SUM_ACC. -/
def Obligations.TrailerCheckRecomputesTheValue : Prop :=
  (∀ (l : LargeCap) (start e : Byte) (data trailer : Bytes) (fr : Framing), framingOfStart l start = some fr →
    data.length = fr.cap →
      (∀ x, trailer = [x] →
        let r := decodeFrame l (start :: e :: (255#8 - e) :: data ++ trailer) .checksum e
        r.value = (checksum data 0#8).setWidth 16
          ∧ (x = checksum data 0#8 → r.code = .ok) ∧ (x ≠ checksum data 0#8 → r.code = .checksumMismatch))
      ∧ ∀ x y, trailer = [x, y] →
        let r := decodeFrame l (start :: e :: (255#8 - e) :: data ++ trailer) .crc e
        r.value = crc16 data 0#16
          ∧ ([x, y] = be16 (crc16 data 0#16) → r.code = .ok)
          ∧ ([x, y] ≠ be16 (crc16 data 0#16) → r.code = .checksumMismatch))
    ∧ ∀ (e : Byte) (c : Half) (v : Byte) (s : State),
        exec (.pktDec e) { s with crcAcc := c, sumAcc := v }
          = onNext (fun t => { t with crcAcc := c, sumAcc := v }) (exec (.pktDec e) s)

/-- R164: the declared length is the prefix, 1 byte for SOH and 2 bytes big-endian for STX; a good frame gives
the first min(D, cap - P) content bytes; D is never an error; SOH with D in 128..255 gives 127 bytes, STX with
D in cap - 1 .. 65535 gives cap - 2. -/
def Obligations.DeclaredLengthIsClamped : Prop :=
  (∀ (l : LargeCap) (e d : Byte) (rest : Bytes) (imode : IMode), rest.length = 127 →
      let data := d :: rest
      let r := decodeFrame l (0x01#8 :: e :: (255#8 - e) :: data ++ trailerBytes imode (integrityValue imode data)) imode e
      r.code = .ok ∧ r.content = rest.take (min d.toNat 127) ∧ (128 ≤ d.toNat → r.content.length = 127))
    ∧ ∀ (l : LargeCap) (e hi lo : Byte) (rest : Bytes) (imode : IMode), rest.length = l.bytes - 2 →
        let data := hi :: lo :: rest
        let D := hi.toNat * 256 + lo.toNat
        let r := decodeFrame l (0x02#8 :: e :: (255#8 - e) :: data ++ trailerBytes imode (integrityValue imode data)) imode e
        r.code = .ok ∧ r.content = rest.take (min D (l.bytes - 2))
          ∧ (l.bytes - 1 ≤ D → r.content.length = l.bytes - 2)

/-- What R165 and R166 infer from R160 (the spec marks them derived): the bytes after the content are not
checked, so two good frames of either format that agree in prefix and content both decode OK with that content,
whatever follows it; and a checksum-mode frame decoded in CRC mode is one byte short. -/
def Obligations.PadIsUncheckedAndModeUnmarked : Prop :=
  (∀ (l : LargeCap) (e d : Byte) (content tail tail' : Bytes) (imode : IMode), content.length = d.toNat →
      content.length + tail.length = 127 → tail'.length = tail.length →
      let data := d :: (content ++ tail)
      let data' := d :: (content ++ tail')
      let r := decodeFrame l (0x01#8 :: e :: (255#8 - e) :: data ++ trailerBytes imode (integrityValue imode data)) imode e
      let r' := decodeFrame l (0x01#8 :: e :: (255#8 - e) :: data' ++ trailerBytes imode (integrityValue imode data')) imode e
      r.code = .ok ∧ r.content = content ∧ r'.code = .ok ∧ r'.content = content)
    ∧ (∀ (l : LargeCap) (e hi lo : Byte) (content tail tail' : Bytes) (imode : IMode),
      content.length = hi.toNat * 256 + lo.toNat → content.length + tail.length = l.bytes - 2 →
      tail'.length = tail.length →
      let data := hi :: lo :: (content ++ tail)
      let data' := hi :: lo :: (content ++ tail')
      let r := decodeFrame l (0x02#8 :: e :: (255#8 - e) :: data ++ trailerBytes imode (integrityValue imode data)) imode e
      let r' := decodeFrame l (0x02#8 :: e :: (255#8 - e) :: data' ++ trailerBytes imode (integrityValue imode data')) imode e
      r.code = .ok ∧ r.content = content ∧ r'.code = .ok ∧ r'.content = content)
    ∧ ∀ (l : LargeCap) (b : BMode) (seq : Byte) (content : Bytes) (pad : Byte) (r : Encoded),
        encodeFrame seq content (capOfMode l b) pad .checksum = some r →
          decodeFrame l r.frame .crc seq = ⟨.shortFrame, 0#16, []⟩

/-- R163: PKT.DEC.  BAD_LENGTH is checked first; otherwise, with IBUF[0:IN_LEN] written, RESULT and STATUS.CODE
are those of R160's `decode` of these bytes; a good frame leaves its content in OBUF[0:OUT_LEN] and the later
bytes of OBUF as before; any other outcome leaves OUT_LEN 0 and OBUF unchanged, and RESULT 0 unless the code is
CHECKSUM_MISMATCH; nothing else changes; an unwritten byte that the pseudocode of R160 indexes faults (for the
last byte of each of its two compound conditions see PktDecReadsOnlyIndexedBytes); the command's word; BMODE and
PAD are not read. -/
def Obligations.PktDecDecodesTheInput : Prop :=
  (∀ (e : Byte) (s : State), s.params.ibufSize < s.inLen.toNat →
      exec (.pktDec e) s = .next { s with result := 0#16, outLen := 0#16, code := .badLength })
    ∧ (∀ (e : Byte) (s : State) (f : Bytes), s.ibuf.Canonical → s.inLen.toNat ≤ s.params.ibufSize → s.InputIs f →
      ∃ t, exec (.pktDec e) s = .next t
        ∧ t = { s with obuf := t.obuf, outLen := t.outLen, result := t.result, code := t.code }
        ∧ t.code = (decodeFrame s.params.largeCap f s.imode e).code
        ∧ t.result = (decodeFrame s.params.largeCap f s.imode e).value
        ∧ (t.code = .ok → t.OutputIs (decodeFrame s.params.largeCap f s.imode e).content
            ∧ ∀ j, t.outLen.toNat ≤ j → t.obuf.read j = s.obuf.read j)
        ∧ (t.code ≠ .ok → t.outLen = 0#16 ∧ t.obuf = s.obuf)
        ∧ (t.code ≠ .ok → t.code ≠ .checksumMismatch → t.result = 0#16))
    ∧ (∀ (e : Byte) (s : State) (i : Nat), s.ibuf.Canonical → s.inLen.toNat ≤ s.params.ibufSize →
      s.ibuf.read i = none →
      (i = 0 ∧ 0 < s.inLen.toNat)
        ∨ (∃ b fr, s.ibuf.read 0 = some b ∧ framingOfStart s.params.largeCap b = some fr
          ∧ ((i = 1 ∧ 3 ≤ s.inLen.toNat)
            ∨ (i = 2 ∧ 3 ≤ s.inLen.toNat ∧ s.ibuf.read 1 = some e)
            ∨ (3 ≤ i ∧ i ≤ 3 + fr.cap ∧ s.ibuf.read 1 = some e ∧ s.ibuf.read 2 = some (255#8 - e)
              ∧ 3 + fr.cap + trailerLen s.imode ≤ s.inLen.toNat))) →
      exec (.pktDec e) s = .fault .unwrittenInput)
    ∧ (∀ e : Byte, encode (.pktDec e) = 0x21000000#32 ||| e.setWidth 32)
    ∧ ∀ (e p : Byte) (b : BMode) (s : State),
        exec (.pktDec e) { s with bmode := b, pad := p }
          = onNext (fun t => { t with bmode := b, pad := p }) (exec (.pktDec e) s)

/-- R160's last paragraph with R163's fault: PKT.DEC reads exactly the bytes the pseudocode indexes.  It
completes when just those are written, and faults when one of them is not: byte 0 of a frame that has one;
bytes 1 and 2 once the start byte is legal and three bytes are there (both are read, log entry 6); the data
field and the trailer once the pair matches and the frame is long enough. -/
def Obligations.PktDecReadsOnlyIndexedBytes : Prop :=
  ∀ (e : Byte) (s : State), s.ibuf.Canonical → s.inLen.toNat ≤ s.params.ibufSize →
    (0 < s.inLen.toNat → s.ibuf.read 0 = none → exec (.pktDec e) s = .fault .unwrittenInput)
    ∧ (∀ b, 0 < s.inLen.toNat → s.ibuf.read 0 = some b → b ≠ 0x01#8 → b ≠ 0x02#8 →
        exec (.pktDec e) s = .next { s with result := 0#16, outLen := 0#16, code := .badStart })
    ∧ ∀ b fr, s.ibuf.read 0 = some b → framingOfStart s.params.largeCap b = some fr →
      (0 < s.inLen.toNat → s.inLen.toNat < 3 →
        exec (.pktDec e) s = .next { s with result := 0#16, outLen := 0#16, code := .sequenceMismatch })
      ∧ (3 ≤ s.inLen.toNat → s.ibuf.read 1 = none ∨ s.ibuf.read 2 = none →
        exec (.pktDec e) s = .fault .unwrittenInput)
      ∧ ∀ x y, 3 ≤ s.inLen.toNat → s.ibuf.read 1 = some x → s.ibuf.read 2 = some y →
        (¬ (x = e ∧ y = 255#8 - e) →
          exec (.pktDec e) s = .next { s with result := 0#16, outLen := 0#16, code := .sequenceMismatch })
        ∧ (x = e → y = 255#8 - e →
          (s.inLen.toNat < 3 + fr.cap + trailerLen s.imode →
            exec (.pktDec e) s = .next { s with result := 0#16, outLen := 0#16, code := .shortFrame })
          ∧ (3 + fr.cap + trailerLen s.imode ≤ s.inLen.toNat →
            (∀ i, 3 ≤ i → i < 3 + fr.cap + trailerLen s.imode → s.ibuf.read i = none →
              exec (.pktDec e) s = .fault .unwrittenInput)
            ∧ ∀ f : Bytes, f.length = 3 + fr.cap + trailerLen s.imode →
              (∀ i, (h : i < f.length) → s.ibuf.read i = some f[i]) →
                ∃ t, exec (.pktDec e) s = .next t
                  ∧ t.code = (decodeFrame s.params.largeCap f s.imode e).code
                  ∧ t.result = (decodeFrame s.params.largeCap f s.imode e).value))

/-- The round trip that R170 infers from R140 and R160 (the spec marks it derived): decoding a frame with its
own sequence number and mode gives OK, the encoder's trailer value and exactly the content. -/
def Obligations.DecodeOfEncodeIsTheContent : Prop :=
  ∀ (seq : Byte) (content : Bytes) (pad : Byte) (imode : IMode) (l : LargeCap) (b : BMode),
    content.length ≤ (match b with
      | .xmodem => 127
      | .xmodem1k => l.bytes - 2) →
    ∃ r, encodeFrame seq content (capOfMode l b) pad imode = some r
      ∧ decodeFrame l r.frame imode seq = ⟨.ok, r.trailer, content⟩

/-- Failure laws (a), (d) and (e) that R171 infers from R160 (the spec marks them derived): a frame decoded
with another expected sequence, a truncated frame, a frame with another start byte. -/
def Obligations.WrongSequenceTruncationAndStart : Prop :=
  ∀ (seq : Byte) (content : Bytes) (pad : Byte) (imode : IMode) (l : LargeCap) (b : BMode) (r : Encoded),
    encodeFrame seq content (capOfMode l b) pad imode = some r →
      (∀ e, e ≠ seq → decodeFrame l r.frame imode e = ⟨.sequenceMismatch, 0#16, []⟩)
      ∧ (∀ n, 3 ≤ n → n < r.frame.length → decodeFrame l (r.frame.take n) imode seq = ⟨.shortFrame, 0#16, []⟩)
      ∧ ∀ (x e : Byte), x ≠ 0x01#8 → x ≠ 0x02#8 →
          decodeFrame l (r.frame.set 0 x) imode e = ⟨.badStart, 0#16, []⟩

/-- Failure law (b) that R171 infers from R160 (the spec marks it derived): changing any single bit of the data
field or of the trailer of a CRC frame gives CHECKSUM_MISMATCH. -/
def Obligations.CrcDetectsEverySingleBitError : Prop :=
  ∀ (seq : Byte) (content : Bytes) (pad : Byte) (l : LargeCap) (b : BMode) (r : Encoded) (k j : Nat),
    encodeFrame seq content (capOfMode l b) pad .crc = some r →
    3 ≤ k → k < r.frame.length → j < 8 →
      (decodeFrame l (r.frame.set k (r.frame.getD k 0#8 ^^^ (1#8 <<< j))) .crc seq).code = .checksumMismatch

/-- Failure law (c) that R171 infers from R160 (the spec marks it derived): changing one byte of the data field
or the trailer of a checksum frame gives CHECKSUM_MISMATCH. -/
def Obligations.ChecksumDetectsEveryOneByteError : Prop :=
  ∀ (seq : Byte) (content : Bytes) (pad : Byte) (l : LargeCap) (b : BMode) (r : Encoded) (k : Nat) (x : Byte),
    encodeFrame seq content (capOfMode l b) pad .checksum = some r →
    3 ≤ k → k < r.frame.length → x ≠ r.frame.getD k 0#8 →
      (decodeFrame l (r.frame.set k x) .checksum seq).code = .checksumMismatch

/-- What R172 infers from R163 (the spec marks it derived): a decode that fails changes nothing a later decode
reads, so the next PKT.DEC does exactly what it would have done without it. -/
def Obligations.FailedDecodeLeavesTheNextAlone : Prop :=
  ∀ (e e' : Byte) (s t : State), exec (.pktDec e) s = .next t → t.code ≠ .ok →
    exec (.pktDec e') t = exec (.pktDec e') s

/-! ### Status codes and their order (60_exceptions.md) -/

/-- R194: a command that meets several failure conditions reports the first: the illegal word, then BAD_LENGTH,
then CONTENT_TOO_LONG for PKT.ENC, and for PKT.DEC an empty frame, the start byte, the pair, the length, the
trailer, in that order, whatever the later bytes hold. -/
def Obligations.FirstFailureIsReported : Prop :=
  (∀ (w : Word) (e : IllegalWord) (s : State), decode w = .error e →
      ∃ t, command w s = .next t ∧ t.code = .illegalCommand)
    ∧ (∀ (i : Instr) (s : State),
      i = .csumFeed ∨ i = .crcFeed ∨ (∃ q, i = .pktEnc q) ∨ (∃ q, i = .pktDec q) →
      s.params.ibufSize < s.inLen.toNat → ∃ t, exec i s = .next t ∧ t.code = .badLength)
    ∧ (∀ (q : Byte) (s : State), s.inLen.toNat ≤ s.params.ibufSize →
      (framingOfCap (capOfMode s.params.largeCap s.bmode)).contentCap < s.inLen.toNat →
      ∃ t, exec (.pktEnc q) s = .next t ∧ t.code = .contentTooLong)
    ∧ ∀ (l : LargeCap) (m : IMode) (e : Byte),
        (decodeFrame l [] m e).code = .shortFrame
        ∧ (∀ x tail, x ≠ 0x01#8 → x ≠ 0x02#8 → (decodeFrame l (x :: tail) m e).code = .badStart)
        ∧ ∀ x fr, framingOfStart l x = some fr →
          (decodeFrame l [x] m e).code = .sequenceMismatch
          ∧ (∀ y, (decodeFrame l [x, y] m e).code = .sequenceMismatch)
          ∧ (∀ y z tail, ¬ (y = e ∧ z = 255#8 - e) →
              (decodeFrame l (x :: y :: z :: tail) m e).code = .sequenceMismatch)
          ∧ (∀ tail : Bytes, tail.length < fr.cap + trailerLen m →
              (decodeFrame l (x :: e :: (255#8 - e) :: tail) m e).code = .shortFrame)
          ∧ ∀ tail : Bytes, fr.cap + trailerLen m ≤ tail.length →
              (tail.drop fr.cap).take (trailerLen m) ≠ trailerBytes m (integrityValue m (tail.take fr.cap)) →
                (decodeFrame l (x :: e :: (255#8 - e) :: tail) m e).code = .checksumMismatch

/-! ### Registers (10_state.md) -/

/-- R30: CMD reads as 0 with no side effect, and a host write of it executes the command it encodes: the word's
OP is bits 31:24, RSV bits 23:16 and IMM bits 15:0, and RSV not 0 is illegal. -/
def Obligations.CmdRegister : Prop :=
  (∀ s : State, s.ReadsAs .cmd 0#32)
    ∧ (∀ (s : State) (w : Word) (rest : List HostEvent),
      step { s with pending := .w32 (regAddr s.params .cmd) w :: rest } = command w { s with pending := rest })
    ∧ (∀ w : Word, w = opField w ++ rsvField w ++ immField w)
    ∧ ∀ (w : Word) (s : State), rsvField w ≠ 0#8 → command w s = .next { s with code := .illegalCommand }

/-- R31 with the codes of R190: STATUS reads as CODE in bits 3:0 and 0 above, CODE being 0 to 7 by the table;
every command, legal or not, overwrites it; its reset value is 0; no host write of it is admitted. -/
def Obligations.StatusRegister : Prop :=
  (∀ s : State, ∃ v : Word, s.ReadsAs .status v ∧ v.extractLsb' 0 4 = s.code.bits ∧ v.extractLsb' 4 28 = 0#28
      ∧ v.toNat ≤ 7)
    ∧ (StatusCode.ok.bits = 0#4 ∧ StatusCode.checksumMismatch.bits = 1#4 ∧ StatusCode.sequenceMismatch.bits = 2#4
      ∧ StatusCode.badStart.bits = 3#4 ∧ StatusCode.shortFrame.bits = 4#4 ∧ StatusCode.contentTooLong.bits = 5#4
      ∧ StatusCode.badLength.bits = 6#4 ∧ StatusCode.illegalCommand.bits = 7#4)
    ∧ (∀ (w : Word) (c : StatusCode) (s t : State), command w s = .next t →
      command w { s with code := c } = .next t)
    ∧ (∀ p : Params, (State.resetWith p).ReadsAs .status 0#32)
    ∧ ∀ s : State, s.RejectsWrites .status

/-- R32: RESULT reads as VALUE in bits 15:0; the checksum and CRC commands write their new accumulator, PKT.ENC
its frame's trailer value or 0 on failure, PKT.DEC the recomputed value or 0; CFG commands, illegal words and a
FEED that fails with BAD_LENGTH leave it; reset gives 0; no host write of it is admitted. -/
def Obligations.ResultRegister : Prop :=
  (∀ s : State, s.ReadsAs .result (s.result.setWidth 32) ∧ s.RejectsWrites .result)
    ∧ (∀ p : Params, (State.resetWith p).result = 0#16)
    ∧ (∀ (i : Instr) (s t : State), (∃ b, i = .csumSeed b) ∨ i = .csumFeed → exec i s = .next t →
      (t.code = .ok ∧ t.result = t.sumAcc.setWidth 16) ∨ (t.code = .badLength ∧ t.result = s.result))
    ∧ (∀ (i : Instr) (s t : State), (∃ h, i = .crcSeed h) ∨ i = .crcFeed → exec i s = .next t →
      (t.code = .ok ∧ t.result = t.crcAcc) ∨ (t.code = .badLength ∧ t.result = s.result))
    ∧ (∀ (q : Byte) (s t : State), exec (.pktEnc q) s = .next t →
      (t.code ≠ .ok ∧ t.result = 0#16)
        ∨ (t.code = .ok ∧ ∃ content r, s.input = some content
          ∧ encodeFrame q content (capOfMode s.params.largeCap s.bmode) s.pad s.imode = some r
          ∧ t.result = r.trailer))
    ∧ (∀ (e : Byte) (s t : State) (f : Bytes), s.ibuf.Canonical → s.InputIs f → exec (.pktDec e) s = .next t →
      (t.code = .badLength ∧ t.result = 0#16) ∨ t.result = (decodeFrame s.params.largeCap f s.imode e).value)
    ∧ ∀ (w : Word) (s t : State),
        (∃ e, decode w = .error e) ∨ (∃ b, decode w = .ok (.cfgPad b)) ∨ (∃ m, decode w = .ok (.cfgImode m))
          ∨ (∃ m, decode w = .ok (.cfgBmode m)) →
        command w s = .next t → t.result = s.result

/-- R33: CRC_ACC reads as the accumulator in bits 15:0; a step changes it only where the host writes CRC.SEED
or CRC.FEED to CMD, or asserts reset; PKT.ENC and PKT.DEC do not read it; reset gives 0; no host write of it is
admitted. -/
def Obligations.CrcAccRegister : Prop :=
  (∀ s : State, s.ReadsAs .crcAcc (s.crcAcc.setWidth 32) ∧ s.RejectsWrites .crcAcc)
    ∧ (∀ p : Params, (State.resetWith p).crcAcc = 0x0000#16)
    ∧ (∀ (i : Instr) (c : Half) (s : State), (∃ q, i = .pktEnc q ∨ i = .pktDec q) →
        exec i { s with crcAcc := c } = onNext (fun t => { t with crcAcc := c }) (exec i s))
    ∧ ∀ s t : State, step s = .next t → ¬ s.resetNext → (∀ h, s.nextCommand ≠ some (.crcSeed h)) →
        s.nextCommand ≠ some .crcFeed → t.crcAcc = s.crcAcc

/-- R34: SUM_ACC reads as the accumulator in bits 7:0; a step changes it only where the host writes CSUM.SEED
or CSUM.FEED to CMD, or asserts reset; PKT.ENC and PKT.DEC do not read it; reset gives 0; no host write of it is
admitted. -/
def Obligations.SumAccRegister : Prop :=
  (∀ s : State, s.ReadsAs .sumAcc (s.sumAcc.setWidth 32) ∧ s.RejectsWrites .sumAcc)
    ∧ (∀ p : Params, (State.resetWith p).sumAcc = 0x00#8)
    ∧ (∀ (i : Instr) (v : Byte) (s : State), (∃ q, i = .pktEnc q ∨ i = .pktDec q) →
        exec i { s with sumAcc := v } = onNext (fun t => { t with sumAcc := v }) (exec i s))
    ∧ ∀ s t : State, step s = .next t → ¬ s.resetNext → (∀ b, s.nextCommand ≠ some (.csumSeed b)) →
        s.nextCommand ≠ some .csumFeed → t.sumAcc = s.sumAcc

/-- R35: CFG reads as IMODE in bit 0, BMODE in bit 1, PAD in bits 15:8 and 0 elsewhere; each field changes only
by its own CFG command or by reset; reset gives 0x00001A01; no host write of it is admitted. -/
def Obligations.CfgRegister : Prop :=
  (∀ s : State, ∃ v : Word, s.ReadsAs .cfg v
      ∧ v.getLsbD 0 = (s.imode == .crc) ∧ v.getLsbD 1 = (s.bmode == .xmodem1k)
      ∧ v.extractLsb' 2 6 = 0#6 ∧ v.extractLsb' 8 8 = s.pad ∧ v.extractLsb' 16 16 = 0#16)
    ∧ (∀ p : Params, (State.resetWith p).ReadsAs .cfg 0x00001A01#32)
    ∧ (∀ s : State, s.RejectsWrites .cfg)
    ∧ ∀ s t : State, step s = .next t → ¬ s.resetNext →
        ((∀ b, s.nextCommand ≠ some (.cfgPad b)) → t.pad = s.pad)
        ∧ ((∀ m, s.nextCommand ≠ some (.cfgImode m)) → t.imode = s.imode)
        ∧ ((∀ m, s.nextCommand ≠ some (.cfgBmode m)) → t.bmode = s.bmode)

/-- R36: IN_LEN reads as LEN in bits 15:0; a host write stores value[15:0], any LEN from 0 to 65535, where
value[31:16] is 0, and is not admitted where it is not; a command that finds LEN > IBUF_SIZE fails with
BAD_LENGTH; no command writes IN_LEN; reset gives 0. -/
def Obligations.InLenRegister : Prop :=
  (∀ s : State, s.ReadsAs .inLen (s.inLen.setWidth 32))
    ∧ (∀ (s : State) (n : Half) (rest : List HostEvent),
      step { s with pending := .w32 (regAddr s.params .inLen) (n.setWidth 32) :: rest }
        = .next { s with pending := rest, inLen := n })
    ∧ (∀ (s : State) (v : Word) (rest : List HostEvent), 0x10000 ≤ v.toNat →
      step { s with pending := .w32 (regAddr s.params .inLen) v :: rest } = .fault .zeroBitsSet)
    ∧ (∀ (i : Instr) (s : State),
      i = .csumFeed ∨ i = .crcFeed ∨ (∃ q, i = .pktEnc q) ∨ (∃ q, i = .pktDec q) →
      s.params.ibufSize < s.inLen.toNat → ∃ t, exec i s = .next t ∧ t.code = .badLength)
    ∧ (∀ (w : Word) (s t : State), command w s = .next t → t.inLen = s.inLen)
    ∧ ∀ p : Params, (State.resetWith p).inLen = 0x0000#16

/-- R37: OUT_LEN reads as LEN in bits 15:0; a step changes it only where the host writes PKT.ENC or PKT.DEC to
CMD, or asserts reset; on success those set it to the frame length or the content length, on failure to 0, and
OBUF[0:LEN] is written; reset gives 0; no host write of it is admitted. -/
def Obligations.OutLenRegister : Prop :=
  (∀ s : State, s.ReadsAs .outLen (s.outLen.setWidth 32) ∧ s.RejectsWrites .outLen)
    ∧ (∀ p : Params, (State.resetWith p).outLen = 0x0000#16)
    ∧ (∀ s t : State, step s = .next t → ¬ s.resetNext → (∀ q, s.nextCommand ≠ some (.pktEnc q)) →
      (∀ q, s.nextCommand ≠ some (.pktDec q)) → t.outLen = s.outLen)
    ∧ (∀ (q : Byte) (s t : State), exec (.pktEnc q) s = .next t → t.code = .ok →
        t.outLen.toNat = 3 + capOfMode s.params.largeCap s.bmode + trailerLen s.imode)
    ∧ (∀ (e : Byte) (s t : State) (f : Bytes), s.ibuf.Canonical → s.InputIs f → exec (.pktDec e) s = .next t →
        t.code = .ok → t.outLen.toNat = (decodeFrame s.params.largeCap f s.imode e).content.length)
    ∧ ∀ (q : Byte) (s t : State) (i : Instr), s.Inv → i = .pktEnc q ∨ i = .pktDec q → exec i s = .next t →
        (t.code ≠ .ok → t.outLen = 0#16) ∧ ∀ j < t.outLen.toNat, ∃ b, t.obuf.read j = some b

/-- R38: PARAM_CAP, PARAM_IBUF and PARAM_OBUF read as LARGE_CAP, IBUF_SIZE and OBUF_SIZE; no step changes the
parameters; no host write of them is admitted. -/
def Obligations.ParameterRegisters : Prop :=
  (∀ s : State, s.params.Admitted → ∃ a b c : Word,
      s.ReadsAs .paramCap a ∧ a.toNat = s.params.largeCap.bytes
        ∧ s.ReadsAs .paramIbuf b ∧ b.toNat = s.params.ibufSize
        ∧ s.ReadsAs .paramObuf c ∧ c.toNat = s.params.obufSize)
    ∧ (∀ p : Params, (State.resetWith p).params = p)
    ∧ (∀ s t : State, step s = .next t → t.params = s.params)
    ∧ ∀ s : State, s.RejectsWrites .paramCap ∧ s.RejectsWrites .paramIbuf ∧ s.RejectsWrites .paramObuf

/-! ### Buffers and accesses (20_memory.md) -/

/-- R51, R52: the host writes and reads IBUF one byte at a time, reads OBUF one byte at a time and never writes
it; commands read of IBUF only IBUF[0:IN_LEN] and write none of it; only PKT.ENC and PKT.DEC change OBUF, and
only OBUF[0:n] for the n they leave in OUT_LEN.  A host read of a byte not written since reset faults: for OBUF
by R43, for IBUF by log entry 7, the model's reading of R43. -/
def Obligations.BufferBytes : Prop :=
  (∀ (s : State) (i : Nat) (b : Byte) (rest : List HostEvent), s.params.Admitted → i < s.params.ibufSize →
      ∃ t, step { s with pending := .w8 (ibufAddr s.params i) b :: rest } = .next t
        ∧ t = { s with pending := rest, ibuf := t.ibuf }
        ∧ t.ibuf.read i = some b ∧ ∀ j, j ≠ i → t.ibuf.read j = s.ibuf.read j)
    ∧ (∀ (s : State) (i : Nat) (rest : List HostEvent), s.params.Admitted → i < s.params.ibufSize →
      (∀ b, s.ibuf.read i = some b → step { s with pending := .r8 (ibufAddr s.params i) :: rest }
          = .next { s with pending := rest, reads := .byte b :: s.reads })
        ∧ (s.ibuf.read i = none →
          step { s with pending := .r8 (ibufAddr s.params i) :: rest } = .fault .unwrittenInput))
    ∧ (∀ (s : State) (i : Nat) (rest : List HostEvent), s.params.Admitted → i < s.params.obufSize →
      (∀ b, s.obuf.read i = some b → step { s with pending := .r8 (obufAddr s.params i) :: rest }
          = .next { s with pending := rest, reads := .byte b :: s.reads })
        ∧ (s.obuf.read i = none →
          step { s with pending := .r8 (obufAddr s.params i) :: rest } = .fault .unwrittenOutput)
        ∧ ∀ b, step { s with pending := .w8 (obufAddr s.params i) b :: rest } = .fault .outputBufferWrite)
    ∧ (∀ (i : Instr) (m : Memory) (s : State), s.ibuf.Canonical → m.Canonical →
      (∀ j < s.inLen.toNat, m.read j = s.ibuf.read j) →
      exec i { s with ibuf := m } = onNext (fun t => { t with ibuf := m }) (exec i s))
    ∧ ∀ s t : State, step s = .next t → ¬ s.resetNext →
        ((∀ q, s.nextCommand ≠ some (.pktEnc q)) → (∀ q, s.nextCommand ≠ some (.pktDec q)) → t.obuf = s.obuf)
        ∧ ∀ q, s.nextCommand = some (.pktEnc q) ∨ s.nextCommand = some (.pktDec q) →
            ∀ j, t.outLen.toNat ≤ j → t.obuf.read j = s.obuf.read j

/-- R39, R54, R56: the admitted accesses are exactly these: 32-bit at a register's address, 8-bit at a byte of
a buffer within its size, and of these no write of a read-only register, of OBUF, or of a bit shown as 0 in
IN_LEN.  Each of them is a step: a register read returns a word, a write of CMD executes its word (a legal one is
that command, any other is ILLEGAL_COMMAND), IN_LEN and a byte of IBUF take the value written, and a buffer byte
that has been written is returned.  Every other access faults.  (That an access outside the window faults is log
entry 10, and which name a fault carries is log entry 9: the model's choices.) -/
def Obligations.OtherAccessesAreNotAdmitted : Prop :=
  (∀ (s : State) (addr bits : Nat) (w : Bool), ∃ f, perform (.otherWidth addr bits w) s = .fault f)
    ∧ (∀ (s : State) (addr : Nat), (∀ r, addr ≠ regAddr s.params r) →
      (∃ f, perform (.r32 addr) s = .fault f) ∧ ∀ v, ∃ f, perform (.w32 addr v) s = .fault f)
    ∧ (∀ (s : State) (off : Nat), off < 0x4000 → off % 4 ≠ 0 →
      perform (.r32 (s.params.base + off)) s = .fault .misaligned
        ∧ ∀ v, perform (.w32 (s.params.base + off) v) s = .fault .misaligned)
    ∧ (∀ (s : State) (off : Nat), 0x2C ≤ off → off < 0x4000 → off % 4 = 0 →
      perform (.r32 (s.params.base + off)) s = .fault .reservedOffset
        ∧ ∀ v, perform (.w32 (s.params.base + off) v) s = .fault .reservedOffset)
    ∧ (∀ (s : State) (addr : Nat), (∀ i < s.params.ibufSize, addr ≠ ibufAddr s.params i) →
      (∃ f, ∀ b, perform (.w8 addr b) s = .fault f)
        ∧ ((∀ i < s.params.obufSize, addr ≠ obufAddr s.params i) → ∃ f, perform (.r8 addr) s = .fault f))
    ∧ (∀ (s : State) (r : Reg), r ≠ .cmd → r ≠ .inLen → s.RejectsWrites r)
    ∧ (∀ (s : State) (v : Word), 0x10000 ≤ v.toNat →
      perform (.w32 (regAddr s.params .inLen) v) s = .fault .zeroBitsSet)
    ∧ (∀ (s : State) (w : Word) (e : IllegalWord), decode w = .error e →
      perform (.w32 (regAddr s.params .cmd) w) s = .next { s with code := .illegalCommand })
    ∧ (∀ (s : State) (w : Word) (i : Instr), decode w = .ok i →
      perform (.w32 (regAddr s.params .cmd) w) s = exec i s)
    ∧ (∀ (s : State) (r : Reg), ∃ v : Word,
      perform (.r32 (regAddr s.params r)) s = .next { s with reads := .word v :: s.reads })
    ∧ (∀ (s : State) (v : Word), v.toNat < 0x10000 →
      perform (.w32 (regAddr s.params .inLen) v) s = .next { s with inLen := BitVec.ofNat 16 v.toNat })
    ∧ (∀ (s : State) (i : Nat), s.params.Admitted → i < s.params.ibufSize →
      (∀ b, ∃ t, perform (.w8 (ibufAddr s.params i) b) s = .next t ∧ t = { s with ibuf := t.ibuf }
          ∧ t.ibuf.read i = some b)
        ∧ ∀ b, s.ibuf.read i = some b →
          perform (.r8 (ibufAddr s.params i)) s = .next { s with reads := .byte b :: s.reads })
    ∧ ∀ (s : State) (i : Nat) (b : Byte), s.params.Admitted → i < s.params.obufSize → s.obuf.read i = some b →
        perform (.r8 (obufAddr s.params i)) s = .next { s with reads := .byte b :: s.reads }

/-- R57: a host read changes nothing but the host's own list of values, and repeated it returns the same value;
a repeated host write of IBUF or IN_LEN changes nothing further; writing CSUM.FEED or CRC.FEED twice processes
IBUF twice.  (The host's list of values is log entry 4, the model's choice.) -/
def Obligations.ReadsHaveNoSideEffect : Prop :=
  (∀ (e : HostEvent) (s t : State), (∃ a, e = .r32 a) ∨ (∃ a, e = .r8 a) → perform e s = .next t →
      ∃ v, t = { s with reads := v :: s.reads } ∧ perform e t = .next { s with reads := v :: v :: s.reads })
    ∧ (∀ (a : Nat) (b : Byte) (s t : State), perform (.w8 a b) s = .next t → perform (.w8 a b) t = .next t)
    ∧ (∀ (v : Word) (s t : State), perform (.w32 (regAddr s.params .inLen) v) s = .next t →
      perform (.w32 (regAddr t.params .inLen) v) t = .next t)
    ∧ ∀ (s : State) (data : Bytes), s.ibuf.Canonical → s.inLen.toNat ≤ s.params.ibufSize → s.InputIs data →
        (∃ t u, exec .csumFeed s = .next t ∧ exec .csumFeed t = .next u
          ∧ u.sumAcc = checksum (data ++ data) s.sumAcc)
        ∧ ∃ t u, exec .crcFeed s = .next t ∧ exec .crcFeed t = .next u ∧ u.crcAcc = crc16 (data ++ data) s.crcAcc

/-- R55: the engine reads and writes its buffers one byte at a time, in index order: the one-pass range store
and range read of the model are what single-byte accesses in index order give. -/
def Obligations.RangeAccessIsBytewise : Prop :=
  (∀ (m : Memory) (a : Nat) (bs : Bytes), m.Canonical →
      m.writeRange a bs = (bs.zipIdx a).foldl (fun m p => m.write p.2 p.1) m)
    ∧ ∀ (m : Memory) (a n : Nat), m.Canonical →
        m.readRange a n = ((List.range n).map (fun i => m.read (a + i))).mapM id

/-! ### Reset and invariants -/

/-- R210, R211, R44: asserting reset, in any state, gives every register its reset value, leaves every byte of
both buffers unwritten, and keeps the parameters.  (The host's own events and values stay: log entry 5, the
model's choice.) -/
def Obligations.ResetValues : Prop :=
  ∀ (s : State) (rest : List HostEvent),
    ∃ t, step { s with pending := .assertReset :: rest } = .next t
      ∧ t.pending = rest ∧ t.reads = s.reads ∧ t.params = s.params
      ∧ t.crcAcc = 0x0000#16 ∧ t.sumAcc = 0x00#8 ∧ t.pad = 0x1A#8 ∧ t.imode = .crc ∧ t.bmode = .xmodem
      ∧ readReg .cfg t = 0x00001A01#32 ∧ readReg .status t = 0x00000000#32 ∧ readReg .result t = 0x00000000#32
      ∧ t.inLen = 0x0000#16 ∧ t.outLen = 0x0000#16
      ∧ ∀ i, t.ibuf.read i = none ∧ t.obuf.read i = none

/-- The invariant holds right after reset, for every admitted choice of the parameters. -/
def Obligations.ResetMeetsTheInvariant : Prop :=
  State.reset.Inv ∧ ∀ p : Params, p.Admitted → (State.resetWith p).Inv

/-- Every step, from every state that meets the invariant, leaves a state that meets it: the parameters stay
admitted, both buffers stay canonical and within their sizes, and OBUF[0:OUT_LEN] is written. -/
def Obligations.StepKeepsTheInvariant : Prop :=
  ∀ s t : State, s.Inv → step s = .next t → t.Inv

/-! ### Host sequences -/

/-- R81: what the pseudo-instructions do.  PUT loads a byte string into IBUF and its length into IN_LEN;
CSUM.CALC and CRC.CALC leave the checksum and the CRC of the input from the given seed; COPYBACK moves
OBUF[0:OUT_LEN] to IBUF and OUT_LEN to IN_LEN, its reads returning OUT_LEN and then the bytes (in the host's list
of values, log entry 4, the model's choice). -/
def Obligations.PseudoInstructions : Prop :=
  (∀ (s : State) (bs : Bytes), s.params.Admitted → bs.length ≤ s.params.ibufSize →
      ∃ t, run (put s.params bs).length (s.enqueue (put s.params bs)) = .next t
        ∧ t = { s with ibuf := t.ibuf, inLen := BitVec.ofNat 16 bs.length }
        ∧ t.InputIs bs ∧ ∀ j, bs.length ≤ j → t.ibuf.read j = s.ibuf.read j)
    ∧ (∀ (s : State) (data : Bytes) (b : Byte), s.ibuf.Canonical → s.inLen.toNat ≤ s.params.ibufSize →
      s.InputIs data →
      run (csumCalc s.params b).length (s.enqueue (csumCalc s.params b))
        = .next { s with sumAcc := checksum data b, result := (checksum data b).setWidth 16, code := .ok })
    ∧ (∀ (s : State) (data : Bytes) (h : Half), s.ibuf.Canonical → s.inLen.toNat ≤ s.params.ibufSize →
      s.InputIs data →
      run (crcCalc s.params h).length (s.enqueue (crcCalc s.params h))
        = .next { s with crcAcc := crc16 data h, result := crc16 data h, code := .ok })
    ∧ ∀ (s : State) (bs : Bytes), s.Inv → s.outLen.toNat ≤ s.params.ibufSize → s.OutputIs bs →
        s.output = some bs
          ∧ ∃ t, run (copyback s.params bs).length (s.enqueue (copyback s.params bs)) = .next t
            ∧ t = { s with
                ibuf := t.ibuf
                inLen := s.outLen
                reads := (bs.map ReadValue.byte).reverse ++ .word (s.outLen.setWidth 32) :: s.reads }
            ∧ t.InputIs bs

/-- The codec's round trip through the engine (the source's property, with R142, R163 and COPYBACK of R81):
PKT.ENC of any content that fits, COPYBACK, then PKT.DEC with the same sequence number, gives STATUS.CODE OK,
the same RESULT and OBUF[0:OUT_LEN] exactly the content. -/
def Obligations.EncodeCopybackDecodeGivesTheContent : Prop :=
  ∀ (s t : State) (seq : Byte) (content : Bytes), s.Inv → s.InputIs content →
    exec (.pktEnc seq) s = .next t → t.code = .ok →
      ∃ frame u v, t.OutputIs frame
        ∧ run (copyback t.params frame).length (t.enqueue (copyback t.params frame)) = .next u
        ∧ exec (.pktDec seq) u = .next v
        ∧ v.code = .ok ∧ v.result = t.result ∧ v.OutputIs content
end

