-- ==== Sys2Proof/Laws/Decode.lean ====
section
/-! SUPPORT. Fields of a command word, and what the decoder's forms accept. -/

namespace Sys2Proof

@[simp] theorem opField_cmdWord (op : Byte) (imm : Half) : opField (cmdWord op imm) = op := by
  apply BitVec.eq_of_getLsbD_eq
  intro i hi
  simp only [opField, cmdWord, BitVec.getLsbD_extractLsb', BitVec.getLsbD_append]
  have h1 : ¬ (24 + i < 16) := by omega
  have h2 : ¬ (24 + i - 16 < 8) := by omega
  have h3 : 24 + i - 16 - 8 = i := by omega
  simp [hi, h1, h2, h3]

@[simp] theorem rsvField_cmdWord (op : Byte) (imm : Half) : rsvField (cmdWord op imm) = 0#8 := by
  apply BitVec.eq_of_getLsbD_eq
  intro i hi
  simp only [rsvField, cmdWord, BitVec.getLsbD_extractLsb', BitVec.getLsbD_append]
  have h1 : ¬ (16 + i < 16) := by omega
  have h2 : 16 + i - 16 < 8 := by omega
  simp only [h1, h2, if_true, if_false, hi, decide_true, Bool.true_and]
  simp

@[simp] theorem immField_cmdWord (op : Byte) (imm : Half) : immField (cmdWord op imm) = imm := by
  apply BitVec.eq_of_getLsbD_eq
  intro i hi
  simp only [immField, cmdWord, BitVec.getLsbD_extractLsb', BitVec.getLsbD_append, Nat.zero_add, hi, decide_true,
    Bool.true_and, if_true]

/-- A word is its three fields. -/
theorem word_eq_fields (w : Word) : opField w ++ rsvField w ++ immField w = w := by
  apply BitVec.eq_of_getLsbD_eq
  intro i hi
  simp only [opField, rsvField, immField, BitVec.getLsbD_extractLsb', BitVec.getLsbD_append]
  by_cases h1 : i < 16
  · simp [h1]
  · by_cases h2 : i - 16 < 8
    · have h3 : 16 + (i - 16) = i := by omega
      simp [h1, h2, h3]
    · have h3 : 24 + (i - 16 - 8) = i := by omega
      have h4 : i - 16 - 8 < 8 := by omega
      simp [h1, h2, h3, h4]

@[simp] theorem hiByte_zext16 (b : Byte) : hiByte (zext16 b) = 0#8 := by
  apply BitVec.eq_of_getLsbD_eq
  intro i hi
  simp [hiByte, zext16]

@[simp] theorem loByte_zext16 (b : Byte) : loByte (zext16 b) = b := by
  apply BitVec.eq_of_getLsbD_eq
  intro i hi
  simp [loByte, zext16, hi]
  intro _; omega

/-- A 16-bit value is its two bytes. -/
theorem hiByte_append_loByte (v : Half) : hiByte v ++ loByte v = v := by
  apply BitVec.eq_of_getLsbD_eq
  intro i hi
  simp only [hiByte, loByte, BitVec.getLsbD_extractLsb', BitVec.getLsbD_append]
  by_cases h1 : i < 8
  · simp [h1]
  · have h2 : 8 + (i - 8) = i := by omega
    have h3 : i - 8 < 8 := by omega
    simp [h1, h2, h3]

theorem hiByte_append (hi lo : Byte) : hiByte (hi ++ lo : Half) = hi := by
  apply BitVec.eq_of_getLsbD_eq
  intro i h
  have h1 : ¬ (8 + i < 8) := by omega
  have h2 : 8 + i - 8 = i := by omega
  simp only [hiByte, BitVec.getLsbD_extractLsb', BitVec.getLsbD_append, h, h1, h2, decide_true, Bool.true_and, if_false]

theorem loByte_append (hi lo : Byte) : loByte (hi ++ lo : Half) = lo := by
  apply BitVec.eq_of_getLsbD_eq
  intro i h
  simp only [loByte, BitVec.getLsbD_extractLsb', BitVec.getLsbD_append, Nat.zero_add, h, decide_true, Bool.true_and,
    if_true]

end Sys2Proof
end

