-- ==== Sys2Proof/Laws/Memory.lean ====
section
/-! SUPPORT. Laws of the buffers: what a read gives after a store, and that every store keeps the canonical
form and the buffer's bound. -/

namespace Sys2Proof.Machine

open Sys2Proof

/-! ### Reading lists of cells -/

@[simp] theorem Memory.read_nil (a : Nat) : Memory.read [] a = none := rfl

theorem Memory.read_cons (k : Nat) (b : Byte) (m : Memory) (a : Nat) :
    Memory.read ((k, b) :: m) a = if k = a then some b else Memory.read m a := rfl

theorem Memory.read_append (m₁ m₂ : Memory) (a : Nat) :
    Memory.read (m₁ ++ m₂) a = (Memory.read m₁ a).or (Memory.read m₂ a) := by
  induction m₁ with
  | nil => simp
  | cons c m ih =>
    obtain ⟨k, b⟩ := c
    by_cases hk : k = a <;> simp [Memory.read_cons, hk, ih]

/-- Keeping the cells whose index satisfies `p` keeps exactly the reads at those indexes. -/
theorem Memory.read_filter (p : Nat → Bool) (m : Memory) (a : Nat) :
    Memory.read (m.filter (fun c => p c.1)) a = if p a then Memory.read m a else none := by
  induction m with
  | nil => simp
  | cons c m ih =>
    obtain ⟨k, b⟩ := c
    by_cases hp : p k <;> by_cases hk : k = a
    · subst hk; simp [Memory.read_cons, hp]
    · simp [Memory.read_cons, hp, hk, ih]
    · subst hk; simp [hp, ih]
    · simp [Memory.read_cons, hp, hk, ih]

/-- A byte that a read gives stands in the list. -/
theorem Memory.mem_of_read {m : Memory} {a : Nat} {b : Byte} (h : m.read a = some b) : (a, b) ∈ m := by
  induction m with
  | nil => simp at h
  | cons c m ih =>
    obtain ⟨k, v⟩ := c
    rw [Memory.read_cons] at h
    split at h
    · simp_all
    · exact List.mem_cons_of_mem _ (ih h)

theorem Memory.read_eq_none {m : Memory} {a : Nat} (h : ∀ c ∈ m, a ≠ c.1) : m.read a = none := by
  cases hr : m.read a with
  | none => rfl
  | some b => exact absurd rfl (h _ (Memory.mem_of_read hr))

theorem Memory.read_of_mem {m : Memory} (hc : m.Canonical) {a : Nat} {b : Byte} (h : (a, b) ∈ m) :
    m.read a = some b := by
  induction m with
  | nil => simp at h
  | cons c m ih =>
    obtain ⟨k, v⟩ := c
    rw [Memory.read_cons]
    rcases List.mem_cons.mp h with h | h
    · simp_all
    · have hk := (List.pairwise_cons.mp hc).1 _ h
      rw [if_neg (by simp at hk; omega)]
      exact ih (List.pairwise_cons.mp hc).2 h

/-- Equal reads make equal memories: the canonical form is unique. -/
theorem Memory.ext_read {m₁ m₂ : Memory} (h₁ : m₁.Canonical) (h₂ : m₂.Canonical)
    (h : ∀ a, m₁.read a = m₂.read a) : m₁ = m₂ := by
  have mem : ∀ c, c ∈ m₁ ↔ c ∈ m₂ := by
    rintro ⟨a, b⟩
    exact ⟨fun hm => Memory.mem_of_read (h a ▸ Memory.read_of_mem h₁ hm),
      fun hm => Memory.mem_of_read ((h a).symm ▸ Memory.read_of_mem h₂ hm)⟩
  have nodup : ∀ {m : Memory}, m.Canonical → m.Nodup := fun hm =>
    hm.imp (fun hlt heq => by simp [heq] at hlt)
  have hp := (List.perm_ext_iff_of_nodup (nodup h₁) (nodup h₂)).mpr mem
  exact hp.eq_of_pairwise (fun a b _ _ hab hba => absurd hab (by omega)) h₁ h₂

/-! ### One byte stored -/

@[simp] theorem Memory.read_write_same (m : Memory) (a : Nat) (b : Byte) : (m.write a b).read a = some b := by
  induction m with
  | nil => simp [Memory.write, Memory.read]
  | cons c m ih =>
    obtain ⟨k, v⟩ := c
    simp only [Memory.write]
    split
    · simp [Memory.read]
    · split
      · simp [Memory.read]
      · rw [Memory.read_cons, if_neg (by omega), ih]

theorem Memory.read_write_other (m : Memory) {a i : Nat} (b : Byte) (h : i ≠ a) :
    (m.write a b).read i = m.read i := by
  induction m with
  | nil => simp [Memory.write, Memory.read, Ne.symm h]
  | cons c m ih =>
    obtain ⟨k, v⟩ := c
    simp only [Memory.write]
    split
    · rw [Memory.read_cons, if_neg (Ne.symm h)]
    · split
      · next hk => subst hk; simp [Memory.read_cons, Ne.symm h]
      · simp [Memory.read_cons, ih]

theorem Memory.mem_write {m : Memory} {a : Nat} {b : Byte} {c : Host.Cell} (h : c ∈ m.write a b) :
    c = (a, b) ∨ c ∈ m := by
  induction m with
  | nil => simpa [Memory.write] using h
  | cons d m ih =>
    obtain ⟨k, v⟩ := d
    simp only [Memory.write] at h
    split at h
    · simpa using h
    · split at h
      · rcases List.mem_cons.mp h with h | h <;> simp_all
      · rcases List.mem_cons.mp h with h | h
        · exact Or.inr (h ▸ List.mem_cons_self)
        · exact (ih h).imp_right (List.mem_cons_of_mem _)

theorem Memory.write_canonical {m : Memory} (hc : m.Canonical) (a : Nat) (b : Byte) :
    (m.write a b).Canonical := by
  induction m with
  | nil => simp [Memory.write]
  | cons c m ih =>
    obtain ⟨k, v⟩ := c
    obtain ⟨hk, hm⟩ := List.pairwise_cons.mp hc
    simp only [Memory.write]
    split
    · next hlt =>
      refine List.pairwise_cons.mpr ⟨?_, hc⟩
      rintro d hd
      rcases List.mem_cons.mp hd with rfl | hd
      · exact hlt
      · exact Nat.lt_trans hlt (hk d hd)
    · split
      · next heq => subst heq; exact List.pairwise_cons.mpr ⟨hk, hm⟩
      · refine List.pairwise_cons.mpr ⟨?_, ih hm⟩
        rintro d hd
        rcases Memory.mem_write hd with rfl | hd
        · show k < a; omega
        · exact hk d hd

theorem Memory.write_below {m : Memory} {n a : Nat} (hb : m.Below n) (ha : a < n) (b : Byte) :
    (m.write a b).Below n := by
  intro c hc
  rcases Memory.mem_write hc with rfl | hc
  · exact ha
  · exact hb c hc

/-! ### A byte string stored -/

theorem read_cellsFrom (a : Nat) (bs : Bytes) (i : Nat) :
    Memory.read (cellsFrom a bs) i = if a ≤ i then bs[i - a]? else none := by
  induction bs generalizing a with
  | nil => simp [cellsFrom]
  | cons b bs ih =>
    rw [cellsFrom, Memory.read_cons, ih]
    by_cases h : a = i
    · subst h; simp
    · by_cases h' : a + 1 ≤ i
      · have : i - a = (i - (a + 1)) + 1 := by omega
        rw [if_neg h, if_pos h', if_pos (by omega), this, List.getElem?_cons_succ]
      · rw [if_neg h, if_neg h', if_neg (by omega)]

theorem mem_cellsFrom {a : Nat} {bs : Bytes} {c : Host.Cell} (h : c ∈ cellsFrom a bs) :
    a ≤ c.1 ∧ c.1 < a + bs.length := by
  induction bs generalizing a with
  | nil => simp [cellsFrom] at h
  | cons b bs ih =>
    rcases List.mem_cons.mp h with rfl | h
    · simp
    · have := ih h
      simp only [List.length_cons]; omega

theorem cellsFrom_canonical (a : Nat) (bs : Bytes) : Memory.Canonical (cellsFrom a bs) := by
  induction bs generalizing a with
  | nil => simp [cellsFrom]
  | cons b bs ih =>
    refine List.pairwise_cons.mpr ⟨fun d hd => ?_, ih (a + 1)⟩
    have := (mem_cellsFrom hd).1
    show a < d.1
    omega

/-- What a read gives after a byte string is stored: its byte inside the range, the old one outside. -/
theorem Memory.read_writeRange (m : Memory) (a : Nat) (bs : Bytes) (i : Nat) :
    (m.writeRange a bs).read i = if a ≤ i ∧ i < a + bs.length then bs[i - a]? else m.read i := by
  have hlo := Memory.read_filter (fun k => decide (k < a)) m i
  have hhi := Memory.read_filter (fun k => decide (a + bs.length ≤ k)) m i
  simp only [decide_eq_true_eq] at hlo hhi
  rw [Memory.writeRange, Memory.read_append, Memory.read_append, hlo, hhi, read_cellsFrom]
  by_cases h1 : i < a
  · rw [if_pos h1, if_neg (by omega), if_neg (by omega), if_neg (by omega)]; simp
  · by_cases h2 : i < a + bs.length
    · rw [if_neg h1, if_pos (by omega), if_neg (by omega), if_pos (by omega)]; simp
    · rw [if_neg h1, if_pos (by omega), if_pos (by omega), if_neg (by omega),
        List.getElem?_eq_none (by omega)]; simp

theorem Memory.writeRange_canonical {m : Memory} (hc : m.Canonical) (a : Nat) (bs : Bytes) :
    (m.writeRange a bs).Canonical := by
  have lo : ∀ c ∈ m.filter (fun c => c.1 < a), c.1 < a := fun c hcm => by simpa using (List.mem_filter.mp hcm).2
  have hi : ∀ c ∈ m.filter (fun c => a + bs.length ≤ c.1), a + bs.length ≤ c.1 := fun c hcm => by
    simpa using (List.mem_filter.mp hcm).2
  refine List.pairwise_append.mpr ⟨List.pairwise_append.mpr ⟨hc.filter _, cellsFrom_canonical a bs, ?_⟩, hc.filter _, ?_⟩
  · intro x hx y hy
    have := lo x hx; have := (mem_cellsFrom hy).1; omega
  · intro x hx y hy
    have hy' := hi y hy
    rcases List.mem_append.mp hx with hx | hx
    · have := lo x hx; omega
    · have := (mem_cellsFrom hx).2; omega

theorem Memory.writeRange_below {m : Memory} {n a : Nat} {bs : Bytes} (hb : m.Below n)
    (h : a + bs.length ≤ n) : (m.writeRange a bs).Below n := by
  intro c hc
  rcases List.mem_append.mp hc with hc | hc
  · rcases List.mem_append.mp hc with hc | hc
    · exact hb c (List.mem_of_mem_filter hc)
    · have := (mem_cellsFrom hc).2; omega
  · exact hb c (List.mem_of_mem_filter hc)

/-! ### A range read -/

/-- A range read answers exactly the bytes that one-byte reads give. -/
theorem Memory.readRange_eq_some {m : Memory} (hc : m.Canonical) (a n : Nat) (bs : Bytes) :
    m.readRange a n = some bs ↔ bs.length = n ∧ ∀ i, (h : i < bs.length) → m.read (a + i) = some bs[i] := by
  induction m generalizing a n bs with
  | nil =>
    cases n with
    | zero =>
      constructor
      · intro h; simp [Memory.readRange] at h; subst h; simp
      · rintro ⟨h, -⟩; simp [Memory.readRange, List.length_eq_zero_iff.mp h]
    | succ n =>
      constructor
      · intro h; simp [Memory.readRange] at h
      · rintro ⟨h, h'⟩; have := h' 0 (by omega); simp at this
  | cons c m ih =>
    obtain ⟨k, v⟩ := c
    obtain ⟨hk, hm⟩ := List.pairwise_cons.mp hc
    cases n with
    | zero =>
      constructor
      · intro h; simp [Memory.readRange] at h; subst h; simp
      · rintro ⟨h, -⟩; simp [Memory.readRange, List.length_eq_zero_iff.mp h]
    | succ n =>
      simp only [Memory.readRange]
      split
      · next hlt =>
        rw [ih hm]
        refine and_congr_right fun _ => forall₂_congr fun i _ => ?_
        rw [Memory.read_cons, if_neg (by omega)]
      · split
        · next _ heq =>
          subst heq
          cases bs with
          | nil => simp
          | cons b bs =>
            have step : (Memory.readRange m (k + 1) n).map (v :: ·) = some (b :: bs)
                ↔ v = b ∧ Memory.readRange m (k + 1) n = some bs := by
              cases Memory.readRange m (k + 1) n <;> simp
            rw [step, ih hm]
            constructor
            · rintro ⟨rfl, hl, hr⟩
              refine ⟨by simp [hl], ?_⟩
              rintro (_ | i) hi
              · simp [Memory.read_cons]
              · rw [Memory.read_cons, if_neg (by omega)]
                have := hr i (by simpa using hi)
                simpa [Nat.add_assoc, Nat.add_comm 1] using this
            · rintro ⟨hl, hr⟩
              refine ⟨?_, by simpa using hl, ?_⟩
              · have := hr 0 (by simp); simpa [Memory.read_cons] using this
              · intro i hi
                have := hr (i + 1) (by simpa using hi)
                rw [Memory.read_cons, if_neg (by omega)] at this
                simpa [Nat.add_assoc, Nat.add_comm 1] using this
        · next h1 h2 =>
          constructor
          · intro h; simp at h
          · rintro ⟨hl, hr⟩
            have := hr 0 (by omega)
            rw [Memory.read_cons, if_neg (by omega), Memory.read_eq_none] at this
            · simp at this
            · intro c hc'; have := hk c hc'; simp at this; omega

/-- A range read answers none exactly when one of its bytes is unwritten. -/
theorem Memory.readRange_eq_none {m : Memory} (hc : m.Canonical) (a n : Nat) :
    m.readRange a n = none ↔ ∃ i < n, m.read (a + i) = none := by
  constructor
  · intro h
    by_contra hcon
    simp only [not_exists, not_and] at hcon
    have hs : ∀ i, i < n → ∃ b, m.read (a + i) = some b := fun i hi => Option.ne_none_iff_exists'.mp (hcon i hi)
    have : m.readRange a n = some ((List.range n).map (fun i => (m.read (a + i)).getD 0#8)) := by
      rw [Memory.readRange_eq_some hc]
      refine ⟨by simp, fun i hi => ?_⟩
      obtain ⟨b, hb⟩ := hs i (by simpa using hi)
      simp [hb]
    simp [h] at this
  · rintro ⟨i, hi, hn⟩
    cases hr : m.readRange a n with
    | none => rfl
    | some bs =>
      obtain ⟨hl, hb⟩ := (Memory.readRange_eq_some hc a n bs).mp hr
      have := hb i (by omega)
      simp [hn] at this

/-- The range stored is the range read. -/
theorem Memory.readRange_writeRange {m : Memory} (hc : m.Canonical) (a : Nat) (bs : Bytes) :
    (m.writeRange a bs).readRange a bs.length = some bs := by
  rw [Memory.readRange_eq_some (Memory.writeRange_canonical hc a bs)]
  refine ⟨rfl, fun i hi => ?_⟩
  rw [Memory.read_writeRange, if_pos (by omega)]
  simp [hi]

end Sys2Proof.Machine
end

