-- ==== Sys2Proof/Laws/Codec.lean ====
section
/-! SUPPORT. Laws of the packet functions: sizes, and that the decoder reads through any reader what it reads
from the byte string. -/

namespace Sys2Proof.Machine

open Sys2Proof

/-! ### Formats -/

@[simp] theorem framingOfCap_small : framingOfCap smallCap = { start := soh, cap := 128, prefixLen := 1 } := rfl

@[simp] theorem framingOfCap_large (l : LargeCap) :
    framingOfCap l.bytes = { start := stx, cap := l.bytes, prefixLen := 2 } := by cases l <;> rfl

@[simp] theorem framingOfCap_cap (cap : Nat) : (framingOfCap cap).cap = cap := by
  unfold framingOfCap; split <;> rfl

theorem capOfMode_le (l : LargeCap) (m : BMode) : capOfMode l m ≤ l.bytes := by
  cases l <;> cases m <;> decide

@[simp] theorem framingOfStart_soh (l : LargeCap) : framingOfStart l soh = some (framingOfCap smallCap) := rfl

@[simp] theorem framingOfStart_stx (l : LargeCap) : framingOfStart l stx = some (framingOfCap l.bytes) := rfl

/-- What a start byte can give: SOH the small format, STX the large one, any other none. -/
theorem framingOfStart_cases (l : LargeCap) (b : Byte) :
    (b = soh ∧ framingOfStart l b = some (framingOfCap smallCap))
      ∨ (b = stx ∧ framingOfStart l b = some (framingOfCap l.bytes))
      ∨ (b ≠ soh ∧ b ≠ stx ∧ framingOfStart l b = none) := by
  unfold framingOfStart
  by_cases h1 : b = soh
  · exact Or.inl ⟨h1, if_pos h1⟩
  · by_cases h2 : b = stx
    · exact Or.inr (Or.inl ⟨h2, by rw [if_neg h1, if_pos h2]⟩)
    · exact Or.inr (Or.inr ⟨h1, h2, by rw [if_neg h1, if_neg h2]⟩)

theorem framingOfStart_cap_le {l : LargeCap} {b : Byte} {fr : Framing} (h : framingOfStart l b = some fr) :
    fr.cap ≤ l.bytes := by
  rcases framingOfStart_cases l b with ⟨-, h'⟩ | ⟨-, h'⟩ | ⟨-, -, h'⟩ <;> rw [h'] at h
  · cases h; cases l <;> decide
  · cases h; simp
  · cases h

/-! ### Sizes -/

@[simp] theorem seqPair_length (seq : Byte) : (seqPair seq).length = 2 := rfl

@[simp] theorem be16_length (v : Half) : (be16 v).length = 2 := rfl

@[simp] theorem trailerBytes_length (m : IMode) (tv : Half) : (trailerBytes m tv).length = trailerLen m := by
  cases m <;> rfl

theorem lengthPrefix_length (p n : Nat) (h : p = 1 ∨ p = 2) : (lengthPrefix p n).length = p := by
  rcases h with rfl | rfl <;> rfl

theorem framingOfCap_prefixLen (cap : Nat) : (framingOfCap cap).prefixLen = 1 ∨ (framingOfCap cap).prefixLen = 2 := by
  unfold framingOfCap; split <;> simp

/-- The data field is exactly `cap` bytes when the content fits. -/
theorem dataField_length {cap : Nat} (content : Bytes) (pad : Byte) (hcap : 2 ≤ cap)
    (h : content.length ≤ (framingOfCap cap).contentCap) :
    (dataField (framingOfCap cap) content pad).length = cap := by
  have hp := framingOfCap_prefixLen cap
  simp only [Framing.contentCap, framingOfCap_cap] at h
  simp only [dataField, List.length_append, List.length_replicate, framingOfCap_cap,
    lengthPrefix_length _ _ hp]
  omega

theorem frameAround_length (fr : Framing) (seq : Byte) (data : Bytes) (m : IMode) (tv : Half) :
    (frameAround fr seq data m tv).length = 3 + data.length + trailerLen m := by
  simp [frameAround]; omega

/-- A frame is 3 + cap + T bytes long. -/
theorem encodeFrame_length {seq : Byte} {content : Bytes} {cap : Nat} {pad : Byte} {m : IMode} {r : Encoded}
    (hcap : 2 ≤ cap) (h : encodeFrame seq content cap pad m = some r) :
    r.frame.length = 3 + cap + trailerLen m := by
  simp only [encodeFrame] at h
  split at h
  · cases h
  · next hle =>
    cases h
    rw [frameAround_length, dataField_length content pad hcap (by omega)]

theorem trailerLen_le (m : IMode) : trailerLen m ≤ 2 := by cases m <;> decide

theorem slice_length (f : Bytes) (a n : Nat) (h : a + n ≤ f.length) : (slice f a n).length = n := by
  simp [slice]; omega

/-- The content the decoder returns is at most cap - P bytes. -/
theorem contentOf_length_le (fr : Framing) (data : Bytes) : (contentOf fr data).length ≤ fr.contentCap := by
  simp only [contentOf, List.length_take]; omega

/-- A good verdict carries the content, a bad one carries none; the value is the recomputed one in both. -/
theorem judgeFrame_cases (fr : Framing) (m : IMode) (data trailer : Bytes) :
    (trailer = trailerBytes m (integrityValue m data)
        ∧ judgeFrame fr m data trailer = ⟨.ok, integrityValue m data, contentOf fr data⟩)
      ∨ (trailer ≠ trailerBytes m (integrityValue m data)
        ∧ judgeFrame fr m data trailer = ⟨.checksumMismatch, integrityValue m data, []⟩) := by
  unfold judgeFrame
  by_cases h : trailer = trailerBytes m (integrityValue m data)
  · exact Or.inl ⟨h, if_pos h⟩
  · exact Or.inr ⟨h, if_neg h⟩

/-! ### The decoder on a byte string -/

/-- `decodeFrame` with its reads written as slices. -/
theorem decodeFrame_eq (l : LargeCap) (f : Bytes) (m : IMode) (e : Byte) :
    decodeFrame l f m e =
      if f.length = 0 then .failure .shortFrame
      else
        match framingOfStart l ((slice f 0 1).getD 0 0#8) with
        | none => .failure .badStart
        | some fr =>
          if f.length < 3 then .failure .sequenceMismatch
          else if slice f 1 2 ≠ seqPair e then .failure .sequenceMismatch
          else if f.length < frameLen fr m then .failure .shortFrame
          else judgeFrame fr m (slice f 3 fr.cap) (slice f (3 + fr.cap) (trailerLen m)) := by
  unfold decodeFrame decodeVia
  by_cases h0 : f.length = 0
  · rw [if_pos h0, if_pos h0]; rfl
  · rw [if_neg h0, if_neg h0]
    show (match framingOfStart l ((slice f 0 1).getD 0 0#8) with | none => _ | some fr => _) = _
    cases framingOfStart l ((slice f 0 1).getD 0 0#8) with
    | none => rfl
    | some fr =>
      dsimp only
      by_cases h3 : f.length < 3
      · rw [if_pos h3, if_pos h3]; rfl
      · rw [if_neg h3, if_neg h3]
        show (if slice f 1 2 ≠ seqPair e then _ else _) = _
        by_cases hp : slice f 1 2 ≠ seqPair e
        · rw [if_pos hp, if_pos hp]; rfl
        · rw [if_neg hp, if_neg hp]
          by_cases hl : f.length < frameLen fr m
          · rw [if_pos hl, if_pos hl]; rfl
          · rw [if_neg hl, if_neg hl]; rfl

/-- A frame of three bytes or more, by its first three bytes. -/
theorem decodeFrame_cons (l : LargeCap) (x y z : Byte) (tail : Bytes) (m : IMode) (e : Byte) :
    decodeFrame l (x :: y :: z :: tail) m e =
      match framingOfStart l x with
      | none => .failure .badStart
      | some fr =>
        if [y, z] ≠ seqPair e then .failure .sequenceMismatch
        else if tail.length < fr.cap + trailerLen m then .failure .shortFrame
        else judgeFrame fr m (tail.take fr.cap) ((tail.drop fr.cap).take (trailerLen m)) := by
  rw [decodeFrame_eq, if_neg (by simp)]
  show (match framingOfStart l x with | none => _ | some fr => _) = _
  cases framingOfStart l x with
  | none => rfl
  | some fr =>
    dsimp only
    rw [if_neg (by simp)]
    have h1 : slice (x :: y :: z :: tail) 1 2 = [y, z] := rfl
    have h2 : slice (x :: y :: z :: tail) 3 fr.cap = tail.take fr.cap := rfl
    have h3 : slice (x :: y :: z :: tail) (3 + fr.cap) (trailerLen m) = (tail.drop fr.cap).take (trailerLen m) := by
      rw [slice, Nat.add_comm 3]; rfl
    have h4 : ((x :: y :: z :: tail).length < frameLen fr m) = (tail.length < fr.cap + trailerLen m) := by
      simp only [frameLen, List.length_cons]; exact propext ⟨fun h => by omega, fun h => by omega⟩
    rw [h1, h2, h3]
    simp only [h4]

/-! ### The decoder's reads -/

/-- Reading through a reader that agrees with `f` gives what decoding `f` gives. -/
theorem decodeVia_eq_decodeFrame (rd : Nat → Nat → Option Bytes) (f : Bytes) (l : LargeCap) (m : IMode) (e : Byte)
    (h : ∀ a n, a + n ≤ f.length → rd a n = some (slice f a n)) :
    decodeVia (m := Option) rd f.length l m e = some (decodeFrame l f m e) := by
  unfold decodeFrame decodeVia
  by_cases h0 : f.length = 0
  · rw [if_pos h0, if_pos h0]; rfl
  · rw [if_neg h0, if_neg h0, h 0 1 (by omega)]
    show (match framingOfStart l ((slice f 0 1).getD 0 0#8) with | none => _ | some fr => _) = some (match framingOfStart l ((slice f 0 1).getD 0 0#8) with | none => _ | some fr => _)
    cases framingOfStart l ((slice f 0 1).getD 0 0#8) with
    | none => rfl
    | some fr =>
      dsimp only
      by_cases h3 : f.length < 3
      · rw [if_pos h3, if_pos h3]; rfl
      · rw [if_neg h3, if_neg h3, h 1 2 (by omega)]
        show (if slice f 1 2 ≠ seqPair e then _ else _) = some (if slice f 1 2 ≠ seqPair e then _ else _)
        by_cases hp : slice f 1 2 ≠ seqPair e
        · rw [if_pos hp, if_pos hp]; rfl
        · rw [if_neg hp, if_neg hp]
          by_cases hl : f.length < frameLen fr m
          · rw [if_pos hl, if_pos hl]; rfl
          · rw [if_neg hl, if_neg hl]
            have hlen : 3 + fr.cap + trailerLen m ≤ f.length := by unfold frameLen at hl; omega
            rw [h 3 fr.cap (by omega), h (3 + fr.cap) (trailerLen m) hlen]
            rfl

/-- IBUF holds the frame `f`: PKT.DEC's reads give what decoding `f` gives. -/
theorem decodeInput_eq {s : State} {f : Bytes} (hc : s.ibuf.Canonical) (hl : f.length = s.inLen.toNat)
    (h : ∀ i, (hi : i < f.length) → s.ibuf.read i = some f[i]) (e : Byte) :
    s.decodeInput e = some (decodeFrame s.params.largeCap f s.imode e) := by
  unfold State.decodeInput
  rw [← hl]
  refine decodeVia_eq_decodeFrame _ f _ _ _ fun a n han => ?_
  rw [State.inputRange, Memory.readRange_eq_some hc]
  refine ⟨slice_length f a n han, fun i hi => ?_⟩
  rw [slice_length f a n han] at hi
  rw [h (a + i) (by omega)]
  simp [slice]

/-- What a decode can answer, whatever it reads: no content, or the content of a good frame, which is at most
LARGE_CAP bytes. -/
theorem decodeVia_content_le {rd : Nat → Nat → Option Bytes} {len : Nat} {l : LargeCap} {m : IMode} {e : Byte}
    {r : Decoded} (h : decodeVia (m := Option) rd len l m e = some r) : r.content.length ≤ l.bytes := by
  unfold decodeVia at h
  split at h
  · cases h; exact Nat.zero_le _
  · obtain ⟨start, hs, h⟩ := Option.bind_eq_some_iff.mp h
    split at h
    · cases h; exact Nat.zero_le _
    · next fr hfr =>
      split at h
      · cases h; exact Nat.zero_le _
      · obtain ⟨pair, hp, h⟩ := Option.bind_eq_some_iff.mp h
        split at h
        · cases h; exact Nat.zero_le _
        · split at h
          · cases h; exact Nat.zero_le _
          · obtain ⟨data, hd, h⟩ := Option.bind_eq_some_iff.mp h
            obtain ⟨trailer, ht, h⟩ := Option.bind_eq_some_iff.mp h
            cases h
            rcases judgeFrame_cases fr m data trailer with ⟨-, hj⟩ | ⟨-, hj⟩ <;> rw [hj]
            · have := contentOf_length_le fr data
              have := framingOfStart_cap_le hfr
              unfold Framing.contentCap at *
              show (contentOf fr data).length ≤ _
              omega
            · exact Nat.zero_le _

end Sys2Proof.Machine
end

