-- ==== Sys2Proof/Laws/State.lean ====
section
/-! SUPPORT. One lemma per field per update of State, so that no proof unfolds a record update. -/

namespace Sys2Proof.Machine

open Sys2Proof

/-! ### `report` writes STATUS.CODE alone -/

@[simp] theorem State.report_params (s : State) (c : StatusCode) : (s.report c).params = s.params := rfl
@[simp] theorem State.report_crcAcc (s : State) (c : StatusCode) : (s.report c).crcAcc = s.crcAcc := rfl
@[simp] theorem State.report_sumAcc (s : State) (c : StatusCode) : (s.report c).sumAcc = s.sumAcc := rfl
@[simp] theorem State.report_pad (s : State) (c : StatusCode) : (s.report c).pad = s.pad := rfl
@[simp] theorem State.report_imode (s : State) (c : StatusCode) : (s.report c).imode = s.imode := rfl
@[simp] theorem State.report_bmode (s : State) (c : StatusCode) : (s.report c).bmode = s.bmode := rfl
@[simp] theorem State.report_code (s : State) (c : StatusCode) : (s.report c).code = c := rfl
@[simp] theorem State.report_result (s : State) (c : StatusCode) : (s.report c).result = s.result := rfl
@[simp] theorem State.report_inLen (s : State) (c : StatusCode) : (s.report c).inLen = s.inLen := rfl
@[simp] theorem State.report_outLen (s : State) (c : StatusCode) : (s.report c).outLen = s.outLen := rfl
@[simp] theorem State.report_ibuf (s : State) (c : StatusCode) : (s.report c).ibuf = s.ibuf := rfl
@[simp] theorem State.report_obuf (s : State) (c : StatusCode) : (s.report c).obuf = s.obuf := rfl
@[simp] theorem State.report_pending (s : State) (c : StatusCode) : (s.report c).pending = s.pending := rfl
@[simp] theorem State.report_reads (s : State) (c : StatusCode) : (s.report c).reads = s.reads := rfl

/-! ### `finishSum` writes SUM_ACC, RESULT and STATUS.CODE -/

@[simp] theorem State.finishSum_params (s : State) (v : Byte) : (s.finishSum v).params = s.params := rfl
@[simp] theorem State.finishSum_crcAcc (s : State) (v : Byte) : (s.finishSum v).crcAcc = s.crcAcc := rfl
@[simp] theorem State.finishSum_sumAcc (s : State) (v : Byte) : (s.finishSum v).sumAcc = v := rfl
@[simp] theorem State.finishSum_pad (s : State) (v : Byte) : (s.finishSum v).pad = s.pad := rfl
@[simp] theorem State.finishSum_imode (s : State) (v : Byte) : (s.finishSum v).imode = s.imode := rfl
@[simp] theorem State.finishSum_bmode (s : State) (v : Byte) : (s.finishSum v).bmode = s.bmode := rfl
@[simp] theorem State.finishSum_code (s : State) (v : Byte) : (s.finishSum v).code = .ok := rfl
@[simp] theorem State.finishSum_result (s : State) (v : Byte) : (s.finishSum v).result = zext16 v := rfl
@[simp] theorem State.finishSum_inLen (s : State) (v : Byte) : (s.finishSum v).inLen = s.inLen := rfl
@[simp] theorem State.finishSum_outLen (s : State) (v : Byte) : (s.finishSum v).outLen = s.outLen := rfl
@[simp] theorem State.finishSum_ibuf (s : State) (v : Byte) : (s.finishSum v).ibuf = s.ibuf := rfl
@[simp] theorem State.finishSum_obuf (s : State) (v : Byte) : (s.finishSum v).obuf = s.obuf := rfl
@[simp] theorem State.finishSum_pending (s : State) (v : Byte) : (s.finishSum v).pending = s.pending := rfl
@[simp] theorem State.finishSum_reads (s : State) (v : Byte) : (s.finishSum v).reads = s.reads := rfl

/-! ### `finishCrc` writes CRC_ACC, RESULT and STATUS.CODE -/

@[simp] theorem State.finishCrc_params (s : State) (v : Half) : (s.finishCrc v).params = s.params := rfl
@[simp] theorem State.finishCrc_crcAcc (s : State) (v : Half) : (s.finishCrc v).crcAcc = v := rfl
@[simp] theorem State.finishCrc_sumAcc (s : State) (v : Half) : (s.finishCrc v).sumAcc = s.sumAcc := rfl
@[simp] theorem State.finishCrc_pad (s : State) (v : Half) : (s.finishCrc v).pad = s.pad := rfl
@[simp] theorem State.finishCrc_imode (s : State) (v : Half) : (s.finishCrc v).imode = s.imode := rfl
@[simp] theorem State.finishCrc_bmode (s : State) (v : Half) : (s.finishCrc v).bmode = s.bmode := rfl
@[simp] theorem State.finishCrc_code (s : State) (v : Half) : (s.finishCrc v).code = .ok := rfl
@[simp] theorem State.finishCrc_result (s : State) (v : Half) : (s.finishCrc v).result = v := rfl
@[simp] theorem State.finishCrc_inLen (s : State) (v : Half) : (s.finishCrc v).inLen = s.inLen := rfl
@[simp] theorem State.finishCrc_outLen (s : State) (v : Half) : (s.finishCrc v).outLen = s.outLen := rfl
@[simp] theorem State.finishCrc_ibuf (s : State) (v : Half) : (s.finishCrc v).ibuf = s.ibuf := rfl
@[simp] theorem State.finishCrc_obuf (s : State) (v : Half) : (s.finishCrc v).obuf = s.obuf := rfl
@[simp] theorem State.finishCrc_pending (s : State) (v : Half) : (s.finishCrc v).pending = s.pending := rfl
@[simp] theorem State.finishCrc_reads (s : State) (v : Half) : (s.finishCrc v).reads = s.reads := rfl

/-! ### `failPacket` writes RESULT, OUT_LEN and STATUS.CODE -/

@[simp] theorem State.failPacket_params (s : State) (c : StatusCode) (v : Half) : (s.failPacket c v).params = s.params := rfl
@[simp] theorem State.failPacket_crcAcc (s : State) (c : StatusCode) (v : Half) : (s.failPacket c v).crcAcc = s.crcAcc := rfl
@[simp] theorem State.failPacket_sumAcc (s : State) (c : StatusCode) (v : Half) : (s.failPacket c v).sumAcc = s.sumAcc := rfl
@[simp] theorem State.failPacket_pad (s : State) (c : StatusCode) (v : Half) : (s.failPacket c v).pad = s.pad := rfl
@[simp] theorem State.failPacket_imode (s : State) (c : StatusCode) (v : Half) : (s.failPacket c v).imode = s.imode := rfl
@[simp] theorem State.failPacket_bmode (s : State) (c : StatusCode) (v : Half) : (s.failPacket c v).bmode = s.bmode := rfl
@[simp] theorem State.failPacket_code (s : State) (c : StatusCode) (v : Half) : (s.failPacket c v).code = c := rfl
@[simp] theorem State.failPacket_result (s : State) (c : StatusCode) (v : Half) : (s.failPacket c v).result = v := rfl
@[simp] theorem State.failPacket_inLen (s : State) (c : StatusCode) (v : Half) : (s.failPacket c v).inLen = s.inLen := rfl
@[simp] theorem State.failPacket_outLen (s : State) (c : StatusCode) (v : Half) : (s.failPacket c v).outLen = 0#16 := rfl
@[simp] theorem State.failPacket_ibuf (s : State) (c : StatusCode) (v : Half) : (s.failPacket c v).ibuf = s.ibuf := rfl
@[simp] theorem State.failPacket_obuf (s : State) (c : StatusCode) (v : Half) : (s.failPacket c v).obuf = s.obuf := rfl
@[simp] theorem State.failPacket_pending (s : State) (c : StatusCode) (v : Half) : (s.failPacket c v).pending = s.pending := rfl
@[simp] theorem State.failPacket_reads (s : State) (c : StatusCode) (v : Half) : (s.failPacket c v).reads = s.reads := rfl

/-! ### `finishPacket` writes OBUF, OUT_LEN, RESULT and STATUS.CODE -/

@[simp] theorem State.finishPacket_params (s : State) (out : Bytes) (v : Half) : (s.finishPacket out v).params = s.params := rfl
@[simp] theorem State.finishPacket_crcAcc (s : State) (out : Bytes) (v : Half) : (s.finishPacket out v).crcAcc = s.crcAcc := rfl
@[simp] theorem State.finishPacket_sumAcc (s : State) (out : Bytes) (v : Half) : (s.finishPacket out v).sumAcc = s.sumAcc := rfl
@[simp] theorem State.finishPacket_pad (s : State) (out : Bytes) (v : Half) : (s.finishPacket out v).pad = s.pad := rfl
@[simp] theorem State.finishPacket_imode (s : State) (out : Bytes) (v : Half) : (s.finishPacket out v).imode = s.imode := rfl
@[simp] theorem State.finishPacket_bmode (s : State) (out : Bytes) (v : Half) : (s.finishPacket out v).bmode = s.bmode := rfl
@[simp] theorem State.finishPacket_code (s : State) (out : Bytes) (v : Half) : (s.finishPacket out v).code = .ok := rfl
@[simp] theorem State.finishPacket_result (s : State) (out : Bytes) (v : Half) : (s.finishPacket out v).result = v := rfl
@[simp] theorem State.finishPacket_inLen (s : State) (out : Bytes) (v : Half) : (s.finishPacket out v).inLen = s.inLen := rfl
@[simp] theorem State.finishPacket_outLen (s : State) (out : Bytes) (v : Half) : (s.finishPacket out v).outLen = BitVec.ofNat 16 out.length := rfl
@[simp] theorem State.finishPacket_ibuf (s : State) (out : Bytes) (v : Half) : (s.finishPacket out v).ibuf = s.ibuf := rfl
@[simp] theorem State.finishPacket_obuf (s : State) (out : Bytes) (v : Half) : (s.finishPacket out v).obuf = s.obuf.writeRange 0 out := rfl
@[simp] theorem State.finishPacket_pending (s : State) (out : Bytes) (v : Half) : (s.finishPacket out v).pending = s.pending := rfl
@[simp] theorem State.finishPacket_reads (s : State) (out : Bytes) (v : Half) : (s.finishPacket out v).reads = s.reads := rfl

/-! ### `illegalCommand` writes STATUS.CODE alone -/

@[simp] theorem State.illegalCommand_params (s : State) : s.illegalCommand.params = s.params := rfl
@[simp] theorem State.illegalCommand_crcAcc (s : State) : s.illegalCommand.crcAcc = s.crcAcc := rfl
@[simp] theorem State.illegalCommand_sumAcc (s : State) : s.illegalCommand.sumAcc = s.sumAcc := rfl
@[simp] theorem State.illegalCommand_pad (s : State) : s.illegalCommand.pad = s.pad := rfl
@[simp] theorem State.illegalCommand_imode (s : State) : s.illegalCommand.imode = s.imode := rfl
@[simp] theorem State.illegalCommand_bmode (s : State) : s.illegalCommand.bmode = s.bmode := rfl
@[simp] theorem State.illegalCommand_code (s : State) : s.illegalCommand.code = .illegalCommand := rfl
@[simp] theorem State.illegalCommand_result (s : State) : s.illegalCommand.result = s.result := rfl
@[simp] theorem State.illegalCommand_inLen (s : State) : s.illegalCommand.inLen = s.inLen := rfl
@[simp] theorem State.illegalCommand_outLen (s : State) : s.illegalCommand.outLen = s.outLen := rfl
@[simp] theorem State.illegalCommand_ibuf (s : State) : s.illegalCommand.ibuf = s.ibuf := rfl
@[simp] theorem State.illegalCommand_obuf (s : State) : s.illegalCommand.obuf = s.obuf := rfl
@[simp] theorem State.illegalCommand_pending (s : State) : s.illegalCommand.pending = s.pending := rfl
@[simp] theorem State.illegalCommand_reads (s : State) : s.illegalCommand.reads = s.reads := rfl

/-! ### `setInLen` writes IN_LEN alone -/

@[simp] theorem State.setInLen_params (s : State) (n : Half) : (s.setInLen n).params = s.params := rfl
@[simp] theorem State.setInLen_crcAcc (s : State) (n : Half) : (s.setInLen n).crcAcc = s.crcAcc := rfl
@[simp] theorem State.setInLen_sumAcc (s : State) (n : Half) : (s.setInLen n).sumAcc = s.sumAcc := rfl
@[simp] theorem State.setInLen_pad (s : State) (n : Half) : (s.setInLen n).pad = s.pad := rfl
@[simp] theorem State.setInLen_imode (s : State) (n : Half) : (s.setInLen n).imode = s.imode := rfl
@[simp] theorem State.setInLen_bmode (s : State) (n : Half) : (s.setInLen n).bmode = s.bmode := rfl
@[simp] theorem State.setInLen_code (s : State) (n : Half) : (s.setInLen n).code = s.code := rfl
@[simp] theorem State.setInLen_result (s : State) (n : Half) : (s.setInLen n).result = s.result := rfl
@[simp] theorem State.setInLen_inLen (s : State) (n : Half) : (s.setInLen n).inLen = n := rfl
@[simp] theorem State.setInLen_outLen (s : State) (n : Half) : (s.setInLen n).outLen = s.outLen := rfl
@[simp] theorem State.setInLen_ibuf (s : State) (n : Half) : (s.setInLen n).ibuf = s.ibuf := rfl
@[simp] theorem State.setInLen_obuf (s : State) (n : Half) : (s.setInLen n).obuf = s.obuf := rfl
@[simp] theorem State.setInLen_pending (s : State) (n : Half) : (s.setInLen n).pending = s.pending := rfl
@[simp] theorem State.setInLen_reads (s : State) (n : Half) : (s.setInLen n).reads = s.reads := rfl

/-! ### `storeInput` writes IBUF alone -/

@[simp] theorem State.storeInput_params (s : State) (i : Nat) (b : Byte) : (s.storeInput i b).params = s.params := rfl
@[simp] theorem State.storeInput_crcAcc (s : State) (i : Nat) (b : Byte) : (s.storeInput i b).crcAcc = s.crcAcc := rfl
@[simp] theorem State.storeInput_sumAcc (s : State) (i : Nat) (b : Byte) : (s.storeInput i b).sumAcc = s.sumAcc := rfl
@[simp] theorem State.storeInput_pad (s : State) (i : Nat) (b : Byte) : (s.storeInput i b).pad = s.pad := rfl
@[simp] theorem State.storeInput_imode (s : State) (i : Nat) (b : Byte) : (s.storeInput i b).imode = s.imode := rfl
@[simp] theorem State.storeInput_bmode (s : State) (i : Nat) (b : Byte) : (s.storeInput i b).bmode = s.bmode := rfl
@[simp] theorem State.storeInput_code (s : State) (i : Nat) (b : Byte) : (s.storeInput i b).code = s.code := rfl
@[simp] theorem State.storeInput_result (s : State) (i : Nat) (b : Byte) : (s.storeInput i b).result = s.result := rfl
@[simp] theorem State.storeInput_inLen (s : State) (i : Nat) (b : Byte) : (s.storeInput i b).inLen = s.inLen := rfl
@[simp] theorem State.storeInput_outLen (s : State) (i : Nat) (b : Byte) : (s.storeInput i b).outLen = s.outLen := rfl
@[simp] theorem State.storeInput_ibuf (s : State) (i : Nat) (b : Byte) : (s.storeInput i b).ibuf = s.ibuf.write i b := rfl
@[simp] theorem State.storeInput_obuf (s : State) (i : Nat) (b : Byte) : (s.storeInput i b).obuf = s.obuf := rfl
@[simp] theorem State.storeInput_pending (s : State) (i : Nat) (b : Byte) : (s.storeInput i b).pending = s.pending := rfl
@[simp] theorem State.storeInput_reads (s : State) (i : Nat) (b : Byte) : (s.storeInput i b).reads = s.reads := rfl

/-! ### `returnRead` touches the host's list of values alone -/

@[simp] theorem State.returnRead_params (s : State) (v : ReadValue) : (s.returnRead v).params = s.params := rfl
@[simp] theorem State.returnRead_crcAcc (s : State) (v : ReadValue) : (s.returnRead v).crcAcc = s.crcAcc := rfl
@[simp] theorem State.returnRead_sumAcc (s : State) (v : ReadValue) : (s.returnRead v).sumAcc = s.sumAcc := rfl
@[simp] theorem State.returnRead_pad (s : State) (v : ReadValue) : (s.returnRead v).pad = s.pad := rfl
@[simp] theorem State.returnRead_imode (s : State) (v : ReadValue) : (s.returnRead v).imode = s.imode := rfl
@[simp] theorem State.returnRead_bmode (s : State) (v : ReadValue) : (s.returnRead v).bmode = s.bmode := rfl
@[simp] theorem State.returnRead_code (s : State) (v : ReadValue) : (s.returnRead v).code = s.code := rfl
@[simp] theorem State.returnRead_result (s : State) (v : ReadValue) : (s.returnRead v).result = s.result := rfl
@[simp] theorem State.returnRead_inLen (s : State) (v : ReadValue) : (s.returnRead v).inLen = s.inLen := rfl
@[simp] theorem State.returnRead_outLen (s : State) (v : ReadValue) : (s.returnRead v).outLen = s.outLen := rfl
@[simp] theorem State.returnRead_ibuf (s : State) (v : ReadValue) : (s.returnRead v).ibuf = s.ibuf := rfl
@[simp] theorem State.returnRead_obuf (s : State) (v : ReadValue) : (s.returnRead v).obuf = s.obuf := rfl
@[simp] theorem State.returnRead_pending (s : State) (v : ReadValue) : (s.returnRead v).pending = s.pending := rfl
@[simp] theorem State.returnRead_reads (s : State) (v : ReadValue) : (s.returnRead v).reads = v :: s.reads := rfl

/-! ### Reset: every register takes its reset value; the parameters and the host's side stay -/

@[simp] theorem State.assertReset_params (s : State) : s.assertReset.params = s.params := rfl
@[simp] theorem State.assertReset_crcAcc (s : State) : s.assertReset.crcAcc = 0#16 := rfl
@[simp] theorem State.assertReset_sumAcc (s : State) : s.assertReset.sumAcc = 0#8 := rfl
@[simp] theorem State.assertReset_pad (s : State) : s.assertReset.pad = 0x1A#8 := rfl
@[simp] theorem State.assertReset_imode (s : State) : s.assertReset.imode = .crc := rfl
@[simp] theorem State.assertReset_bmode (s : State) : s.assertReset.bmode = .xmodem := rfl
@[simp] theorem State.assertReset_code (s : State) : s.assertReset.code = .ok := rfl
@[simp] theorem State.assertReset_result (s : State) : s.assertReset.result = 0#16 := rfl
@[simp] theorem State.assertReset_inLen (s : State) : s.assertReset.inLen = 0#16 := rfl
@[simp] theorem State.assertReset_outLen (s : State) : s.assertReset.outLen = 0#16 := rfl
@[simp] theorem State.assertReset_ibuf (s : State) : s.assertReset.ibuf = [] := rfl
@[simp] theorem State.assertReset_obuf (s : State) : s.assertReset.obuf = [] := rfl
@[simp] theorem State.assertReset_pending (s : State) : s.assertReset.pending = s.pending := rfl
@[simp] theorem State.assertReset_reads (s : State) : s.assertReset.reads = s.reads := rfl

@[simp] theorem State.resetWith_params (p : Params) : (State.resetWith p).params = p := rfl
@[simp] theorem State.resetWith_crcAcc (p : Params) : (State.resetWith p).crcAcc = 0#16 := rfl
@[simp] theorem State.resetWith_sumAcc (p : Params) : (State.resetWith p).sumAcc = 0#8 := rfl
@[simp] theorem State.resetWith_pad (p : Params) : (State.resetWith p).pad = 0x1A#8 := rfl
@[simp] theorem State.resetWith_imode (p : Params) : (State.resetWith p).imode = .crc := rfl
@[simp] theorem State.resetWith_bmode (p : Params) : (State.resetWith p).bmode = .xmodem := rfl
@[simp] theorem State.resetWith_code (p : Params) : (State.resetWith p).code = .ok := rfl
@[simp] theorem State.resetWith_result (p : Params) : (State.resetWith p).result = 0#16 := rfl
@[simp] theorem State.resetWith_inLen (p : Params) : (State.resetWith p).inLen = 0#16 := rfl
@[simp] theorem State.resetWith_outLen (p : Params) : (State.resetWith p).outLen = 0#16 := rfl
@[simp] theorem State.resetWith_ibuf (p : Params) : (State.resetWith p).ibuf = [] := rfl
@[simp] theorem State.resetWith_obuf (p : Params) : (State.resetWith p).obuf = [] := rfl
@[simp] theorem State.resetWith_pending (p : Params) : (State.resetWith p).pending = [] := rfl
@[simp] theorem State.resetWith_reads (p : Params) : (State.resetWith p).reads = [] := rfl

end Sys2Proof.Machine
end

