-- ==== Sys2Proof/Laws/Exec.lean ====
section
/-! SUPPORT. What each shared operation, a command, an access and a step can answer, said once. -/

namespace Sys2Proof.Machine

open Sys2Proof

/-! ### Operands -/

theorem inputTooLong_iff (s : State) : s.inputTooLong = true ↔ s.params.ibufSize < s.inLen.toNat := by
  simp [State.inputTooLong]

/-- IBUF[0:IN_LEN] read whole is its bytes read one at a time. -/
theorem input_eq_some {s : State} (hc : s.ibuf.Canonical) (data : Bytes) :
    s.input = some data ↔ data.length = s.inLen.toNat ∧ ∀ i, (h : i < data.length) → s.ibuf.read i = some data[i] := by
  simp [State.input, State.inputRange, Memory.readRange_eq_some hc]

theorem input_eq_none {s : State} (hc : s.ibuf.Canonical) :
    s.input = none ↔ ∃ i < s.inLen.toNat, s.ibuf.read i = none := by
  simp [State.input, State.inputRange, Memory.readRange_eq_none hc]

/-- Everything a FEED can answer with. -/
theorem feed_next {s t : State} {k : Bytes → State} (h : feed s k = .next t) :
    (s.inputTooLong = true ∧ t = s.report .badLength)
      ∨ (s.inputTooLong = false ∧ ∃ data, s.input = some data ∧ t = k data) := by
  unfold feed done at h
  split at h
  · next hl => cases h; exact Or.inl ⟨hl, rfl⟩
  · next hl =>
    split at h
    · cases h
    · next data hd => cases h; exact Or.inr ⟨by simpa using hl, data, hd, rfl⟩

/-! ### Commands -/

/-- Everything PKT.ENC can answer with. -/
theorem execPktEnc_next {seq : Byte} {s t : State} (h : execPktEnc seq s = .next t) :
    (s.inputTooLong = true ∧ t = s.failPacket .badLength 0#16)
      ∨ (s.inputTooLong = false ∧ s.encodeContentCap < s.inLen.toNat ∧ t = s.failPacket .contentTooLong 0#16)
      ∨ (s.inputTooLong = false ∧ s.inLen.toNat ≤ s.encodeContentCap ∧ ∃ content, s.input = some content
          ∧ ((encodeFrame seq content s.encodeCap s.pad s.imode = none ∧ t = s.failPacket .contentTooLong 0#16)
            ∨ ∃ r, encodeFrame seq content s.encodeCap s.pad s.imode = some r ∧ t = s.finishPacket r.frame r.trailer)) := by
  unfold execPktEnc done at h
  split at h
  · next hl => cases h; exact Or.inl ⟨hl, rfl⟩
  · next hl =>
    have hl' : s.inputTooLong = false := by simpa using hl
    split at h
    · next hc => cases h; exact Or.inr (Or.inl ⟨hl', hc, rfl⟩)
    · next hc =>
      split at h
      · cases h
      · next content hi =>
        refine Or.inr (Or.inr ⟨hl', by omega, content, hi, ?_⟩)
        split at h
        · next he => cases h; exact Or.inl ⟨he, rfl⟩
        · next r he => cases h; exact Or.inr ⟨r, he, rfl⟩

/-- The end of PKT.DEC: a good frame stores its content, every other verdict fails. -/
theorem finishDecode_cases (s : State) (r : Decoded) :
    (r.code = .ok ∧ s.finishDecode r = s.finishPacket r.content r.value)
      ∨ (r.code ≠ .ok ∧ s.finishDecode r = s.failPacket r.code r.value) := by
  obtain ⟨c, v, d⟩ := r
  cases c <;> simp [State.finishDecode]

/-- Everything PKT.DEC can answer with. -/
theorem execPktDec_next {e : Byte} {s t : State} (h : execPktDec e s = .next t) :
    (s.inputTooLong = true ∧ t = s.failPacket .badLength 0#16)
      ∨ (s.inputTooLong = false ∧ ∃ r, s.decodeInput e = some r ∧ t = s.finishDecode r) := by
  unfold execPktDec done at h
  split at h
  · next hl => cases h; exact Or.inl ⟨hl, rfl⟩
  · next hl =>
    split at h
    · cases h
    · next r hr => cases h; exact Or.inr ⟨by simpa using hl, r, hr, rfl⟩

/-- The shapes of a command's next state: which fields it writes, and that a packet command stores no more
than the largest frame. -/
inductive CommandEffect (s : State) : State → Prop where
  | config (p : Byte) (i : IMode) (b : BMode) :
      CommandEffect s ({ s with pad := p, imode := i, bmode := b }.report .ok)
  | sum (v : Byte) : CommandEffect s (s.finishSum v)
  | crc (v : Half) : CommandEffect s (s.finishCrc v)
  | badLength : CommandEffect s (s.report .badLength)
  | packetFailed (c : StatusCode) (v : Half) : CommandEffect s (s.failPacket c v)
  | packet (out : Bytes) (v : Half) (h : out.length ≤ s.params.largeCap.bytes + 5) :
      CommandEffect s (s.finishPacket out v)

/-- Everything a legal command can answer with. -/
theorem exec_next {i : Instr} {s t : State} (h : exec i s = .next t) : CommandEffect s t := by
  cases i with
  | csumSeed b => cases h; exact .sum b
  | csumFeed =>
    rcases feed_next h with ⟨-, rfl⟩ | ⟨-, data, -, rfl⟩
    · exact .badLength
    · exact .sum _
  | crcSeed v => cases h; exact .crc v
  | crcFeed =>
    rcases feed_next h with ⟨-, rfl⟩ | ⟨-, data, -, rfl⟩
    · exact .badLength
    · exact .crc _
  | cfgPad b => cases h; exact .config b s.imode s.bmode
  | cfgImode m => cases h; exact .config s.pad m s.bmode
  | cfgBmode m => cases h; exact .config s.pad s.imode m
  | pktEnc seq =>
    rcases execPktEnc_next h with ⟨-, rfl⟩ | ⟨-, -, rfl⟩ | ⟨-, -, content, -, ⟨-, rfl⟩ | ⟨r, hr, rfl⟩⟩
    · exact .packetFailed _ _
    · exact .packetFailed _ _
    · exact .packetFailed _ _
    · refine .packet _ _ ?_
      have h2 : 2 ≤ s.encodeCap := by
        unfold State.encodeCap
        cases s.bmode <;> cases s.params.largeCap <;> decide
      have hc : s.encodeCap ≤ s.params.largeCap.bytes := capOfMode_le _ _
      have ht := trailerLen_le s.imode
      rw [encodeFrame_length h2 hr]
      omega
  | pktDec e =>
    rcases execPktDec_next h with ⟨-, rfl⟩ | ⟨-, r, hr, rfl⟩
    · exact .packetFailed _ _
    · rcases finishDecode_cases s r with ⟨-, hf⟩ | ⟨-, hf⟩ <;> rw [hf]
      · exact .packet _ _ (Nat.le_trans (decodeVia_content_le hr) (by omega))
      · exact .packetFailed _ _

/-- Everything a word written to CMD can answer with. -/
theorem command_next {w : Word} {s t : State} (h : command w s = .next t) :
    (∃ i, decode w = .ok i ∧ exec i s = .next t) ∨ ((∃ e, decode w = .error e) ∧ t = s.illegalCommand) := by
  unfold command done at h
  split at h
  · next i hi => exact Or.inl ⟨i, hi, h⟩
  · next e he => cases h; exact Or.inr ⟨⟨e, he⟩, rfl⟩

/-! ### Addresses -/

theorem placeOf_register (p : Params) {off : Nat} (h : off < 0x4000) : placeOf p (p.base + off) = .registers off := by
  have h1 : ¬ p.base + off < p.base := by omega
  have h2 : p.base + off - p.base = off := by omega
  unfold placeOf
  simp only [h1, h2, if_false]
  exact if_pos h

theorem placeOf_ibuf (p : Params) {i : Nat} (h : i < 0x4000) : placeOf p (ibufAddr p i) = .input i := by
  have h1 : ¬ p.base + 0x4000 + i < p.base := by omega
  have h2 : p.base + 0x4000 + i - p.base = 0x4000 + i := by omega
  unfold placeOf ibufAddr ibufOffset obufOffset
  simp only [h1, h2, if_false]
  rw [if_neg (by omega), if_pos (by omega)]
  rw [Nat.add_sub_cancel_left]

theorem placeOf_obuf (p : Params) {i : Nat} (h : i < 0x4000) : placeOf p (obufAddr p i) = .output i := by
  have h1 : ¬ p.base + 0x8000 + i < p.base := by omega
  have h2 : p.base + 0x8000 + i - p.base = 0x8000 + i := by omega
  unfold placeOf obufAddr obufOffset ibufOffset reservedRegion
  simp only [h1, h2, if_false]
  rw [if_neg (by omega), if_neg (by omega), if_pos (by omega)]
  rw [Nat.add_sub_cancel_left]

/-- Where an address lies, read back: each answer of `placeOf` gives the address. -/
theorem placeOf_cases (p : Params) (addr : Nat) :
    (∃ off < 0x4000, addr = p.base + off ∧ placeOf p addr = .registers off)
      ∨ (∃ i < 0x4000, addr = ibufAddr p i ∧ placeOf p addr = .input i)
      ∨ (∃ i < 0x4000, addr = obufAddr p i ∧ placeOf p addr = .output i)
      ∨ (∃ off, 0xC000 ≤ off ∧ off < 0x10000 ∧ addr = p.base + off ∧ placeOf p addr = .reserved)
      ∨ ((addr < p.base ∨ p.base + 0x10000 ≤ addr) ∧ placeOf p addr = .outside) := by
  by_cases h0 : addr < p.base
  · exact Or.inr (Or.inr (Or.inr (Or.inr ⟨Or.inl h0, if_pos h0⟩)))
  · obtain ⟨off, rfl⟩ : ∃ off, addr = p.base + off := ⟨addr - p.base, by omega⟩
    by_cases h1 : off < 0x4000
    · exact Or.inl ⟨off, h1, rfl, placeOf_register p h1⟩
    · by_cases h2 : off < 0x8000
      · have hi : p.base + off = ibufAddr p (off - 0x4000) := by unfold ibufAddr ibufOffset; omega
        exact Or.inr (Or.inl ⟨off - 0x4000, by omega, hi, hi ▸ placeOf_ibuf p (by omega)⟩)
      · by_cases h3 : off < 0xC000
        · have hi : p.base + off = obufAddr p (off - 0x8000) := by unfold obufAddr obufOffset; omega
          exact Or.inr (Or.inr (Or.inl ⟨off - 0x8000, by omega, hi, hi ▸ placeOf_obuf p (by omega)⟩))
        · have h0' : p.base + off - p.base = off := by omega
          by_cases h4 : off < 0x10000
          · refine Or.inr (Or.inr (Or.inr (Or.inl ⟨off, by omega, h4, rfl, ?_⟩)))
            unfold placeOf
            simp only [h0, h0', if_false]
            rw [if_neg (by unfold ibufOffset; omega), if_neg (by unfold obufOffset; omega),
              if_neg (by unfold reservedRegion; omega), if_pos (by unfold windowSize; omega)]
          · refine Or.inr (Or.inr (Or.inr (Or.inr ⟨Or.inr (by omega), ?_⟩)))
            unfold placeOf
            simp only [h0, h0', if_false]
            rw [if_neg (by unfold ibufOffset; omega), if_neg (by unfold obufOffset; omega),
              if_neg (by unfold reservedRegion; omega), if_neg (by unfold windowSize; omega)]

@[simp] theorem wordAccess_regAddr (p : Params) (r : Reg) : wordAccess p (regAddr p r) = .ok r := by
  unfold wordAccess regAddr
  rw [placeOf_register p (by cases r <;> decide)]
  cases r <;> rfl

/-- A register offset is the offset of the register found there. -/
theorem regAt_eq_some {off : Nat} {r : Reg} (h : regAt off = some r) : off = r.offset := by
  unfold regAt at h
  repeat' split at h
  all_goals first | (cases h; assumption) | cases h

/-- The only address a 32-bit access reaches a register at is the register's own. -/
theorem wordAccess_ok {p : Params} {addr : Nat} {r : Reg} (h : wordAccess p addr = .ok r) : addr = regAddr p r := by
  unfold wordAccess at h
  rcases placeOf_cases p addr with ⟨off, -, rfl, hp⟩ | ⟨i, -, rfl, hp⟩ | ⟨i, -, rfl, hp⟩ | ⟨off, -, -, rfl, hp⟩ | ⟨-, hp⟩
    <;> rw [hp] at h
  · dsimp only at h
    split at h
    · cases h
    · split at h
      · cases h
      · next r' hr => cases h; rw [regAddr, regAt_eq_some hr]
  all_goals cases h

/-! ### Steps -/

@[simp] theorem step_idle {s : State} (h : s.pending = []) : step s = .next s := by
  unfold step; rw [h]; rfl

theorem step_event {s : State} {e : HostEvent} {rest : List HostEvent} (h : s.pending = e :: rest) :
    step s = perform e { s with pending := rest } := by
  unfold step; rw [h]

theorem perform_w32 (p : Params) (s : State) (r : Reg) (v : Word) (h : s.params = p) :
    perform (.w32 (regAddr p r) v) s = writeReg r v s := by
  subst h
  simp [perform, hostWrite32]

theorem perform_r32 (p : Params) (s : State) (r : Reg) (h : s.params = p) :
    perform (.r32 (regAddr p r)) s = .next (s.returnRead (.word (readReg r s))) := by
  subst h
  simp [perform, hostRead32]

/-- A host write of a register, as a step. -/
theorem step_w32 (s : State) (r : Reg) (v : Word) (rest : List HostEvent) :
    step { s with pending := .w32 (regAddr s.params r) v :: rest } = writeReg r v { s with pending := rest } :=
  (step_event rfl).trans (perform_w32 s.params { s with pending := rest } r v rfl)

/-- A host read of a register, as a step. -/
theorem step_r32 (s : State) (r : Reg) (rest : List HostEvent) :
    step { s with pending := .r32 (regAddr s.params r) :: rest }
      = .next { s with pending := rest, reads := .word (readReg r s) :: s.reads } := by
  refine (step_event rfl).trans ((perform_r32 s.params { s with pending := rest } r rfl).trans ?_)
  cases r <;> rfl

/-- What each admitted event does: the state it leaves, by the event. -/
inductive EventEffect (s : State) : HostEvent → State → Prop where
  | readRegister (r : Reg) : EventEffect s (.r32 (regAddr s.params r)) (s.returnRead (.word (readReg r s)))
  | readInput (i : Nat) (b : Byte) (hi : i < s.params.ibufSize) (hb : s.ibuf.read i = some b) :
      EventEffect s (.r8 (ibufAddr s.params i)) (s.returnRead (.byte b))
  | readOutput (i : Nat) (b : Byte) (hi : i < s.params.obufSize) (hb : s.obuf.read i = some b) :
      EventEffect s (.r8 (obufAddr s.params i)) (s.returnRead (.byte b))
  | inLen (v : Word) (hv : v.extractLsb' 16 16 = 0#16) :
      EventEffect s (.w32 (regAddr s.params .inLen) v) (s.setInLen (v.extractLsb' 0 16))
  | store (i : Nat) (b : Byte) (hi : i < s.params.ibufSize) :
      EventEffect s (.w8 (ibufAddr s.params i) b) (s.storeInput i b)
  | command (w : Word) (i : Instr) (t : State) (hw : decode w = .ok i) (h : exec i s = .next t) :
      EventEffect s (commandEvent s.params w) t
  | illegal (w : Word) (e : IllegalWord) (hw : decode w = .error e) :
      EventEffect s (commandEvent s.params w) s.illegalCommand
  | reset : EventEffect s .assertReset s.assertReset

/-- Everything an event can answer with. -/
theorem perform_next {e : HostEvent} {s t : State} (h : perform e s = .next t) : EventEffect s e t := by
  cases e with
  | r32 addr =>
    simp only [perform, hostRead32] at h
    split at h
    · cases h
    · next r hr => cases h; rw [wordAccess_ok hr]; exact .readRegister r
  | w32 addr v =>
    simp only [perform, hostWrite32] at h
    split at h
    · cases h
    · next r hr =>
      rw [wordAccess_ok hr]
      cases r with
      | cmd =>
        rcases command_next h with ⟨i, hw, hx⟩ | ⟨⟨e, he⟩, rfl⟩
        · exact .command v i t hw hx
        · exact .illegal v e he
      | inLen =>
        simp only [writeReg] at h
        split at h
        · next hv => cases h; exact .inLen v hv
        · cases h
      | _ => cases h
  | r8 addr =>
    simp only [perform, hostRead8] at h
    rcases placeOf_cases s.params addr with ⟨off, -, rfl, hp⟩ | ⟨i, -, rfl, hp⟩ | ⟨i, -, rfl, hp⟩ | ⟨off, -, -, rfl, hp⟩ | ⟨-, hp⟩
      <;> rw [hp] at h <;> dsimp only at h
    · cases h
    · split at h
      · cases h
      · unfold returnByte at h
        split at h
        · cases h
        · next b hb => cases h; exact .readInput i b (by omega) hb
    · split at h
      · cases h
      · unfold returnByte at h
        split at h
        · cases h
        · next b hb => cases h; exact .readOutput i b (by omega) hb
    · cases h
    · cases h
  | w8 addr b =>
    simp only [perform, hostWrite8] at h
    rcases placeOf_cases s.params addr with ⟨off, -, rfl, hp⟩ | ⟨i, -, rfl, hp⟩ | ⟨i, -, rfl, hp⟩ | ⟨off, -, -, rfl, hp⟩ | ⟨-, hp⟩
      <;> rw [hp] at h <;> dsimp only at h
    · cases h
    · split at h
      · cases h
      · cases h; exact .store i b (by omega)
    · cases h
    · cases h
    · cases h
  | otherWidth addr bits w =>
    simp only [perform, hostOtherWidth] at h
    split at h <;> cases h
  | assertReset => cases h; exact .reset

/-- Everything a step can answer with. -/
theorem step_next {s t : State} (h : step s = .next t) :
    (s.pending = [] ∧ t = s) ∨ ∃ e rest, s.pending = e :: rest ∧ EventEffect { s with pending := rest } e t := by
  unfold step at h
  split at h
  · next hp => cases h; exact Or.inl ⟨hp, rfl⟩
  · next e rest hp => exact Or.inr ⟨e, rest, hp, perform_next h⟩

end Sys2Proof.Machine
end

