-- ==== Sys2Proof/Laws/PerInstr.lean ====
section
/-! SUPPORT. Per-instruction statements over the syntax: every term of `Instr` is well-formed, and so is the
word it encodes to. -/

namespace Sys2Proof.Laws.EncodesWellFormed

open Sys2Proof

/-- The instruction's operand fits its form, and its word has the OP of that form, RSV 0 and no bit of IMM that
the form requires to be zero (30_encoding.md R71, R74). -/
def Statement (i : Instr) : Prop :=
  i.wellFormed = true ∧ formOfOp (opField (encode i)) = some i.form ∧ (cmd32 (encode i)).wellFormed = true

/-- An IMM below 2^width makes the word of an OP with RSV 0 well-formed. -/
theorem cmdWord_wellFormed {op : Byte} {f : Form} {imm : Half} (hf : formOfOp op = some f)
    (hi : imm.toNat < 2 ^ f.width) : (cmd32 (cmdWord op imm)).wellFormed = true := by
  simp [Cmd32.wellFormed, cmd32, hf, hi]

/-- A byte, zero-extended, fits the form `imm8`. -/
theorem zext16_lt (b : Byte) : (zext16 b).toNat < 2 ^ Form.imm8.width := by
  have hb := b.isLt
  simp only [zext16, BitVec.toNat_setWidth, Form.width]
  omega

theorem csumSeed (seed : Byte) : Statement (.csumSeed seed) :=
  ⟨decide_eq_true seed.isLt, by rw [encode, opField_cmdWord]; rfl, cmdWord_wellFormed rfl (zext16_lt seed)⟩

theorem csumFeed : Statement .csumFeed := by unfold Statement; decide

theorem crcSeed (seed : Half) : Statement (.crcSeed seed) :=
  ⟨decide_eq_true seed.isLt, by rw [encode, opField_cmdWord]; rfl, cmdWord_wellFormed (f := .imm16) rfl seed.isLt⟩

theorem crcFeed : Statement .crcFeed := by unfold Statement; decide

theorem cfgPad (pad : Byte) : Statement (.cfgPad pad) :=
  ⟨decide_eq_true pad.isLt, by rw [encode, opField_cmdWord]; rfl, cmdWord_wellFormed rfl (zext16_lt pad)⟩

theorem cfgImode (mode : IMode) : Statement (.cfgImode mode) := by unfold Statement; cases mode <;> decide

theorem cfgBmode (mode : BMode) : Statement (.cfgBmode mode) := by unfold Statement; cases mode <;> decide

theorem pktEnc (seq : Byte) : Statement (.pktEnc seq) :=
  ⟨decide_eq_true seq.isLt, by rw [encode, opField_cmdWord]; rfl, cmdWord_wellFormed rfl (zext16_lt seq)⟩

theorem pktDec (expected : Byte) : Statement (.pktDec expected) :=
  ⟨decide_eq_true expected.isLt, by rw [encode, opField_cmdWord]; rfl, cmdWord_wellFormed rfl (zext16_lt expected)⟩

end Sys2Proof.Laws.EncodesWellFormed
end

