-- ==== Sys2Proof/Tests/Slice0.lean ====
section
/-! SUPPORT. Tests, and a witness for each statement that has hypotheses.  Expected results are the spec's own:
the words of 30_encoding.md R72 and R80 written out, and the vectors of 95_test_vectors.md, named at each
test. -/

namespace Sys2Proof.Tests

open Sys2Proof Sys2Proof.Machine

/-! ### Helpers -/

/-- The reset state with these bytes in IBUF and their count in IN_LEN. -/
def fed (bs : Bytes) : State :=
  { State.reset with ibuf := cellsFrom 0 bs, inLen := BitVec.ofNat 16 bs.length }

/-- The outcome is a next state, and it passes the check. -/
def nextPasses (o : Host.Outcome State Fault Refusal) (check : State → Bool) : Bool :=
  match o with
  | .next t => check t
  | .fault _ => false
  | .refused _ => false

/-- The outcome is this fault. -/
def faults (o : Host.Outcome State Fault Refusal) (f : Fault) : Bool :=
  match o with
  | .next _ => false
  | .fault g => f == g
  | .refused _ => false

/-- The host writes the word to CMD; one step. -/
def write (w : Nat) (s : State) : Host.Outcome State Fault Refusal := step (s.withFetchWord 32 w)

/-- One host event; one step. -/
def event (e : HostEvent) (s : State) : Host.Outcome State Fault Refusal := step { s with pending := [e] }

/-- "ABC". -/
def abc : Bytes := [0x41#8, 0x42#8, 0x43#8]

/-- "hello". -/
def hello : Bytes := [0x68#8, 0x65#8, 0x6C#8, 0x6C#8, 0x6F#8]

/-- "123456789". -/
def digits : Bytes := [0x31#8, 0x32#8, 0x33#8, 0x34#8, 0x35#8, 0x36#8, 0x37#8, 0x38#8, 0x39#8]

/-- F2, the frame of V-ENC-2. -/
def frame2 : Bytes :=
  [0x01#8, 0x01#8, 0xFE#8, 0x03#8, 0x41#8, 0x42#8, 0x43#8] ++ List.replicate 124 0x1A#8 ++ [0x94#8, 0x6A#8]

/-- F1, the frame of V-ENC-1. -/
def frame1 : Bytes :=
  [0x01#8, 0x01#8, 0xFE#8, 0x03#8, 0x41#8, 0x42#8, 0x43#8] ++ List.replicate 124 0x1A#8 ++ [0x61#8]

/-- A state whose IBUF is full: IBUF_SIZE 3, IN_LEN 3. -/
def full : State := { fed abc with params := { Params.reference with ibufSize := 3 } }

/-- IN_LEN one above IBUF_SIZE, no byte written. -/
def tooLong : State := { State.reset with inLen := 8198#16 }

/-- IN_LEN 1, no byte written. -/
def hole : State := { State.reset with inLen := 1#16 }

/-- V-ENC-2's end state: F2 in OBUF, OUT_LEN 133. -/
def sent : State := { fed abc with obuf := cellsFrom 0 frame2, outLen := 133#16, result := 0x946A#16 }

/-! ### Well-formedness: the check refuses an ill-formed term of each kind -/

theorem test_wf_refuses_unlisted_op : (Cmd32.wellFormed ⟨0x05#8, 0#8, 0#16⟩) = false := by decide

theorem test_wf_refuses_reserved_bits : (Cmd32.wellFormed ⟨0x03#8, 0x01#8, 0xFFFF#16⟩) = false := by decide

theorem test_wf_refuses_imm_of_none : (Cmd32.wellFormed ⟨0x02#8, 0#8, 0x0001#16⟩) = false := by decide

theorem test_wf_refuses_imm_of_imm1 : (Cmd32.wellFormed ⟨0x12#8, 0#8, 0x0002#16⟩) = false := by decide

theorem test_wf_refuses_imm_of_imm8 : (Cmd32.wellFormed ⟨0x01#8, 0#8, 0x0100#16⟩) = false := by decide

theorem test_wf_accepts : (Cmd32.wellFormed ⟨0x03#8, 0#8, 0xFFFF#16⟩) = true
    ∧ (Cmd32.wellFormed ⟨0x12#8, 0#8, 0x0001#16⟩) = true ∧ (Cmd32.wellFormed ⟨0x21#8, 0#8, 0x00FF#16⟩) = true := by
  decide

theorem test_wf_refuses_event_of_an_admitted_width :
    (HostEvent.otherWidth 0 8 false).wellFormed = false ∧ (HostEvent.otherWidth 0 32 true).wellFormed = false
      ∧ (HostEvent.otherWidth 0 16 false).wellFormed = true := by decide

/-! ### Decoding: words written out from R70 to R72 (OP in 31:24, RSV in 23:16, IMM in 15:0) -/

theorem test_decode_csumSeed : decode 0b00000001_00000000_00000000_00010100#32 = .ok (.csumSeed 0x14#8) := by decide

theorem test_decode_csumFeed : decode 0b00000010_00000000_00000000_00000000#32 = .ok .csumFeed := by decide

theorem test_decode_crcSeed : decode 0b00000011_00000000_10000000_00000001#32 = .ok (.crcSeed 0x8001#16) := by decide

theorem test_decode_crcFeed : decode 0b00000100_00000000_00000000_00000000#32 = .ok .crcFeed := by decide

theorem test_decode_cfgPad : decode 0b00010000_00000000_00000000_00011010#32 = .ok (.cfgPad 0x1A#8) := by decide

theorem test_decode_cfgImode : decode 0b00010001_00000000_00000000_00000001#32 = .ok (.cfgImode .crc)
    ∧ decode 0b00010001_00000000_00000000_00000000#32 = .ok (.cfgImode .checksum) := by decide

theorem test_decode_cfgBmode : decode 0b00010010_00000000_00000000_00000001#32 = .ok (.cfgBmode .xmodem1k)
    ∧ decode 0b00010010_00000000_00000000_00000000#32 = .ok (.cfgBmode .xmodem) := by decide

theorem test_decode_pktEnc : decode 0b00100000_00000000_00000000_10000001#32 = .ok (.pktEnc 0x81#8) := by decide

theorem test_decode_pktDec : decode 0b00100001_00000000_00000000_00000101#32 = .ok (.pktDec 0x05#8) := by decide

/-- The illegal words of 95_test_vectors.md. -/
theorem test_decode_illegal_words :
    decode 0x00000000#32 = .error .unlistedOp ∧ decode 0x05000000#32 = .error .unlistedOp
      ∧ decode 0x13000000#32 = .error .unlistedOp ∧ decode 0x22000000#32 = .error .unlistedOp
      ∧ decode 0xFFFFFFFF#32 = .error .unlistedOp ∧ decode 0x02000001#32 = .error .immediateBits
      ∧ decode 0x04008000#32 = .error .immediateBits ∧ decode 0x01000100#32 = .error .immediateBits
      ∧ decode 0x0301FFFF#32 = .error .reservedBits ∧ decode 0x12000003#32 = .error .immediateBits := by decide

/-- The opcode table's bits through the host's two functions. -/
theorem test_decodeTableWord : decodeTableWord 32 0x20000005 = some (.pktEnc 5#8) ∧ decodeTableWord 32 0x05000000 = none := by
  decide

/-! ### One step of each command -/

/-- V-SUM-1. -/
theorem test_step_csumSeed : nextPasses (write 0x01000014 State.reset)
    (fun t => t.sumAcc == 0x14#8 && t.result == 0x0014#16 && t.code == .ok) = true := by decide +kernel

/-- V-SUM-5. -/
theorem test_step_csumFeed : nextPasses (write 0x02000000 { fed abc with sumAcc := 0x10#8 })
    (fun t => t.sumAcc == 0xD6#8 && t.result == 0x00D6#16) = true := by decide +kernel

/-- V-SUM-6: the sum wraps and no carry is kept. -/
theorem test_step_csumFeed_wraps : nextPasses (write 0x02000000 (fed [0xFF#8, 0x01#8]))
    (fun t => t.sumAcc == 0x00#8 && t.result == 0x0000#16) = true := by decide +kernel

/-- V-CRC-1. -/
theorem test_step_crcSeed : nextPasses (write 0x0300FFFF State.reset)
    (fun t => t.crcAcc == 0xFFFF#16 && t.result == 0xFFFF#16) = true := by decide +kernel

/-- V-CRC-4. -/
theorem test_step_crcFeed : nextPasses (write 0x04000000 { fed digits with crcAcc := 0xFFFF#16 })
    (fun t => t.crcAcc == 0x29B1#16 && t.result == 0x29B1#16) = true := by decide +kernel

/-- V-CRC-18. -/
theorem test_step_crcFeed_bad_length : nextPasses (write 0x04000000 { tooLong with crcAcc := 0x4AB3#16 })
    (fun t => t.crcAcc == 0x4AB3#16 && t.code == .badLength) = true := by decide +kernel

/-- V-CFG-1. -/
theorem test_step_cfgPad : nextPasses (write 0x10000000 State.reset)
    (fun t => readReg .cfg t == 0x00000001#32 && t.code == .ok) = true := by decide +kernel

/-- V-CFG-3. -/
theorem test_step_cfgImode : nextPasses (write 0x11000000 State.reset)
    (fun t => readReg .cfg t == 0x00001A00#32 && t.code == .ok) = true := by decide +kernel

/-- V-CFG-6. -/
theorem test_step_cfgImode_illegal : nextPasses (write 0x11000002 State.reset)
    (fun t => readReg .cfg t == 0x00001A01#32 && readReg .status t == 7#32) = true := by decide +kernel

/-- V-CFG-4. -/
theorem test_step_cfgBmode : nextPasses (write 0x12000001 State.reset)
    (fun t => readReg .cfg t == 0x00001A03#32 && t.code == .ok) = true := by decide +kernel

set_option maxRecDepth 20000 in
/-- V-ENC-2.  (The CRC of 128 bytes is one long chain of shifts for the kernel, hence the depth.) -/
theorem test_step_pktEnc : nextPasses (write 0x20000001 (fed abc))
    (fun t => t.outLen == 133#16 && t.result == 0x946A#16 && t.output == some frame2) = true := by decide +kernel

/-- V-ENC-30: no IBUF byte is read. -/
theorem test_step_pktEnc_too_long : nextPasses (write 0x20000001 { State.reset with inLen := 128#16 })
    (fun t => t.code == .contentTooLong && t.outLen == 0#16 && t.result == 0#16) = true := by decide +kernel

set_option maxRecDepth 20000 in
/-- V-DEC-1. -/
theorem test_step_pktDec : nextPasses (write 0x21000001 (fed frame2))
    (fun t => t.code == .ok && t.result == 0x946A#16 && t.output == some abc) = true := by decide +kernel

/-- V-DEC-30: D = 255 is clamped to 127. -/
theorem test_step_pktDec_clamps :
    nextPasses (write 0x21000009
        { fed ([0x01#8, 0x09#8, 0xF6#8, 0xFF#8] ++ List.replicate 127 0x41#8 ++ [0x3E#8]) with imode := .checksum })
      (fun t => t.code == .ok && t.result == 0x003E#16 && t.outLen == 127#16) = true := by decide +kernel

/-! ### Decoder verdicts (95_test_vectors.md) -/

/-- V-DEC-2, V-DEC-7, V-DEC-15. -/
theorem test_verdicts_pair_and_trailer :
    decodeFrame .cap1024 frame2 .crc 2#8 = ⟨.sequenceMismatch, 0#16, []⟩
      ∧ decodeFrame .cap1024 (frame2.set 2 0xFF#8) .crc 1#8 = ⟨.sequenceMismatch, 0#16, []⟩
      ∧ decodeFrame .cap1024 (frame1.set 131 0x62#8) .checksum 1#8 = ⟨.checksumMismatch, 0x0061#16, []⟩ := by
  decide +kernel

/-- V-DEC-8 to V-DEC-11, V-DEC-18. -/
theorem test_verdicts_start_and_length :
    decodeFrame .cap1024 (frame2.set 0 0x04#8) .crc 1#8 = ⟨.badStart, 0#16, []⟩
      ∧ decodeFrame .cap1024 [0x01#8, 0x01#8] .crc 1#8 = ⟨.sequenceMismatch, 0#16, []⟩
      ∧ decodeFrame .cap1024 [] .crc 1#8 = ⟨.shortFrame, 0#16, []⟩
      ∧ decodeFrame .cap1024 (frame2.set 0 0x02#8) .crc 1#8 = ⟨.shortFrame, 0#16, []⟩ := by decide +kernel

/-- V-DEC-12, V-DEC-13, V-DEC-14. -/
theorem test_verdicts_wrong_mode :
    decodeFrame .cap1024 frame2 .checksum 1#8 = ⟨.checksumMismatch, 0x0061#16, []⟩
      ∧ decodeFrame .cap1024 frame1 .crc 1#8 = ⟨.shortFrame, 0#16, []⟩
      ∧ decodeFrame .cap1024 frame1 .checksum 1#8 = ⟨.ok, 0x0061#16, abc⟩ := by decide +kernel

/-- V-ENC-20: the large format's start byte, pair, two-byte prefix, content, pad and length. -/
theorem test_large_format :
    (encodeFrame 2#8 [0x68#8, 0x69#8] 1024 0x1A#8 .crc).map (fun r => (r.frame.take 8, r.frame.length))
        = some ([0x02#8, 0x02#8, 0xFD#8, 0x00#8, 0x02#8, 0x68#8, 0x69#8, 0x1A#8], 1029) := by decide +kernel

/-! ### Host accesses -/

/-- A byte the host wrote reads back; one it did not write faults (10_state.md R43). -/
theorem test_input_bytes :
    nextPasses (event (.w8 0x4002 0x7F#8) State.reset) (fun t => t.ibuf.read 2 == some 0x7F#8) = true
      ∧ nextPasses (event (.r8 0x4002) (fed abc)) (fun t => t.reads == [.byte 0x43#8]) = true
      ∧ faults (event (.r8 0x4003) (fed abc)) .unwrittenInput = true := by decide +kernel

/-- IN_LEN takes any 16-bit value (10_state.md R36). -/
theorem test_inLen_write :
    nextPasses (event (.w32 0x18 0xFFFF#32) State.reset) (fun t => t.inLen == 0xFFFF#16) = true := by decide +kernel

/-- Reset values read through the register window (10_state.md R44), at the reference instance. -/
theorem test_reset_reads :
    nextPasses (event (.r32 0x14) State.reset) (fun t => t.reads == [.word 0x00001A01#32]) = true
      ∧ nextPasses (event (.r32 0x20) State.reset) (fun t => t.reads == [.word 1024#32]) = true
      ∧ nextPasses (event (.r32 0x24) State.reset) (fun t => t.reads == [.word 8197#32]) = true := by decide +kernel

/-- Accesses 20_memory.md R54 and R56 do not admit. -/
theorem test_not_admitted :
    faults (event (.r32 0x2C) State.reset) .reservedOffset = true
      ∧ faults (event (.r32 0x06) State.reset) .misaligned = true
      ∧ faults (event (.w32 0x04 0#32) State.reset) .readOnlyRegister = true
      ∧ faults (event (.w8 0x8000 0#8) State.reset) .outputBufferWrite = true
      ∧ faults (event (.r8 0x14) State.reset) .wrongWidth = true
      ∧ faults (event (.w8 (0x4000 + 8197) 0#8) State.reset) .beyondBuffer = true
      ∧ faults (event (.w32 0x18 0x10000#32) State.reset) .zeroBitsSet = true := by decide +kernel

/-! ### Witnesses: for each statement with hypotheses, values that meet them -/

theorem witness_DecodeOfEncodeIsTheInstruction : (Instr.csumSeed 0xFF#8).wellFormed = true
    ∧ (Instr.cfgBmode .xmodem1k).wellFormed = true := by decide

theorem witness_EncodeOfDecodeIsTheWord : decode 0x010000FF#32 = .ok (.csumSeed 0xFF#8) := by decide

theorem witness_CommandWordsAreTheRowsOfTheTable :
    (∃ r ∈ opcodeTable, 0x1100_0001#32 &&& r.mask = r.pattern)
      ∧ ∀ r ∈ opcodeTable, 0x1100_0002#32 &&& r.mask ≠ r.pattern := by decide

theorem witness_IllegalWordsChangeOnlyStatus :
    decode 0x22000000#32 = .error .unlistedOp ∧ decode 0x20010005#32 = .error .reservedBits
      ∧ decode 0x04000001#32 = .error .immediateBits := by decide

theorem witness_StepRunsTheDecodedCommand :
    decode 0x0300FFFF#32 = .ok (.crcSeed 0xFFFF#16) ∧ (Instr.crcSeed 0xFFFF#16).wellFormed = true
      ∧ State.reset.pending = [] := by decide

theorem witness_CfgPadSetsThePadByte :
    (opField 0x10010000#32 = 0x10#8 ∧ rsvField 0x10010000#32 ≠ 0#8)
      ∧ (opField 0x10000100#32 = 0x10#8 ∧ 0x100 ≤ (immField 0x10000100#32).toNat)
      ∧ ((∀ q, Instr.csumFeed ≠ .pktEnc q) ∧ ∀ q, Instr.csumFeed ≠ .cfgPad q)
      ∧ (State.reset.imode = .crc ∧ State.reset.bmode = .xmodem) :=
  ⟨by decide, by decide, ⟨(by intro _ h; cases h), (by intro _ h; cases h)⟩, by decide⟩

theorem witness_CfgImodeSetsTheIntegrityMode :
    (2 ≤ (2#16).toNat ∧ 2 ≤ (0xFFFF#16).toNat)
      ∧ ((∀ q, Instr.csumFeed ≠ .pktEnc q) ∧ (∀ q, Instr.csumFeed ≠ .pktDec q) ∧ ∀ q, Instr.csumFeed ≠ .cfgImode q)
      ∧ nextPasses (exec (.pktEnc 1#8) { fed abc with imode := .crc }) (fun t => t.code == .ok) = true
      ∧ ((fed frame1).ibuf.Canonical
        ∧ nextPasses (exec (.pktDec 1#8) { fed frame1 with imode := .checksum }) (fun t => t.code == .ok) = true) :=
  ⟨by decide, ⟨(by intro _ h; cases h), (by intro _ h; cases h), (by intro _ h; cases h)⟩, by decide +kernel,
    by decide +kernel⟩

theorem witness_CfgBmodeSetsTheBlockSizeMode :
    (2 ≤ (2#16).toNat ∧ 2 ≤ (0xFFFF#16).toNat)
      ∧ ((∀ q, Instr.pktDec 1#8 ≠ .pktEnc q) ∧ ∀ q, Instr.pktDec 1#8 ≠ .cfgBmode q)
      ∧ Params.reference.Admitted ∧ (Params.mk 0x10000 .cap8192 8197 0x4000).Admitted :=
  ⟨by decide, ⟨(by intro _ h; cases h), (by intro _ h; cases h)⟩, by decide, by decide⟩

theorem witness_ChecksumLaws : [0x01#8, 0x02#8].Perm [0x02#8, 0x01#8] := List.Perm.swap _ _ _

theorem witness_CsumSeedLoadsTheAccumulator : 0x100 ≤ (0x100#16).toNat ∧ 0x100 ≤ (0xFFFF#16).toNat := by decide

/-- One theorem for both FEED statements: too long by one; the buffer full; one byte missing; no input. -/
theorem witness_CsumFeedAddsTheInput_and_CrcFeedRunsTheInput :
    tooLong.params.ibufSize < tooLong.inLen.toNat
      ∧ (full.ibuf.Canonical ∧ full.inLen.toNat ≤ full.params.ibufSize ∧ full.InputIs abc)
      ∧ (hole.ibuf.Canonical ∧ hole.inLen.toNat ≤ hole.params.ibufSize ∧ 0 < hole.inLen.toNat
        ∧ hole.ibuf.read 0 = none)
      ∧ State.reset.inLen = 0#16 := by decide

theorem witness_CrcSeedLoadsTheAccumulator : opField 0x0301FFFF#32 = 0x03#8 ∧ rsvField 0x0301FFFF#32 ≠ 0#8 := by decide

theorem witness_CrcLaws : abc.length = [0x00#8, 0xFF#8, 0x80#8].length := by decide

/-- For the two-FEED clauses of both FEED statements: "ABC" and then "hello". -/
theorem witness_two_feeds :
    (fed abc).ibuf.Canonical ∧ Memory.Canonical (cellsFrom 0 hello)
      ∧ (fed abc).inLen.toNat ≤ (fed abc).params.ibufSize ∧ (fed abc).InputIs abc
      ∧ hello.length ≤ (fed abc).params.ibufSize ∧ hello.length < 0x10000
      ∧ ∀ i, (h : i < hello.length) → Memory.read (cellsFrom 0 hello) i = some hello[i] := by decide

theorem witness_AccumulatorsAreIndependent :
    ((∀ b, Instr.crcFeed ≠ .csumSeed b) ∧ Instr.crcFeed ≠ .csumFeed)
      ∧ ((∀ h, Instr.csumFeed ≠ .crcSeed h) ∧ Instr.csumFeed ≠ .crcFeed)
      ∧ ((fed abc).ibuf.Canonical ∧ (fed abc).inLen.toNat ≤ (fed abc).params.ibufSize ∧ (fed abc).InputIs abc
        ∧ nextPasses (exec .csumFeed (fed abc)) (fun _ => true) = true
        ∧ nextPasses (exec .crcFeed (fed abc)) (fun _ => true) = true) :=
  ⟨⟨(by intro _ h; cases h), by decide⟩, ⟨(by intro _ h; cases h), by decide⟩, by decide +kernel⟩

/-- Frames of both formats and both modes, the small one with no content and with the most it carries.  Cited
for CodecNeverTouchesTheAccumulators, FrameLayout, SequencePairIsOnesComplement, EncodedFrameLaws and the
failure laws of the decoder too. -/
theorem witness_frames :
    (encodeFrame 1#8 [] (capOfMode .cap1024 .xmodem) 0x1A#8 .checksum).isSome = true
      ∧ (encodeFrame 1#8 (List.replicate 127 0#8) (capOfMode .cap1024 .xmodem) 0x1A#8 .crc).isSome = true
      ∧ (encodeFrame 255#8 hello (capOfMode .cap1024 .xmodem1k) 0x1A#8 .checksum).isSome = true
      ∧ (encodeFrame 255#8 hello (capOfMode .cap1024 .xmodem1k) 0x00#8 .crc).isSome = true := by decide +kernel

theorem witness_CodecNeverTouchesTheAccumulators :
    ∃ q, Instr.pktDec 1#8 = .pktEnc q ∨ Instr.pktDec 1#8 = .pktDec q := ⟨1#8, Or.inr rfl⟩

theorem witness_CommandsReadNoOutputAndWriteNoInput : exec (.cfgPad 0#8) State.reset
    = .next { State.reset with pad := 0#8, code := .ok } := rfl

theorem witness_EncodeBuildsTheFrame :
    127 < (List.replicate 128 0#8 : Bytes).length ∧ (List.replicate 127 0#8 : Bytes).length ≤ 127
      ∧ LargeCap.cap1024.bytes - 2 < (List.replicate 1023 0#8 : Bytes).length
      ∧ (List.replicate 1022 0#8 : Bytes).length ≤ LargeCap.cap1024.bytes - 2 := by
  simp only [List.length_replicate]; decide

/-- PKT.ENC: too long for IBUF; one byte too long for each mode; content present; one content byte missing. -/
theorem witness_PktEncBuildsOneFrame :
    tooLong.params.ibufSize < tooLong.inLen.toNat
      ∧ (128#16).toNat ≤ State.reset.params.ibufSize ∧ State.reset.bmode = .xmodem ∧ 127 < (128#16).toNat
      ∧ (1023#16).toNat ≤ State.reset.params.ibufSize ∧ LargeCap.cap1024.bytes - 2 < (1023#16).toNat
      ∧ ((fed abc).ibuf.Canonical ∧ (fed abc).params.Admitted ∧ (fed abc).inLen.toNat ≤ (fed abc).params.ibufSize
        ∧ (fed abc).bmode = .xmodem ∧ (fed abc).inLen.toNat ≤ 127 ∧ (fed abc).InputIs abc)
      ∧ (hole.ibuf.Canonical ∧ hole.inLen.toNat ≤ hole.params.ibufSize ∧ hole.bmode = .xmodem
        ∧ hole.inLen.toNat ≤ 127 ∧ 0 < hole.inLen.toNat ∧ hole.ibuf.read 0 = none) := by decide

theorem witness_DecodeFollowsTheCheckOrder :
    (framingOfStart .cap1024 (frame2.getD 0 0#8)).isSome = true ∧ 3 + 128 + trailerLen .crc ≤ frame2.length := by
  decide +kernel

/-- A matching pair; another consistent pair; a pair whose sum is not 255; a corrupted complement. -/
theorem witness_SequenceCheckComparesBothBytes :
    (3 ≤ [0x01#8, 0x05#8, 0xFA#8].length ∧ (0x01#8 = 0x01#8 ∨ 0x01#8 = (0x02#8 : Byte)))
      ∧ ((6#8 : Byte) ≠ 5#8 ∧ (0xF9#8 : Byte) = 255#8 - 6#8)
      ∧ (5#8 : Byte).toNat + (5#8 : Byte).toNat ≠ 255 ∧ (0xFB#8 : Byte) ≠ 255#8 - 5#8 := by decide

theorem witness_TrailerCheckRecomputesTheValue :
    framingOfStart .cap1024 0x01#8 = some (framingOfCap 128)
      ∧ ((frame2.drop 3).take 128).length = (framingOfCap 128).cap
      ∧ checksum ((frame2.drop 3).take 128) 0#8 = 0x61#8 ∧ (0x62#8 : Byte) ≠ 0x61#8
      ∧ (∃ x y, [x, y] = be16 (crc16 ((frame2.drop 3).take 128) 0#16))
      ∧ (∃ x y, [x, y] ≠ be16 (crc16 ((frame2.drop 3).take 128) 0#16)) :=
  ⟨by decide, by decide +kernel, by decide +kernel, by decide, ⟨_, _, rfl⟩,
    ⟨~~~hiByte (crc16 ((frame2.drop 3).take 128) 0#16), 0#8, fun h => by
      have h8 : ∀ b : Byte, ~~~b ≠ b := by decide +kernel
      exact h8 _ (List.cons.inj h).1⟩⟩

theorem witness_DeclaredLengthIsClamped :
    (List.replicate 127 0x41#8 : Bytes).length = 127 ∧ 128 ≤ (128#8 : Byte).toNat
      ∧ (List.replicate 1022 0x41#8 : Bytes).length = LargeCap.cap1024.bytes - 2
      ∧ LargeCap.cap1024.bytes - 1 ≤ (0x03#8 : Byte).toNat * 256 + (0xFF#8 : Byte).toNat := by
  simp only [List.length_replicate]; decide

/-- An SOH frame and an STX frame of "ABC", each with two pads; the longest content, with no pad. -/
theorem witness_PadIsUncheckedAndModeUnmarked :
    (abc.length = (0x00#8 : Byte).toNat * 256 + (0x03#8 : Byte).toNat
        ∧ abc.length + (List.replicate 1019 0x1A#8 : Bytes).length = LargeCap.cap1024.bytes - 2
        ∧ (List.replicate 1019 0x00#8 : Bytes).length = (List.replicate 1019 0x1A#8 : Bytes).length)
      ∧ ((List.replicate 1022 0x41#8 : Bytes).length = (0x03#8 : Byte).toNat * 256 + (0xFE#8 : Byte).toNat
        ∧ (List.replicate 1022 0x41#8 : Bytes).length + ([] : Bytes).length = LargeCap.cap1024.bytes - 2)
      ∧ abc.length = (3#8 : Byte).toNat ∧ abc.length + (List.replicate 124 0x1A#8 : Bytes).length = 127
      ∧ (List.replicate 124 0x00#8 : Bytes).length = (List.replicate 124 0x1A#8 : Bytes).length
      ∧ (encodeFrame 1#8 abc (capOfMode .cap1024 .xmodem) 0x1A#8 .checksum).isSome = true := by decide +kernel

theorem witness_PktDecDecodesTheInput :
    tooLong.params.ibufSize < tooLong.inLen.toNat
      ∧ ((fed frame2).ibuf.Canonical ∧ (fed frame2).inLen.toNat ≤ (fed frame2).params.ibufSize
        ∧ (fed frame2).InputIs frame2)
      ∧ (hole.ibuf.Canonical ∧ hole.ibuf.read 0 = none ∧ 0 < hole.inLen.toNat)
      ∧ (framingOfStart .cap1024 0x01#8 = some (framingOfCap 128)
        ∧ (let s := { fed [0x01#8] with inLen := 3#16 }
          s.ibuf.read 0 = some 0x01#8 ∧ s.ibuf.read 1 = none ∧ 3 ≤ s.inLen.toNat)
        ∧ (let s := { fed [0x01#8, 0x05#8] with inLen := 3#16 }
          s.ibuf.read 0 = some 0x01#8 ∧ s.ibuf.read 1 = some 0x05#8 ∧ s.ibuf.read 2 = none)
        ∧ (let s := { fed (frame2.take 131) with inLen := 133#16 }
          s.ibuf.read 131 = none ∧ 131 ≤ 3 + (framingOfCap 128).cap ∧ s.ibuf.read 1 = some 0x01#8
            ∧ s.ibuf.read 2 = some (255#8 - 0x01#8)
            ∧ 3 + (framingOfCap 128).cap + trailerLen s.imode ≤ s.inLen.toNat)) := by decide +kernel

/-- One state for each clause: no byte; another start byte; two bytes; a pair byte missing; a wrong pair; a
matching pair one byte short of a frame; the last byte of a frame missing; a whole frame. -/
theorem witness_PktDecReadsOnlyIndexedBytes :
    (0 < hole.inLen.toNat ∧ hole.ibuf.read 0 = none)
      ∧ ((fed [0x04#8]).ibuf.read 0 = some 0x04#8 ∧ (0x04#8 : Byte) ≠ 0x01#8 ∧ (0x04#8 : Byte) ≠ 0x02#8)
      ∧ (framingOfStart .cap1024 0x01#8 = some (framingOfCap 128) ∧ (fed [0x01#8, 0x01#8]).inLen.toNat < 3)
      ∧ (3 ≤ (3#16).toNat ∧ (fed [0x01#8, 0x01#8]).ibuf.read 2 = none)
      ∧ ((fed [0x01#8, 0x02#8, 0xFD#8]).ibuf.read 1 = some 0x02#8
        ∧ ¬ ((0x02#8 : Byte) = 0x01#8 ∧ (0xFD#8 : Byte) = 255#8 - 0x01#8))
      ∧ (132#16).toNat < 3 + (framingOfCap 128).cap + trailerLen State.reset.imode
      ∧ (3 + (framingOfCap 128).cap + trailerLen State.reset.imode ≤ (133#16).toNat
        ∧ (fed (frame2.take 132)).ibuf.read 132 = none)
      ∧ (frame2.length = 3 + (framingOfCap 128).cap + trailerLen State.reset.imode
        ∧ ∀ i, (h : i < frame2.length) → (fed frame2).ibuf.read i = some frame2[i]) := by decide +kernel

theorem witness_DecodeOfEncodeIsTheContent :
    (List.replicate 127 0#8 : Bytes).length ≤ 127 ∧ (List.replicate 1022 0#8 : Bytes).length ≤ LargeCap.cap1024.bytes - 2 := by
  simp only [List.length_replicate]; decide

/-- With `witness_frames`: another sequence, the two ends of a truncation, another start byte. -/
theorem witness_WrongSequenceTruncationAndStart :
    (2#8 : Byte) ≠ 1#8 ∧ (3 ≤ 3 ∧ 3 < frame2.length) ∧ (3 ≤ 132 ∧ 132 < frame2.length)
      ∧ ((0x00#8 : Byte) ≠ 0x01#8 ∧ (0x00#8 : Byte) ≠ 0x02#8) := by decide +kernel

/-- A frame of 133 bytes; the first bit of its data field and the last bit of its trailer. -/
theorem witness_CrcDetectsEverySingleBitError :
    (encodeFrame 1#8 abc (capOfMode .cap1024 .xmodem) 0x1A#8 .crc).map (fun r => r.frame.length) = some 133
      ∧ (3 ≤ 3 ∧ 3 < 133 ∧ 7 < 8) ∧ (3 ≤ 132 ∧ 132 < 133 ∧ 0 < 8) := by decide +kernel

theorem witness_ChecksumDetectsEveryOneByteError :
    (encodeFrame 1#8 abc (capOfMode .cap1024 .xmodem) 0x1A#8 .checksum).map Encoded.frame = some frame1
      ∧ (3 < frame1.length ∧ 0x04#8 ≠ frame1.getD 3 0#8) ∧ (131 < frame1.length ∧ 0x62#8 ≠ frame1.getD 131 0#8) := by
  decide +kernel

theorem witness_FailedDecodeLeavesTheNextAlone :
    nextPasses (exec (.pktDec 2#8) (fed frame2)) (fun t => t.code != .ok) = true := by decide +kernel

theorem witness_FirstFailureIsReported :
    decode 0x21000101#32 = .error .immediateBits
      ∧ tooLong.params.ibufSize < tooLong.inLen.toNat
      ∧ ((128#16).toNat ≤ State.reset.params.ibufSize
        ∧ (framingOfCap (capOfMode State.reset.params.largeCap State.reset.bmode)).contentCap < (128#16).toNat)
      ∧ ((0x07#8 : Byte) ≠ 0x01#8 ∧ (0x07#8 : Byte) ≠ 0x02#8)
      ∧ framingOfStart .cap1024 0x01#8 = some (framingOfCap 128)
      ∧ ¬ ((0x02#8 : Byte) = 0x01#8 ∧ (0xFD#8 : Byte) = 255#8 - 0x01#8)
      ∧ ([] : Bytes).length < (framingOfCap 128).cap + trailerLen .crc
      ∧ ((framingOfCap 128).cap + trailerLen .checksum ≤ ((frame1.set 131 0x62#8).drop 3).length
        ∧ (((frame1.set 131 0x62#8).drop 3).drop 128).take (trailerLen .checksum)
          ≠ trailerBytes .checksum (integrityValue .checksum (((frame1.set 131 0x62#8).drop 3).take 128))) := by
  decide +kernel

theorem witness_CmdRegister : rsvField 0x20010005#32 ≠ 0#8 := by decide

theorem witness_StatusRegister : command 0x10000000#32 State.reset
    = .next { State.reset with pad := 0#8, code := .ok } := rfl

theorem witness_ResultRegister :
    (nextPasses (exec (.csumSeed 1#8) State.reset) (fun _ => true) = true
        ∧ nextPasses (exec .csumFeed (fed abc)) (fun t => t.code == .ok) = true
        ∧ nextPasses (exec .csumFeed tooLong) (fun t => t.code == .badLength) = true)
      ∧ (nextPasses (exec (.crcSeed 1#16) State.reset) (fun _ => true) = true
        ∧ nextPasses (exec .crcFeed (fed abc)) (fun t => t.code == .ok) = true)
      ∧ (nextPasses (exec (.pktEnc 1#8) (fed abc)) (fun t => t.code == .ok) = true
        ∧ nextPasses (exec (.pktEnc 1#8) tooLong) (fun t => t.code == .badLength) = true)
      ∧ ((fed frame1).ibuf.Canonical ∧ State.InputIs { fed frame1 with imode := .checksum } frame1
        ∧ nextPasses (exec (.pktDec 1#8) { fed frame1 with imode := .checksum }) (fun t => t.code == .ok) = true)
      ∧ (decode 0x22000000#32 = .error .unlistedOp
        ∧ nextPasses (command 0x22000000#32 State.reset) (fun _ => true) = true)
      ∧ (decode 0x11000000#32 = .ok (.cfgImode .checksum)
        ∧ nextPasses (command 0x11000000#32 State.reset) (fun _ => true) = true) := by decide +kernel

/-- A host write of IN_LEN is a step that runs no command and is no reset.  Cited for CrcAccRegister,
SumAccRegister, CfgRegister, OutLenRegister, ParameterRegisters and BufferBytes. -/
theorem witness_step_of_no_command :
    nextPasses (event (.w32 0x18 5#32) State.reset) (fun _ => true) = true
      ∧ State.nextCommand { State.reset with pending := [.w32 0x18 5#32] } = none
      ∧ ¬ State.resetNext { State.reset with pending := [.w32 0x18 5#32] } :=
  ⟨by decide +kernel, by decide +kernel, (by intro h; cases h)⟩

/-- A packet command is a step that does not write the accumulators or CFG.  Cited for CrcAccRegister,
SumAccRegister, CfgRegister and BufferBytes. -/
theorem witness_step_of_a_packet_command :
    nextPasses (write 0x20000001 (fed abc)) (fun _ => true) = true
      ∧ ((fed abc).withFetchWord 32 0x20000001).nextCommand = some (.pktEnc 1#8)
      ∧ ¬ ((fed abc).withFetchWord 32 0x20000001).resetNext :=
  ⟨by decide +kernel, by decide +kernel, (by intro h; cases h)⟩

theorem witness_InLenRegister :
    0x10000 ≤ (0x10000#32).toNat ∧ 0x10000 ≤ (0xFFFFFFFF#32).toNat
      ∧ tooLong.params.ibufSize < tooLong.inLen.toNat
      ∧ nextPasses (command 0x04000000#32 (fed abc)) (fun _ => true) = true := by decide +kernel

theorem witness_ParameterRegisters : State.reset.params.Admitted
    ∧ (State.resetWith (Params.mk 0x10000 .cap8192 0x4000 8197)).params.Admitted := by decide

/-- The first and the last byte of IBUF, written and not; another IBUF that agrees below IN_LEN; a byte of OBUF,
written and not. -/
theorem witness_BufferBytes :
    State.reset.params.Admitted ∧ (0 < State.reset.params.ibufSize ∧ 8196 < State.reset.params.ibufSize)
      ∧ ((fed abc).ibuf.read 0 = some 0x41#8 ∧ State.reset.ibuf.read 0 = none)
      ∧ (Memory.Canonical (cellsFrom 0 [0x41#8, 0x00#8]) ∧ (fed abc).ibuf.Canonical
        ∧ ∀ j < { fed abc with inLen := 1#16 }.inLen.toNat,
          Memory.read (cellsFrom 0 [0x41#8, 0x00#8]) j = (fed abc).ibuf.read j)
      ∧ (8196 < State.reset.params.obufSize ∧ sent.obuf.read 132 = some 0x6A#8 ∧ sent.obuf.read 133 = none) := by
  decide +kernel

/-- An address of no register and no buffer byte: the first reserved offset, one byte past IBUF, one past OBUF.
For the admitted accesses: a legal word, the largest IN_LEN, the first and the last byte of a buffer. -/
theorem witness_OtherAccessesAreNotAdmitted :
    (∀ r, 0x2C ≠ regAddr State.reset.params r)
      ∧ (0x06 < 0x4000 ∧ 0x06 % 4 ≠ 0) ∧ (0x2C ≤ 0x2C ∧ 0x3FFC < 0x4000 ∧ 0x3FFC % 4 = 0)
      ∧ ((∀ i < State.reset.params.ibufSize, 0x4000 + 8197 ≠ ibufAddr State.reset.params i)
        ∧ ∀ i < State.reset.params.obufSize, 0x4000 + 8197 ≠ obufAddr State.reset.params i)
      ∧ (Reg.status ≠ .cmd ∧ Reg.status ≠ .inLen) ∧ 0x10000 ≤ (0x10000#32).toNat
      ∧ decode 0x05000000#32 = .error .unlistedOp
      ∧ decode 0x04000000#32 = .ok .crcFeed ∧ (0xFFFF#32).toNat < 0x10000
      ∧ (State.reset.params.Admitted ∧ 0 < State.reset.params.ibufSize ∧ 8196 < State.reset.params.ibufSize
        ∧ (fed abc).ibuf.read 0 = some 0x41#8)
      ∧ (sent.params.Admitted ∧ 132 < sent.params.obufSize ∧ sent.obuf.read 132 = some 0x6A#8) := by
  refine ⟨fun r => by cases r <;> decide, by decide, by decide, ⟨?_, ?_⟩, by decide, by decide, by decide, by decide,
    by decide, by decide, by decide +kernel⟩
  · intro i hi
    simp only [State.reset, State.resetWith, Params.reference, ibufAddr, ibufOffset] at hi ⊢
    omega
  · intro i _
    simp only [State.reset, State.resetWith, Params.reference, obufAddr, obufOffset]
    omega

theorem witness_ReadsHaveNoSideEffect :
    nextPasses (perform (.r32 0x04) State.reset) (fun _ => true) = true
      ∧ nextPasses (perform (.r8 0x4000) (fed abc)) (fun _ => true) = true
      ∧ nextPasses (perform (.w8 0x4000 0#8) State.reset) (fun _ => true) = true
      ∧ nextPasses (perform (.w32 (regAddr State.reset.params .inLen) 0xFFFF#32) State.reset) (fun _ => true) = true
      ∧ ((fed abc).ibuf.Canonical ∧ (fed abc).inLen.toNat ≤ (fed abc).params.ibufSize ∧ (fed abc).InputIs abc) := by
  decide +kernel

theorem witness_RangeAccessIsBytewise : Memory.Canonical (cellsFrom 3 abc) := by decide

theorem witness_ResetMeetsTheInvariant : (Params.mk 0x10000 .cap8192 8197 0x4000).Admitted
    ∧ (Params.mk 0 .cap1024 1029 1029).Admitted := by decide

/-- A state that meets the invariant with bytes in both buffers. -/
theorem sent_inv : sent.Inv where
  params := by decide
  ibufCanonical := by decide +kernel
  obufCanonical := by decide +kernel
  ibufBelow := by decide +kernel
  obufBelow := by decide +kernel
  outLenFits := by decide
  outputWritten := by decide +kernel

/-- Steps from it.  Cited for OutLenRegister too, with `witness_ResultRegister` for its decoded frame. -/
theorem witness_StepKeepsTheInvariant : sent.Inv
    ∧ nextPasses (write 0x20000002 sent) (fun t => t.outLen == 133#16) = true
    ∧ nextPasses (exec (.pktDec 1#8) sent) (fun t => t.code != .ok) = true :=
  ⟨sent_inv, by decide +kernel, by decide +kernel⟩

theorem witness_PseudoInstructions :
    (State.reset.params.Admitted ∧ hello.length ≤ State.reset.params.ibufSize)
      ∧ ((fed abc).ibuf.Canonical ∧ (fed abc).inLen.toNat ≤ (fed abc).params.ibufSize ∧ (fed abc).InputIs abc)
      ∧ (sent.Inv ∧ sent.outLen.toNat ≤ sent.params.ibufSize ∧ sent.OutputIs frame2) :=
  ⟨by decide, by decide, sent_inv, by decide, by decide +kernel⟩

theorem witness_EncodeCopybackDecodeGivesTheContent : sent.Inv ∧ sent.InputIs abc
    ∧ nextPasses (exec (.pktEnc 5#8) sent) (fun t => t.code == .ok) = true :=
  ⟨sent_inv, by decide, by decide +kernel⟩

end Sys2Proof.Tests
end

section
/-! PROOFS. Laws of registers, commands and steps that the statements on the architectural state use. -/

namespace Sys2Proof.Machine

open Sys2Proof

/-! ### Register accesses -/

theorem readsAs_readReg (s : State) (r : Reg) : s.ReadsAs r (readReg r s) := fun rest => step_r32 s r rest

/-- CMD and IN_LEN are the only registers the host may write (20_memory.md R56). -/
theorem rejectsWrites {r : Reg} (hcmd : r ≠ .cmd) (hlen : r ≠ .inLen) (s : State) : s.RejectsWrites r := by
  intro v rest
  rw [step_w32]
  cases r with
  | cmd => exact absurd rfl hcmd
  | inLen => exact absurd rfl hlen
  | _ => rfl

/-- The bits that R36 wants 0 in a write of IN_LEN are 0 exactly where the value is a 16-bit one. -/
theorem highHalf_eq_zero_iff (v : Word) : v.extractLsb' 16 16 = 0#16 ↔ v.toNat < 0x10000 := by
  have hv := v.isLt
  rw [← BitVec.toNat_inj, BitVec.extractLsb'_toNat, Nat.shiftRight_eq_div_pow, BitVec.toNat_ofNat]
  omega

theorem lowHalf_setWidth (n : Half) : (n.setWidth 32 : Word).extractLsb' 0 16 = n := by
  have hn := n.isLt
  apply BitVec.eq_of_toNat_eq
  rw [BitVec.extractLsb'_toNat, BitVec.toNat_setWidth, Nat.shiftRight_zero]
  omega

theorem writeReg_inLen_fits (s : State) (n : Half) : writeReg .inLen (n.setWidth 32) s = .next (s.setInLen n) := by
  have hhigh : (n.setWidth 32 : Word).extractLsb' 16 16 = 0#16 := by
    rw [highHalf_eq_zero_iff, BitVec.toNat_setWidth]
    exact Nat.lt_of_le_of_lt (Nat.mod_le _ _) n.isLt
  unfold writeReg
  rw [if_pos hhigh, lowHalf_setWidth]
  rfl

theorem writeReg_inLen_tooWide (s : State) {v : Word} (hv : 0x10000 ≤ v.toNat) :
    writeReg .inLen v s = .fault .zeroBitsSet :=
  if_neg fun h => absurd ((highHalf_eq_zero_iff v).mp h) (by omega)

/-! ### Illegal words -/

theorem decode_error_of_rsv {w : Word} (h : rsvField w ≠ 0#8) : ∃ e, decode w = .error e := by
  unfold decode
  cases decodeOp (opField w) (immField w) with
  | error e => exact ⟨e, rfl⟩
  | ok i => exact ⟨.reservedBits, if_neg h⟩

theorem command_of_error {w : Word} {e : IllegalWord} (h : decode w = .error e) (s : State) :
    command w s = .next s.illegalCommand := by
  unfold command
  rw [h]
  rfl

theorem command_of_ok {w : Word} {i : Instr} (h : decode w = .ok i) (s : State) : command w s = exec i s := by
  unfold command
  rw [h]

/-! ### What each command can do -/

/-- What each command leaves, by the command: `CommandEffect` with the instruction and the values it writes. -/
inductive InstrEffect (s : State) : Instr → State → Prop where
  | csumSeed (b : Byte) : InstrEffect s (.csumSeed b) (s.finishSum b)
  | csumFeedTooLong (hl : s.inputTooLong = true) : InstrEffect s .csumFeed (s.report .badLength)
  | csumFeed (data : Bytes) (hd : s.input = some data) :
      InstrEffect s .csumFeed (s.finishSum (checksum data s.sumAcc))
  | crcSeed (v : Half) : InstrEffect s (.crcSeed v) (s.finishCrc v)
  | crcFeedTooLong (hl : s.inputTooLong = true) : InstrEffect s .crcFeed (s.report .badLength)
  | crcFeed (data : Bytes) (hd : s.input = some data) :
      InstrEffect s .crcFeed (s.finishCrc (crc16 data s.crcAcc))
  | cfgPad (b : Byte) : InstrEffect s (.cfgPad b) ({ s with pad := b }.report .ok)
  | cfgImode (m : IMode) : InstrEffect s (.cfgImode m) ({ s with imode := m }.report .ok)
  | cfgBmode (m : BMode) : InstrEffect s (.cfgBmode m) ({ s with bmode := m }.report .ok)
  | pktEncFailed (q : Byte) (c : StatusCode) (hc : c ≠ .ok) : InstrEffect s (.pktEnc q) (s.failPacket c 0#16)
  | pktEnc (q : Byte) (content : Bytes) (r : Encoded) (hi : s.input = some content)
      (hr : encodeFrame q content s.encodeCap s.pad s.imode = some r) :
      InstrEffect s (.pktEnc q) (s.finishPacket r.frame r.trailer)
  | pktDecTooLong (e : Byte) (hl : s.inputTooLong = true) :
      InstrEffect s (.pktDec e) (s.failPacket .badLength 0#16)
  | pktDecFailed (e : Byte) (r : Decoded) (hr : s.decodeInput e = some r) (hc : r.code ≠ .ok) :
      InstrEffect s (.pktDec e) (s.failPacket r.code r.value)
  | pktDec (e : Byte) (r : Decoded) (hr : s.decodeInput e = some r) (hc : r.code = .ok) :
      InstrEffect s (.pktDec e) (s.finishPacket r.content r.value)

theorem exec_effect {i : Instr} {s t : State} (h : exec i s = .next t) : InstrEffect s i t := by
  cases i with
  | csumSeed b => cases h; exact .csumSeed b
  | csumFeed =>
    rcases feed_next h with ⟨hl, rfl⟩ | ⟨-, data, hd, rfl⟩
    · exact .csumFeedTooLong hl
    · exact .csumFeed data hd
  | crcSeed v => cases h; exact .crcSeed v
  | crcFeed =>
    rcases feed_next h with ⟨hl, rfl⟩ | ⟨-, data, hd, rfl⟩
    · exact .crcFeedTooLong hl
    · exact .crcFeed data hd
  | cfgPad b => cases h; exact .cfgPad b
  | cfgImode m => cases h; exact .cfgImode m
  | cfgBmode m => cases h; exact .cfgBmode m
  | pktEnc q =>
    rcases execPktEnc_next h with ⟨-, rfl⟩ | ⟨-, -, rfl⟩ | ⟨-, -, content, hi, ⟨-, rfl⟩ | ⟨r, hr, rfl⟩⟩
    · exact .pktEncFailed q .badLength (by decide)
    · exact .pktEncFailed q .contentTooLong (by decide)
    · exact .pktEncFailed q .contentTooLong (by decide)
    · exact .pktEnc q content r hi hr
  | pktDec e =>
    rcases execPktDec_next h with ⟨hl, rfl⟩ | ⟨-, r, hr, rfl⟩
    · exact .pktDecTooLong e hl
    · rcases finishDecode_cases s r with ⟨hc, hf⟩ | ⟨hc, hf⟩ <;> rw [hf]
      · exact .pktDec e r hr hc
      · exact .pktDecFailed e r hr hc

/-! ### Each register's own commands -/

section
variable {i : Instr} {s t : State}

theorem exec_keeps_crcAcc (h : exec i s = .next t) (hseed : ∀ v, i ≠ .crcSeed v) (hfeed : i ≠ .crcFeed) :
    t.crcAcc = s.crcAcc := by
  cases exec_effect h with
  | crcSeed v => exact absurd rfl (hseed v)
  | crcFeed => exact absurd rfl hfeed
  | _ => rfl

theorem exec_keeps_sumAcc (h : exec i s = .next t) (hseed : ∀ b, i ≠ .csumSeed b) (hfeed : i ≠ .csumFeed) :
    t.sumAcc = s.sumAcc := by
  cases exec_effect h with
  | csumSeed b => exact absurd rfl (hseed b)
  | csumFeed => exact absurd rfl hfeed
  | _ => rfl

theorem exec_keeps_pad (h : exec i s = .next t) (hcfg : ∀ b, i ≠ .cfgPad b) : t.pad = s.pad := by
  cases exec_effect h with
  | cfgPad b => exact absurd rfl (hcfg b)
  | _ => rfl

theorem exec_keeps_imode (h : exec i s = .next t) (hcfg : ∀ m, i ≠ .cfgImode m) : t.imode = s.imode := by
  cases exec_effect h with
  | cfgImode m => exact absurd rfl (hcfg m)
  | _ => rfl

theorem exec_keeps_bmode (h : exec i s = .next t) (hcfg : ∀ m, i ≠ .cfgBmode m) : t.bmode = s.bmode := by
  cases exec_effect h with
  | cfgBmode m => exact absurd rfl (hcfg m)
  | _ => rfl

theorem exec_keeps_outLen (h : exec i s = .next t) (henc : ∀ q, i ≠ .pktEnc q) (hdec : ∀ e, i ≠ .pktDec e) :
    t.outLen = s.outLen := by
  cases exec_effect h with
  | pktEncFailed q | pktEnc q => exact absurd rfl (henc q)
  | pktDecTooLong e | pktDecFailed e | pktDec e => exact absurd rfl (hdec e)
  | _ => rfl

theorem exec_keeps_inLen (h : exec i s = .next t) : t.inLen = s.inLen := by
  cases exec_next h <;> rfl

theorem exec_keeps_params (h : exec i s = .next t) : t.params = s.params := by
  cases exec_next h <;> rfl

/-! ### A step: a command, or an access -/

/-- A step that asserts no reset runs the next command, or is an access or an illegal word, which write
STATUS.CODE, IN_LEN, IBUF and the host's own fields at most. -/
theorem step_command_or_access (h : step s = .next t) (hr : ¬ s.resetNext) :
    (∃ i rest, s.nextCommand = some i ∧ exec i { s with pending := rest } = .next t)
      ∨ t = { s with code := t.code, inLen := t.inLen, ibuf := t.ibuf, pending := t.pending, reads := t.reads } := by
  rcases step_next h with ⟨-, rfl⟩ | ⟨e, rest, hp, heff⟩
  · exact Or.inr rfl
  · cases heff with
    | command w i t hw hx =>
      have hi : s.nextCommand = some i := by simp [State.nextCommand, hp, commandEvent, hw, Except.toOption]
      exact Or.inl ⟨i, rest, hi, hx⟩
    | reset => exact absurd (by simp [State.resetNext, hp]) hr
    | _ => exact Or.inr rfl

/-- A register that no access writes is kept by a step if the command the step runs, where it runs one, keeps it. -/
theorem step_keeps {α : Type} (get : State → α)
    (haccess : ∀ u c n m p r, get { u with code := c, inLen := n, ibuf := m, pending := p, reads := r } = get u)
    (h : step s = .next t) (hr : ¬ s.resetNext)
    (hcmd : ∀ i u, s.nextCommand = some i → exec i u = .next t → get t = get u) : get t = get s := by
  rcases step_command_or_access h hr with ⟨i, rest, hi, hx⟩ | ht
  · exact (hcmd i _ hi hx).trans (haccess s s.code s.inLen s.ibuf rest s.reads)
  · rw [ht, haccess]

theorem step_keeps_params (h : step s = .next t) : t.params = s.params := by
  rcases step_next h with ⟨-, rfl⟩ | ⟨e, rest, hp, heff⟩
  · rfl
  · cases heff with
    | command w i t hw hx => exact (exec_keeps_params hx :)
    | _ => rfl

end

/-! ### The input: read whole, or too long -/

section
variable {s : State}

theorem input_eq_of_inputIs {data : Bytes} (hc : s.ibuf.Canonical) (hd : s.InputIs data) : s.input = some data :=
  (input_eq_some hc data).mpr hd

theorem decodeInput_eq_of_inputIs {f : Bytes} (hc : s.ibuf.Canonical) (hf : s.InputIs f) (e : Byte) :
    s.decodeInput e = some (decodeFrame s.params.largeCap f s.imode e) :=
  decodeInput_eq hc hf.1 hf.2 e

theorem feed_of_tooLong (k : Bytes → State) (hl : s.params.ibufSize < s.inLen.toNat) :
    feed s k = .next (s.report .badLength) :=
  if_pos ((inputTooLong_iff s).mpr hl)

theorem feed_of_inputIs {data : Bytes} (k : Bytes → State) (hc : s.ibuf.Canonical)
    (hl : s.inLen.toNat ≤ s.params.ibufSize) (hd : s.InputIs data) : feed s k = .next (k data) := by
  have hshort : ¬ s.inputTooLong = true := by rw [inputTooLong_iff]; omega
  unfold feed
  rw [if_neg hshort, input_eq_of_inputIs hc hd]
  rfl

theorem execPktEnc_of_tooLong (q : Byte) (hl : s.params.ibufSize < s.inLen.toNat) :
    execPktEnc q s = .next (s.failPacket .badLength 0#16) :=
  if_pos ((inputTooLong_iff s).mpr hl)

theorem execPktDec_of_tooLong (e : Byte) (hl : s.params.ibufSize < s.inLen.toNat) :
    execPktDec e s = .next (s.failPacket .badLength 0#16) :=
  if_pos ((inputTooLong_iff s).mpr hl)

end

/-! ### Fields that a command carries through -/

/-- A change of the state that leaves a command's input alone: what the FEEDs read (10_state.md R36). -/
structure InputBlind (f : State → State) : Prop where
  params : ∀ s, (f s).params = s.params
  inLen : ∀ s, (f s).inLen = s.inLen
  ibuf : ∀ s, (f s).ibuf = s.ibuf

/-- A change of the state that PKT.DEC does not read, in fields that a packet command's end does not write; PKT.ENC
does not read it either where it keeps PAD and BMODE. -/
structure CodecBlind (f : State → State) : Prop extends InputBlind f where
  imode : ∀ s, (f s).imode = s.imode
  failPacket : ∀ s c v, (f s).failPacket c v = f (s.failPacket c v)
  finishPacket : ∀ s out v, (f s).finishPacket out v = f (s.finishPacket out v)

section
variable {f : State → State}

theorem InputBlind.inputTooLong (hf : InputBlind f) (s : State) : (f s).inputTooLong = s.inputTooLong := by
  simp only [State.inputTooLong, hf.params, hf.inLen]

theorem InputBlind.input (hf : InputBlind f) (s : State) : (f s).input = s.input := by
  simp only [State.input, State.inputRange, hf.inLen, hf.ibuf]

theorem CodecBlind.decodeInput (hf : CodecBlind f) (e : Byte) (s : State) :
    (f s).decodeInput e = s.decodeInput e := by
  simp only [State.decodeInput, State.inputRange, hf.inLen, hf.ibuf, hf.params, hf.imode]

theorem CodecBlind.finishDecode (hf : CodecBlind f) (s : State) (r : Decoded) :
    (f s).finishDecode r = f (s.finishDecode r) := by
  unfold State.finishDecode
  cases r.code with
  | ok => exact hf.finishPacket ..
  | _ => exact hf.failPacket ..

theorem feed_carries (hf : InputBlind f) (s : State) {k k' : Bytes → State}
    (hreport : (f s).report .badLength = f (s.report .badLength)) (hk : ∀ data, k' data = f (k data)) :
    feed (f s) k' = onNext f (feed s k) := by
  unfold feed
  rw [hf.inputTooLong, hf.input]
  cases s.inputTooLong with
  | true => exact congrArg done hreport
  | false =>
    cases s.input with
    | none => rfl
    | some data => exact congrArg done (hk data)

theorem execPktEnc_carries (hf : CodecBlind f) (q : Byte) (s : State) (hpad : (f s).pad = s.pad)
    (hbmode : (f s).bmode = s.bmode) : execPktEnc q (f s) = onNext f (execPktEnc q s) := by
  have hcap : (f s).encodeCap = s.encodeCap := by simp only [State.encodeCap, hf.params, hbmode]
  have hmax : (f s).encodeContentCap = s.encodeContentCap := by simp only [State.encodeContentCap, hcap]
  unfold execPktEnc
  rw [hf.inputTooLong, hf.input, hmax, hcap, hpad, hf.imode, hf.inLen]
  split
  · exact congrArg done (hf.failPacket ..)
  · split
    · exact congrArg done (hf.failPacket ..)
    · cases s.input with
      | none => rfl
      | some content =>
        dsimp only
        cases encodeFrame q content s.encodeCap s.pad s.imode with
        | none => exact congrArg done (hf.failPacket ..)
        | some r => exact congrArg done (hf.finishPacket ..)

theorem execPktDec_carries (hf : CodecBlind f) (e : Byte) (s : State) :
    execPktDec e (f s) = onNext f (execPktDec e s) := by
  unfold execPktDec
  rw [hf.inputTooLong, hf.decodeInput]
  cases s.inputTooLong with
  | true => exact congrArg done (hf.failPacket ..)
  | false =>
    cases s.decodeInput e with
    | none => rfl
    | some r => exact congrArg done (hf.finishDecode ..)

end

theorem codecBlind_setCrcAcc (v : Half) : CodecBlind (fun t => { t with crcAcc := v }) where
  params _ := rfl
  inLen _ := rfl
  ibuf _ := rfl
  imode _ := rfl
  failPacket _ _ _ := rfl
  finishPacket _ _ _ := rfl

theorem codecBlind_setSumAcc (v : Byte) : CodecBlind (fun t => { t with sumAcc := v }) where
  params _ := rfl
  inLen _ := rfl
  ibuf _ := rfl
  imode _ := rfl
  failPacket _ _ _ := rfl
  finishPacket _ _ _ := rfl

/-- A command that is not of the CRC unit neither reads nor writes CRC_ACC (10_state.md R41). -/
theorem exec_carries_crcAcc (i : Instr) (v : Half) (s : State) (hseed : ∀ h, i ≠ .crcSeed h) (hfeed : i ≠ .crcFeed) :
    exec i { s with crcAcc := v } = onNext (fun t => { t with crcAcc := v }) (exec i s) := by
  have hf := codecBlind_setCrcAcc v
  cases i with
  | crcSeed h => exact absurd rfl (hseed h)
  | crcFeed => exact absurd rfl hfeed
  | csumFeed => exact feed_carries hf.toInputBlind s rfl fun _ => rfl
  | pktEnc q => exact execPktEnc_carries hf q s rfl rfl
  | pktDec e => exact execPktDec_carries hf e s
  | csumSeed | cfgPad | cfgImode | cfgBmode => rfl

/-- A command that is not of the checksum unit neither reads nor writes SUM_ACC (10_state.md R41). -/
theorem exec_carries_sumAcc (i : Instr) (v : Byte) (s : State) (hseed : ∀ b, i ≠ .csumSeed b) (hfeed : i ≠ .csumFeed) :
    exec i { s with sumAcc := v } = onNext (fun t => { t with sumAcc := v }) (exec i s) := by
  have hf := codecBlind_setSumAcc v
  cases i with
  | csumSeed b => exact absurd rfl (hseed b)
  | csumFeed => exact absurd rfl hfeed
  | crcFeed => exact feed_carries hf.toInputBlind s rfl fun _ => rfl
  | pktEnc q => exact execPktEnc_carries hf q s rfl rfl
  | pktDec e => exact execPktDec_carries hf e s
  | crcSeed | cfgPad | cfgImode | cfgBmode => rfl

end Sys2Proof.Machine
end

section
/-! PROOFS. The registers of 10_state.md: the statements on the architectural state, settled. -/

namespace Sys2Proof.Machine

open Sys2Proof

/-! ### The accumulators (R33, R34, R41) -/

/-- Settles O19: a command of one unit carries the other unit's accumulator through, and writes its own. -/
theorem accumulatorsAreIndependent : Obligations.AccumulatorsAreIndependent := by
  refine ⟨exec_carries_sumAcc, exec_carries_crcAcc, fun b s => ⟨_, rfl, rfl⟩, fun h s => ⟨_, rfl, rfl⟩, ?_⟩
  intro s t data hc hl hd
  constructor
  · intro h
    cases (feed_of_inputIs _ hc hl hd).symm.trans h
    rfl
  · intro h
    cases (feed_of_inputIs _ hc hl hd).symm.trans h
    rfl

/-- Settles O44: no access writes CRC_ACC, and no command outside the CRC unit reads or writes it. -/
theorem crcAccRegister : Obligations.CrcAccRegister := by
  refine ⟨fun s => ⟨readsAs_readReg s .crcAcc, rejectsWrites (by decide) (by decide) s⟩, fun _ => rfl, ?_, ?_⟩
  · rintro i c s ⟨q, rfl | rfl⟩ <;> exact exec_carries_crcAcc _ c s (by simp) (by simp)
  · intro s t h hr hseed hfeed
    refine step_keeps State.crcAcc (fun _ _ _ _ _ _ => rfl) h hr fun i u hi hx => ?_
    exact exec_keeps_crcAcc hx (fun v hv => hseed v (hv ▸ hi)) fun hv => hfeed (hv ▸ hi)

/-- Settles O45: no access writes SUM_ACC, and no command outside the checksum unit reads or writes it. -/
theorem sumAccRegister : Obligations.SumAccRegister := by
  refine ⟨fun s => ⟨readsAs_readReg s .sumAcc, rejectsWrites (by decide) (by decide) s⟩, fun _ => rfl, ?_, ?_⟩
  · rintro i v s ⟨q, rfl | rfl⟩ <;> exact exec_carries_sumAcc _ v s (by simp) (by simp)
  · intro s t h hr hseed hfeed
    refine step_keeps State.sumAcc (fun _ _ _ _ _ _ => rfl) h hr fun i u hi hx => ?_
    exact exec_keeps_sumAcc hx (fun b hb => hseed b (hb ▸ hi)) fun hb => hfeed (hb ▸ hi)

/-! ### RESULT (R32) -/

theorem csum_result {i : Instr} {s t : State} (hi : (∃ b, i = .csumSeed b) ∨ i = .csumFeed) (h : exec i s = .next t) :
    (t.code = .ok ∧ t.result = t.sumAcc.setWidth 16) ∨ (t.code = .badLength ∧ t.result = s.result) := by
  cases exec_effect h with
  | csumSeed | csumFeed => exact Or.inl ⟨rfl, rfl⟩
  | csumFeedTooLong => exact Or.inr ⟨rfl, rfl⟩
  | _ => simp at hi

theorem crc_result {i : Instr} {s t : State} (hi : (∃ v, i = .crcSeed v) ∨ i = .crcFeed) (h : exec i s = .next t) :
    (t.code = .ok ∧ t.result = t.crcAcc) ∨ (t.code = .badLength ∧ t.result = s.result) := by
  cases exec_effect h with
  | crcSeed | crcFeed => exact Or.inl ⟨rfl, rfl⟩
  | crcFeedTooLong => exact Or.inr ⟨rfl, rfl⟩
  | _ => simp at hi

theorem pktEnc_result {q : Byte} {s t : State} (h : exec (.pktEnc q) s = .next t) :
    (t.code ≠ .ok ∧ t.result = 0#16)
      ∨ (t.code = .ok ∧ ∃ content r, s.input = some content
        ∧ encodeFrame q content s.encodeCap s.pad s.imode = some r ∧ t.result = r.trailer) := by
  cases exec_effect h with
  | pktEncFailed q c hc => exact Or.inl ⟨hc, rfl⟩
  | pktEnc q content r hi hr => exact Or.inr ⟨rfl, content, r, hi, hr, rfl⟩

theorem pktDec_result {e : Byte} {s t : State} {f : Bytes} (hc : s.ibuf.Canonical) (hf : s.InputIs f)
    (h : exec (.pktDec e) s = .next t) :
    (t.code = .badLength ∧ t.result = 0#16) ∨ t.result = (decodeFrame s.params.largeCap f s.imode e).value := by
  have hdec := decodeInput_eq_of_inputIs hc hf e
  cases exec_effect h with
  | pktDecTooLong => exact Or.inl ⟨rfl, rfl⟩
  | pktDecFailed e r hr | pktDec e r hr =>
    cases hdec.symm.trans hr
    exact Or.inr rfl

theorem cfg_or_illegal_keeps_result {w : Word} {s t : State}
    (hw : (∃ e, decode w = .error e) ∨ (∃ b, decode w = .ok (.cfgPad b)) ∨ (∃ m, decode w = .ok (.cfgImode m))
      ∨ ∃ m, decode w = .ok (.cfgBmode m))
    (h : command w s = .next t) : t.result = s.result := by
  rcases hw with ⟨e, hw⟩ | ⟨b, hw⟩ | ⟨m, hw⟩ | ⟨m, hw⟩
  · cases (command_of_error hw s).symm.trans h
    rfl
  all_goals
    cases (command_of_ok hw s).symm.trans h
    rfl

/-- Settles O43, one lemma per row of R32's table. -/
theorem resultRegister : Obligations.ResultRegister :=
  ⟨fun s => ⟨readsAs_readReg s .result, rejectsWrites (by decide) (by decide) s⟩, fun _ => rfl,
    fun _ _ _ => csum_result, fun _ _ _ => crc_result, fun _ _ _ => pktEnc_result,
    fun _ _ _ _ => pktDec_result, fun _ _ _ => cfg_or_illegal_keeps_result⟩

/-! ### CFG (R35) -/

theorem cfgWord_getLsbD (s : State) (i : Nat) :
    (cfgWord s).getLsbD i =
      if i < 1 then (imodeBit s.imode).getLsbD i
      else if i - 1 < 1 then (bmodeBit s.bmode).getLsbD (i - 1)
      else if i - 1 - 1 < 6 then false
      else if i - 1 - 1 - 6 < 8 then s.pad.getLsbD (i - 1 - 1 - 6) else false := by
  simp only [cfgWord, BitVec.getLsbD_append, BitVec.getLsbD_zero]

theorem cfgWord_bit0 (s : State) : (cfgWord s).getLsbD 0 = (s.imode == .crc) := by
  rw [cfgWord_getLsbD]
  cases s.imode <;> rfl

theorem cfgWord_bit1 (s : State) : (cfgWord s).getLsbD 1 = (s.bmode == .xmodem1k) := by
  rw [cfgWord_getLsbD]
  cases s.bmode <;> rfl

theorem cfgWord_bits_7_2 (s : State) : (cfgWord s).extractLsb' 2 6 = 0#6 := by
  apply BitVec.eq_of_getLsbD_eq
  intro i hi
  rw [BitVec.getLsbD_extractLsb', cfgWord_getLsbD, if_neg (by omega), if_neg (by omega), if_pos (by omega)]
  simp

theorem cfgWord_bits_15_8 (s : State) : (cfgWord s).extractLsb' 8 8 = s.pad := by
  apply BitVec.eq_of_getLsbD_eq
  intro i hi
  have hsub : 8 + i - 1 - 1 - 6 = i := by omega
  rw [BitVec.getLsbD_extractLsb', cfgWord_getLsbD, if_neg (by omega), if_neg (by omega), if_neg (by omega),
    if_pos (by omega), hsub]
  simp [hi]

theorem cfgWord_bits_31_16 (s : State) : (cfgWord s).extractLsb' 16 16 = 0#16 := by
  apply BitVec.eq_of_getLsbD_eq
  intro i hi
  rw [BitVec.getLsbD_extractLsb', cfgWord_getLsbD, if_neg (by omega), if_neg (by omega), if_neg (by omega),
    if_neg (by omega)]
  simp

/-- CFG's reset value: CRC mode, Xmodem, the pad byte 0x1A (10_state.md R35). -/
theorem cfgWord_of_reset_values {s : State} (hi : s.imode = .crc) (hb : s.bmode = .xmodem) (hp : s.pad = 0x1A#8) :
    cfgWord s = 0x00001A01#32 := by
  unfold cfgWord
  rw [hi, hb, hp]
  decide

/-- Settles O46: the bits of `cfgWord`, and no access writes a field of CFG. -/
theorem cfgRegister : Obligations.CfgRegister := by
  have hreset (p : Params) : cfgWord (State.resetWith p) = 0x00001A01#32 := cfgWord_of_reset_values rfl rfl rfl
  refine ⟨fun s => ⟨cfgWord s, readsAs_readReg s .cfg, cfgWord_bit0 s, cfgWord_bit1 s, cfgWord_bits_7_2 s,
    cfgWord_bits_15_8 s, cfgWord_bits_31_16 s⟩, fun p => hreset p ▸ readsAs_readReg (State.resetWith p) .cfg,
    rejectsWrites (by decide) (by decide), ?_⟩
  intro s t h hr
  refine ⟨fun hcfg => ?_, fun hcfg => ?_, fun hcfg => ?_⟩
  · refine step_keeps State.pad (fun _ _ _ _ _ _ => rfl) h hr fun i u hi hx => ?_
    exact exec_keeps_pad hx fun b hb => hcfg b (hb ▸ hi)
  · refine step_keeps State.imode (fun _ _ _ _ _ _ => rfl) h hr fun i u hi hx => ?_
    exact exec_keeps_imode hx fun m hm => hcfg m (hm ▸ hi)
  · refine step_keeps State.bmode (fun _ _ _ _ _ _ => rfl) h hr fun i u hi hx => ?_
    exact exec_keeps_bmode hx fun m hm => hcfg m (hm ▸ hi)

/-! ### IN_LEN (R36) -/

theorem exec_badLength {i : Instr} {s : State}
    (hi : i = .csumFeed ∨ i = .crcFeed ∨ (∃ q, i = .pktEnc q) ∨ ∃ q, i = .pktDec q)
    (hl : s.params.ibufSize < s.inLen.toNat) : ∃ t, exec i s = .next t ∧ t.code = .badLength := by
  rcases hi with rfl | rfl | ⟨q, rfl⟩ | ⟨q, rfl⟩
  · exact ⟨_, feed_of_tooLong _ hl, rfl⟩
  · exact ⟨_, feed_of_tooLong _ hl, rfl⟩
  · exact ⟨_, execPktEnc_of_tooLong q hl, rfl⟩
  · exact ⟨_, execPktDec_of_tooLong q hl, rfl⟩

theorem command_keeps_inLen {w : Word} {s t : State} (h : command w s = .next t) : t.inLen = s.inLen := by
  rcases command_next h with ⟨i, -, hx⟩ | ⟨-, rfl⟩
  · exact exec_keeps_inLen hx
  · rfl

/-- Settles O47: the two halves of the value the host writes decide what is stored and what is not admitted. -/
theorem inLenRegister : Obligations.InLenRegister := by
  refine ⟨fun s => readsAs_readReg s .inLen, ?_, ?_, fun _ _ => exec_badLength, fun _ _ _ => command_keeps_inLen,
    fun _ => rfl⟩
  · intro s n rest
    rw [step_w32, writeReg_inLen_fits]
    rfl
  · intro s v rest hv
    rw [step_w32, writeReg_inLen_tooWide _ hv]

/-! ### OUT_LEN (R37) -/

theorem largeCap_bytes_le (l : LargeCap) : l.bytes ≤ 8192 := by cases l <;> decide

theorem encodeFrame_length_of_state {q : Byte} {content : Bytes} {s : State} {r : Encoded}
    (hr : encodeFrame q content s.encodeCap s.pad s.imode = some r) :
    r.frame.length = 3 + s.encodeCap + trailerLen s.imode := by
  refine encodeFrame_length ?_ hr
  unfold State.encodeCap
  cases s.bmode <;> cases s.params.largeCap <;> decide

/-- What a packet command stores is at most the largest frame, so OUT_LEN counts it exactly. -/
theorem encodeFrame_length_lt {q : Byte} {content : Bytes} {s : State} {r : Encoded}
    (hr : encodeFrame q content s.encodeCap s.pad s.imode = some r) : r.frame.length < 2 ^ 16 := by
  have hcap : s.encodeCap ≤ s.params.largeCap.bytes := capOfMode_le _ _
  have hbytes := largeCap_bytes_le s.params.largeCap
  have ht := trailerLen_le s.imode
  rw [encodeFrame_length_of_state hr]
  omega

theorem decodeInput_content_lt {e : Byte} {s : State} {r : Decoded} (hr : s.decodeInput e = some r) :
    r.content.length < 2 ^ 16 := by
  have hcontent := decodeVia_content_le hr
  have hbytes := largeCap_bytes_le s.params.largeCap
  omega

theorem finishPacket_outLen_toNat (s : State) {out : Bytes} (v : Half) (h : out.length < 2 ^ 16) :
    (s.finishPacket out v).outLen.toNat = out.length := by
  rw [State.finishPacket_outLen, BitVec.toNat_ofNat, Nat.mod_eq_of_lt h]

/-- OBUF[0:OUT_LEN] is written once a packet command ends in OK (10_state.md R37). -/
theorem finishPacket_output_written (s : State) {out : Bytes} (v : Half) (h : out.length < 2 ^ 16) :
    ∀ j < (s.finishPacket out v).outLen.toNat, ∃ b, (s.finishPacket out v).obuf.read j = some b := by
  intro j hj
  rw [finishPacket_outLen_toNat s v h] at hj
  refine ⟨out[j], ?_⟩
  rw [State.finishPacket_obuf, Memory.read_writeRange, if_pos (by omega)]
  simp [hj]

/-- How a packet command ends: a failure, or a success whose output OUT_LEN counts exactly. -/
theorem packet_next {i : Instr} {q : Byte} {s t : State} (hi : i = .pktEnc q ∨ i = .pktDec q)
    (h : exec i s = .next t) :
    (∃ c v, c ≠ .ok ∧ t = s.failPacket c v) ∨ ∃ out v, out.length < 2 ^ 16 ∧ t = s.finishPacket out v := by
  cases exec_effect h with
  | pktEncFailed q c hc => exact Or.inl ⟨c, _, hc, rfl⟩
  | pktEnc q content r _ hr => exact Or.inr ⟨_, _, encodeFrame_length_lt hr, rfl⟩
  | pktDecTooLong e => exact Or.inl ⟨.badLength, _, by decide, rfl⟩
  | pktDecFailed e r _ hc => exact Or.inl ⟨_, _, hc, rfl⟩
  | pktDec e r hr => exact Or.inr ⟨_, _, decodeInput_content_lt hr, rfl⟩
  | _ => simp at hi

theorem pktEnc_outLen {q : Byte} {s t : State} (h : exec (.pktEnc q) s = .next t) (hok : t.code = .ok) :
    t.outLen.toNat = 3 + s.encodeCap + trailerLen s.imode := by
  cases exec_effect h with
  | pktEncFailed q c hc => exact absurd hok hc
  | pktEnc q content r _ hr =>
    rw [finishPacket_outLen_toNat s _ (encodeFrame_length_lt hr), encodeFrame_length_of_state hr]

theorem pktDec_outLen {e : Byte} {s t : State} {f : Bytes} (hc : s.ibuf.Canonical) (hf : s.InputIs f)
    (h : exec (.pktDec e) s = .next t) (hok : t.code = .ok) :
    t.outLen.toNat = (decodeFrame s.params.largeCap f s.imode e).content.length := by
  have hdec := decodeInput_eq_of_inputIs hc hf e
  cases exec_effect h with
  | pktDecTooLong => cases hok
  | pktDecFailed e r _ hbad => exact absurd hok hbad
  | pktDec e r hr =>
    cases hdec.symm.trans hr
    exact finishPacket_outLen_toNat s _ (decodeInput_content_lt hr)

/-- Settles O48.  The invariant is not needed: a packet command bounds its own output. -/
theorem outLenRegister : Obligations.OutLenRegister := by
  refine ⟨fun s => ⟨readsAs_readReg s .outLen, rejectsWrites (by decide) (by decide) s⟩, fun _ => rfl, ?_,
    fun _ _ _ => pktEnc_outLen, fun _ _ _ _ => pktDec_outLen, ?_⟩
  · intro s t h hr henc hdec
    refine step_keeps State.outLen (fun _ _ _ _ _ _ => rfl) h hr fun i u hi hx => ?_
    exact exec_keeps_outLen hx (fun q hq => henc q (hq ▸ hi)) fun q hq => hdec q (hq ▸ hi)
  · intro q s t i _ hi h
    rcases packet_next hi h with ⟨c, v, -, rfl⟩ | ⟨out, v, hlen, rfl⟩
    · exact ⟨fun _ => rfl, fun j hj => absurd hj (Nat.not_lt_zero j)⟩
    · exact ⟨fun hbad => absurd rfl hbad, finishPacket_output_written s v hlen⟩

/-! ### The parameter registers (R38) -/

/-- Settles O49: the parameters are small enough for a word, and nothing writes them. -/
theorem parameterRegisters : Obligations.ParameterRegisters := by
  refine ⟨?_, fun _ => rfl, fun _ _ => step_keeps_params, fun s => ⟨rejectsWrites (by decide) (by decide) s,
    rejectsWrites (by decide) (by decide) s, rejectsWrites (by decide) (by decide) s⟩⟩
  rintro s ⟨-, -, hibuf, -, hobuf⟩
  have hcap := largeCap_bytes_le s.params.largeCap
  refine ⟨_, _, _, readsAs_readReg s .paramCap, ?_, readsAs_readReg s .paramIbuf, ?_, readsAs_readReg s .paramObuf, ?_⟩
  all_goals exact Nat.mod_eq_of_lt (by omega)

/-! ### CMD and STATUS (R30, R31, R40) -/

/-- Every end of a command overwrites STATUS.CODE, and nothing a command reads depends on it. -/
theorem exec_code_irrelevant (i : Instr) (c : StatusCode) (s : State) : exec i { s with code := c } = exec i s := by
  cases i <;> rfl

/-- Settles O21: `exec_code_irrelevant` for a legal word; an illegal one writes CODE and nothing else. -/
theorem noCommandReadsStatus : Obligations.NoCommandReadsStatus := by
  intro w c s
  cases hw : decode w with
  | ok i => rw [command_of_ok hw, command_of_ok hw, exec_code_irrelevant]
  | error e => rw [command_of_error hw, command_of_error hw]; rfl

/-- Settles O41: a word is its three fields, and the decoder answers an error where RSV is not 0. -/
theorem cmdRegister : Obligations.CmdRegister := by
  refine ⟨fun s => readsAs_readReg s .cmd, fun s w rest => step_w32 s .cmd w rest, fun w => (word_eq_fields w).symm, ?_⟩
  intro w s hw
  obtain ⟨e, he⟩ := decode_error_of_rsv hw
  exact command_of_error he s

theorem statusWord_fields (s : State) : (statusWord s).extractLsb' 0 4 = s.code.bits
    ∧ (statusWord s).extractLsb' 4 28 = 0#28 ∧ (statusWord s).toNat ≤ 7 := by
  unfold statusWord
  cases s.code <;> decide

/-- Settles O42: the eight codes are 0 to 7, and a command's outcome does not depend on the code before (O21). -/
theorem statusRegister : Obligations.StatusRegister := by
  refine ⟨fun s => ⟨statusWord s, readsAs_readReg s .status, statusWord_fields s⟩, by decide, ?_,
    fun p => readsAs_readReg (State.resetWith p) .status, rejectsWrites (by decide) (by decide)⟩
  intro w c s t h
  rw [noCommandReadsStatus, h]

/-! ### Reset (R44, R210, R211) -/

/-- Settles O54: the step is `assertReset`, and its fields are the reset values. -/
theorem resetValues : Obligations.ResetValues := by
  intro s rest
  exact ⟨State.assertReset { s with pending := rest }, rfl, rfl, rfl, rfl, rfl, rfl, rfl, rfl, rfl,
    cfgWord_of_reset_values rfl rfl rfl, rfl, rfl, rfl, rfl, fun _ => ⟨rfl, rfl⟩⟩

end Sys2Proof.Machine
end

section
/-! PROOFS. Laws of the buffers and of host accesses: OBUF is no command's operand, and a read, or a write
repeated, changes nothing further. -/

namespace Sys2Proof.Machine

open Sys2Proof

/-! ### What a command does, up to OBUF -/

/-- The state with its OBUF forgotten: two states have the same one exactly where they differ in OBUF at most. -/
def State.forgetOutput (s : State) : State := { s with obuf := [] }

section
variable (m : Memory) (s : State)

theorem inputBlind_setObuf : InputBlind (fun t => { t with obuf := m }) where
  params _ := rfl
  inLen _ := rfl
  ibuf _ := rfl

/-- PKT.DEC's reads are of IBUF (44_packet_decode.md R160). -/
theorem decodeInput_setObuf (e : Byte) : State.decodeInput { s with obuf := m } e = s.decodeInput e := rfl

theorem finishDecode_setObuf (r : Decoded) :
    (State.finishDecode { s with obuf := m } r).forgetOutput = (s.finishDecode r).forgetOutput := by
  unfold State.finishDecode
  cases r.code <;> rfl

theorem feed_setObuf {k k' : Bytes → State} (hk : ∀ data, (k' data).forgetOutput = (k data).forgetOutput) :
    onNext State.forgetOutput (feed { s with obuf := m } k') = onNext State.forgetOutput (feed s k) := by
  have hf := inputBlind_setObuf m
  unfold feed
  rw [hf.inputTooLong, hf.input]
  cases s.inputTooLong with
  | true => rfl
  | false =>
    cases s.input with
    | none => rfl
    | some data => exact congrArg done (hk data)

theorem execPktEnc_setObuf (q : Byte) :
    onNext State.forgetOutput (execPktEnc q { s with obuf := m })
      = onNext State.forgetOutput (execPktEnc q s) := by
  have hf := inputBlind_setObuf m
  have hcap : State.encodeCap { s with obuf := m } = s.encodeCap := rfl
  have hmax : State.encodeContentCap { s with obuf := m } = s.encodeContentCap := rfl
  unfold execPktEnc
  rw [hf.inputTooLong, hf.input, hmax, hcap]
  split
  · rfl
  · split
    · rfl
    · cases s.input with
      | none => rfl
      | some content =>
        dsimp only
        cases encodeFrame q content s.encodeCap s.pad s.imode <;> rfl

theorem execPktDec_setObuf (e : Byte) :
    onNext State.forgetOutput (execPktDec e { s with obuf := m })
      = onNext State.forgetOutput (execPktDec e s) := by
  unfold execPktDec
  rw [(inputBlind_setObuf m).inputTooLong, decodeInput_setObuf]
  cases s.inputTooLong with
  | true => rfl
  | false =>
    cases s.decodeInput e with
    | none => rfl
    | some r => exact congrArg done (finishDecode_setObuf m s r)

/-- No command reads OBUF (20_memory.md R53). -/
theorem exec_setObuf (i : Instr) :
    onNext State.forgetOutput (exec i { s with obuf := m }) = onNext State.forgetOutput (exec i s) := by
  cases i with
  | csumFeed | crcFeed => exact feed_setObuf m s fun _ => rfl
  | pktEnc q => exact execPktEnc_setObuf m s q
  | pktDec e => exact execPktDec_setObuf m s e
  | csumSeed | crcSeed | cfgPad | cfgImode | cfgBmode => rfl

end

/-! ### Host reads -/

section
variable {s t : State} {addr : Nat}

theorem readReg_setReads (r : Reg) (s : State) (l : List ReadValue) : readReg r { s with reads := l } = readReg r s := by
  cases r <;> rfl

theorem returnByte_next {b : Option Byte} {f : Fault} (h : returnByte b f s = .next t) : ∃ v, b = some v := by
  cases b with
  | none => cases h
  | some v => exact ⟨v, rfl⟩

/-- A 32-bit read that is admitted returns a value that does not depend on the earlier reads. -/
theorem hostRead32_setReads (h : hostRead32 addr s = .next t) :
    ∃ v, ∀ l, hostRead32 addr { s with reads := l } = .next { s with reads := v :: l } := by
  unfold hostRead32 at h ⊢
  cases hr : wordAccess s.params addr with
  | error f => rw [hr] at h; cases h
  | ok r =>
    refine ⟨.word (readReg r s), fun l => ?_⟩
    dsimp only
    rw [hr, readReg_setReads]
    rfl

/-- An 8-bit read that is admitted returns a value that does not depend on the earlier reads. -/
theorem hostRead8_setReads (h : hostRead8 addr s = .next t) :
    ∃ v, ∀ l, hostRead8 addr { s with reads := l } = .next { s with reads := v :: l } := by
  unfold hostRead8 at h ⊢
  cases hp : placeOf s.params addr with
  | registers | reserved | outside => rw [hp] at h; cases h
  | input i | output i =>
    simp only [hp] at h ⊢
    split at h
    · cases h
    · next hi =>
      obtain ⟨v, hv⟩ := returnByte_next h
      refine ⟨.byte v, fun l => ?_⟩
      rw [if_neg hi, hv]
      rfl

/-- A host read that is admitted returns a value that does not depend on the earlier reads, and changes nothing
but the host's list of values (20_memory.md R57). -/
theorem perform_read_setReads {e : HostEvent} (he : (∃ a, e = .r32 a) ∨ (∃ a, e = .r8 a)) (h : perform e s = .next t) :
    ∃ v, ∀ l, perform e { s with reads := l } = .next { s with reads := v :: l } := by
  rcases he with ⟨a, rfl⟩ | ⟨a, rfl⟩
  · exact hostRead32_setReads h
  · exact hostRead8_setReads h

/-! ### Host writes, repeated -/

theorem Memory.write_write_same (m : Memory) (a : Nat) (b : Byte) : (m.write a b).write a b = m.write a b := by
  induction m with
  | nil => simp [Memory.write]
  | cons c m ih =>
    obtain ⟨k, v⟩ := c
    by_cases hlt : a < k
    · simp [Memory.write, hlt]
    · by_cases heq : a = k
      · simp [Memory.write, heq]
      · simp [Memory.write, hlt, heq, ih]

theorem storeInput_storeInput_same (s : State) (i : Nat) (b : Byte) :
    (s.storeInput i b).storeInput i b = s.storeInput i b := by
  simp only [State.storeInput, Memory.write_write_same]

/-- Everything an 8-bit write can answer with: the byte is stored in IBUF. -/
theorem hostWrite8_next {b : Byte} (h : hostWrite8 addr b s = .next t) :
    ∃ i, placeOf s.params addr = .input i ∧ ¬ s.params.ibufSize ≤ i ∧ t = s.storeInput i b := by
  unfold hostWrite8 at h
  cases hp : placeOf s.params addr with
  | registers | output | reserved | outside => rw [hp] at h; cases h
  | input i =>
    simp only [hp] at h
    split at h
    · cases h
    · next hi => cases h; exact ⟨i, rfl, hi, rfl⟩

theorem hostWrite8_again {b : Byte} (h : hostWrite8 addr b s = .next t) : hostWrite8 addr b t = .next t := by
  obtain ⟨i, hp, hi, rfl⟩ := hostWrite8_next h
  unfold hostWrite8
  rw [State.storeInput_params, hp]
  dsimp only
  rw [if_neg hi, storeInput_storeInput_same]

theorem writeReg_inLen_again {v : Word} (h : writeReg .inLen v s = .next t) : writeReg .inLen v t = .next t := by
  unfold writeReg at h ⊢
  dsimp only at h ⊢
  split at h
  · next hv => cases h; rw [if_pos hv]; rfl
  · cases h

end

/-! ### Chained input -/

theorem checksum_append (d e : Bytes) (seed : Byte) : checksum (d ++ e) seed = checksum e (checksum d seed) :=
  List.foldl_append

theorem crc16_append (d e : Bytes) (seed : Half) : crc16 (d ++ e) seed = crc16 e (crc16 d seed) :=
  List.foldl_append

end Sys2Proof.Machine
end

section
/-! PROOFS. The buffers and accesses of 20_memory.md: the statements on what commands and the host's accesses
read and write, settled. -/

namespace Sys2Proof.Machine

open Sys2Proof

/-- Settles O22: `exec_setObuf`, and no shape of a command's next state writes the input side. -/
theorem commandsReadNoOutputAndWriteNoInput : Obligations.CommandsReadNoOutputAndWriteNoInput := by
  refine ⟨fun i m s => exec_setObuf m s i, fun i s t h => ?_⟩
  cases exec_next h <;> exact ⟨rfl, rfl, rfl, rfl, rfl⟩

/-- Settles O52: a read's value does not depend on the reads before it, a stored value stored again is the same
state, and a FEED leaves the input that the next FEED reads. -/
theorem readsHaveNoSideEffect : Obligations.ReadsHaveNoSideEffect := by
  refine ⟨?_, fun _ _ _ _ => hostWrite8_again, ?_, ?_⟩
  · intro e s t he h
    obtain ⟨v, hv⟩ := perform_read_setReads he h
    cases h.symm.trans (hv s.reads)
    exact ⟨v, rfl, hv (v :: s.reads)⟩
  · intro v s t h
    rw [perform_w32 _ _ _ _ rfl] at h ⊢
    exact writeReg_inLen_again h
  · intro s data hc hl hd
    constructor
    · refine ⟨_, _, feed_of_inputIs _ hc hl hd, feed_of_inputIs _ hc hl hd, ?_⟩
      exact (checksum_append data data s.sumAcc).symm
    · refine ⟨_, _, feed_of_inputIs _ hc hl hd, feed_of_inputIs _ hc hl hd, ?_⟩
      exact (crc16_append data data s.crcAcc).symm

end Sys2Proof.Machine
end

section
/-! PROOFS. Laws of the command encoding: what the decoder accepts, by the form of the OP, and the numbers a row of
the opcode map matches. -/

namespace Sys2Proof

/-! ### Fields and words as numbers -/

theorem hiByte_eq_zero_iff (v : Half) : hiByte v = 0#8 ↔ v.toNat < 2 ^ 8 := by
  have hv := v.isLt
  rw [← BitVec.toNat_inj, hiByte, BitVec.extractLsb'_toNat, Nat.shiftRight_eq_div_pow, BitVec.toNat_ofNat]
  omega

theorem cmdWord_toNat (op : Byte) (imm : Half) : (cmdWord op imm).toNat = op.toNat * 2 ^ 24 + imm.toNat := by
  have himm := imm.isLt
  rw [cmdWord, BitVec.toNat_append, BitVec.toNat_append, ← Nat.shiftLeft_add_eq_or_of_lt himm,
    ← Nat.shiftLeft_add_eq_or_of_lt (by simp)]
  simp only [Nat.shiftLeft_eq, BitVec.toNat_ofNat]
  omega

/-! ### What each form accepts (R71) -/

theorem formNone_ok_iff {imm : Half} {i j : Instr} : formNone imm i = .ok j ↔ imm = 0#16 ∧ i = j := by
  unfold formNone
  split <;> simp_all

theorem formImm1_ok_iff {imm : Half} {mk : Bool → Instr} {j : Instr} :
    formImm1 imm mk = .ok j ↔ imm.toNat < 2 ∧ mk (imm.getLsbD 0) = j := by
  have hv := imm.isLt
  have hhigh : imm.extractLsb' 1 15 = 0#15 ↔ imm.toNat < 2 := by
    rw [← BitVec.toNat_inj, BitVec.extractLsb'_toNat, Nat.shiftRight_eq_div_pow, BitVec.toNat_ofNat]
    omega
  unfold formImm1
  rw [← hhigh]
  split <;> simp_all

theorem formImm8_ok_iff {imm : Half} {mk : Byte → Instr} {j : Instr} :
    formImm8 imm mk = .ok j ↔ imm.toNat < 2 ^ 8 ∧ mk (loByte imm) = j := by
  unfold formImm8
  rw [← hiByte_eq_zero_iff]
  split <;> simp_all

/-! ### The decoder, by the OP -/

/-- An OP is one of the nine listed ones, or has no form and makes no instruction (R72, R73). -/
theorem op_cases (op : Byte) :
    op = 0x01#8 ∨ op = 0x02#8 ∨ op = 0x03#8 ∨ op = 0x04#8 ∨ op = 0x10#8 ∨ op = 0x11#8 ∨ op = 0x12#8 ∨ op = 0x20#8
      ∨ op = 0x21#8 ∨ (formOfOp op = none ∧ ∀ imm, decodeOp op imm = .error .unlistedOp) := by
  unfold formOfOp decodeOp
  grind

/-- An OP makes an instruction of exactly the IMMs that its form admits (R71). -/
theorem decodeOp_isOk_iff (op : Byte) (imm : Half) :
    (∃ i, decodeOp op imm = .ok i) ↔ ∃ f, formOfOp op = some f ∧ imm.toNat < 2 ^ f.width := by
  have himm := imm.isLt
  have hnone (i : Instr) : (∃ j, formNone imm i = .ok j) ↔ imm.toNat < 2 ^ Form.none.width := by
    simp [formNone_ok_iff, Form.width, BitVec.toNat_eq]
  have himm1 (mk : Bool → Instr) : (∃ j, formImm1 imm mk = .ok j) ↔ imm.toNat < 2 ^ Form.imm1.width := by
    simp [formImm1_ok_iff, Form.width]
  have himm8 (mk : Byte → Instr) : (∃ j, formImm8 imm mk = .ok j) ↔ imm.toNat < 2 ^ Form.imm8.width := by
    simp [formImm8_ok_iff, Form.width]
  have himm16 (mk : Half → Instr) : (∃ j, formImm16 imm mk = .ok j) ↔ imm.toNat < 2 ^ Form.imm16.width :=
    ⟨fun _ => himm, fun _ => ⟨_, rfl⟩⟩
  have hlisted {f : Form} (hf : formOfOp op = some f) (h : (∃ i, decodeOp op imm = .ok i) ↔ imm.toNat < 2 ^ f.width) :
      (∃ i, decodeOp op imm = .ok i) ↔ ∃ f, formOfOp op = some f ∧ imm.toNat < 2 ^ f.width := by
    simp [h, hf]
  rcases op_cases op with rfl | rfl | rfl | rfl | rfl | rfl | rfl | rfl | rfl | ⟨hf, hd⟩
  · exact hlisted rfl (himm8 _)
  · exact hlisted rfl (hnone _)
  · exact hlisted rfl (himm16 _)
  · exact hlisted rfl (hnone _)
  · exact hlisted rfl (himm8 _)
  · exact hlisted rfl (himm1 fun b => .cfgImode (imodeOfBit b))
  · exact hlisted rfl (himm1 fun b => .cfgBmode (bmodeOfBit b))
  · exact hlisted rfl (himm8 _)
  · exact hlisted rfl (himm8 _)
  · simp [hf, hd]

theorem decode_ok_iff {w : Word} {i : Instr} :
    decode w = .ok i ↔ rsvField w = 0#8 ∧ decodeOp (opField w) (immField w) = .ok i := by
  unfold decode
  cases decodeOp (opField w) (immField w) with
  | error e => simp
  | ok j => dsimp only; split <;> simp_all

theorem decode_isError_iff (w : Word) : (∃ e, decode w = .error e) ↔ ¬ ∃ i, decode w = .ok i := by
  cases decode w <;> simp

/-- The legal words are the well-formed ones (R74). -/
theorem decode_isOk_iff (w : Word) : (∃ i, decode w = .ok i) ↔ (cmd32 w).wellFormed = true := by
  have hop := decodeOp_isOk_iff (opField w) (immField w)
  simp only [decode_ok_iff, exists_and_left, hop]
  unfold cmd32 Cmd32.wellFormed
  cases formOfOp (opField w) <;> simp

@[simp] theorem decode_cmdWord (op : Byte) (imm : Half) : decode (cmdWord op imm) = decodeOp op imm := by
  unfold decode
  rw [opField_cmdWord, immField_cmdWord, rsvField_cmdWord]
  cases decodeOp op imm <;> rfl

/-! ### Which words are illegal (R74) -/

/-- The OPs of each form (R72). -/
def Form.ops : Form → List Byte
  | .none => [0x02#8, 0x04#8]
  | .imm1 => [0x11#8, 0x12#8]
  | .imm8 => [0x01#8, 0x10#8, 0x20#8, 0x21#8]
  | .imm16 => [0x03#8]

theorem formOfOp_eq_some_iff (op : Byte) (f : Form) : formOfOp op = some f ↔ op ∈ f.ops := by
  constructor
  · have hmem {g : Form} (hg : op ∈ g.ops) (h : some g = some f) : op ∈ f.ops := Option.some.inj h ▸ hg
    rcases op_cases op with rfl | rfl | rfl | rfl | rfl | rfl | rfl | rfl | rfl | ⟨hf, -⟩
    iterate 9 exact hmem (by decide)
    · simp [hf]
  · have hops : ∀ o ∈ f.ops, formOfOp o = some f := by cases f <;> decide
    exact hops op

/-- The OPs outside the map, as R74 lists them. -/
theorem formOfOp_eq_none_iff (op : Byte) : formOfOp op = none ↔
    op.toNat = 0x00 ∨ (0x05 ≤ op.toNat ∧ op.toNat ≤ 0x0F) ∨ (0x13 ≤ op.toNat ∧ op.toNat ≤ 0x1F)
      ∨ 0x22 ≤ op.toNat := by
  have hlisted : formOfOp op = none ↔ ∀ f : Form, op ∉ f.ops := by
    simp only [← formOfOp_eq_some_iff, Option.eq_none_iff_forall_ne_some, ne_eq]
  have hforms : (∀ f : Form, op ∉ f.ops) ↔
      op ∉ Form.none.ops ∧ op ∉ Form.imm1.ops ∧ op ∉ Form.imm8.ops ∧ op ∉ Form.imm16.ops :=
    ⟨fun h => ⟨h _, h _, h _, h _⟩, fun ⟨h1, h2, h3, h4⟩ f => by cases f <;> assumption⟩
  rw [hlisted, hforms]
  simp only [Form.ops, List.mem_cons, List.not_mem_nil, or_false, BitVec.toNat_eq, BitVec.toNat_ofNat]
  omega

/-- The illegal words, by the three cases of R74. -/
theorem decode_isError_iff_cases (w : Word) : (∃ e, decode w = .error e) ↔
    formOfOp (opField w) = none ∨ rsvField w ≠ 0#8
      ∨ ∃ f : Form, opField w ∈ f.ops ∧ 2 ^ f.width ≤ (immField w).toNat := by
  rw [decode_isError_iff, decode_isOk_iff]
  simp only [← formOfOp_eq_some_iff]
  unfold cmd32 Cmd32.wellFormed
  cases formOfOp (opField w) with
  | none => simp
  | some f => simp [imp_iff_not_or]

/-! ### Decoding and encoding undo each other -/

/-- Decoding an instruction's word gives the instruction back. -/
theorem decode_encode (i : Instr) : decode (encode i) = .ok i := by
  have himm8 (b : Byte) (mk : Byte → Instr) : formImm8 (zext16 b) mk = .ok (mk b) := by
    rw [formImm8_ok_iff, ← hiByte_eq_zero_iff, hiByte_zext16, loByte_zext16]
    exact ⟨rfl, rfl⟩
  cases i with
  | csumSeed b => exact (decode_cmdWord ..).trans (himm8 b _)
  | cfgPad b => exact (decode_cmdWord ..).trans (himm8 b _)
  | pktEnc b => exact (decode_cmdWord ..).trans (himm8 b _)
  | pktDec b => exact (decode_cmdWord ..).trans (himm8 b _)
  | crcSeed h => exact decode_cmdWord ..
  | csumFeed | crcFeed => exact decode_cmdWord ..
  | cfgImode m | cfgBmode m => cases m <;> exact decode_cmdWord ..

theorem zext16_loByte {v : Half} (h : v.toNat < 2 ^ 8) : zext16 (loByte v) = v := by
  apply BitVec.eq_of_toNat_eq
  simp only [zext16, loByte, BitVec.toNat_setWidth, BitVec.extractLsb'_toNat, Nat.shiftRight_zero]
  omega

theorem lt_two_cases {v : Half} (h : v.toNat < 2) : v = 0#16 ∨ v = 1#16 := by
  simp only [← BitVec.toNat_inj, BitVec.toNat_ofNat]
  omega

/-- The instruction that an OP and an IMM make has them in its word: no bit of IMM is dropped. -/
theorem encode_of_decodeOp {op : Byte} {imm : Half} {i : Instr} (h : decodeOp op imm = .ok i) :
    encode i = cmdWord op imm := by
  have himm8 {mk : Byte → Instr} (h : formImm8 imm mk = .ok i) : ∃ b, i = mk b ∧ zext16 b = imm := by
    obtain ⟨hlt, rfl⟩ := formImm8_ok_iff.mp h
    exact ⟨_, rfl, zext16_loByte hlt⟩
  have himm1 (mk : Bool → Instr) (h : formImm1 imm mk = .ok i) :
      (imm = 0#16 ∧ i = mk false) ∨ (imm = 1#16 ∧ i = mk true) := by
    obtain ⟨hlt, rfl⟩ := formImm1_ok_iff.mp h
    exact (lt_two_cases hlt).imp (fun h0 => ⟨h0, h0 ▸ rfl⟩) fun h1 => ⟨h1, h1 ▸ rfl⟩
  have hnone {j : Instr} (h : formNone imm j = .ok i) : imm = 0#16 ∧ i = j := (formNone_ok_iff.mp h).imp_right Eq.symm
  rcases op_cases op with rfl | rfl | rfl | rfl | rfl | rfl | rfl | rfl | rfl | ⟨-, hd⟩
  · obtain ⟨b, rfl, rfl⟩ := himm8 h; rfl
  · obtain ⟨rfl, rfl⟩ := hnone h; rfl
  · cases h; rfl
  · obtain ⟨rfl, rfl⟩ := hnone h; rfl
  · obtain ⟨b, rfl, rfl⟩ := himm8 h; rfl
  · obtain ⟨rfl, rfl⟩ | ⟨rfl, rfl⟩ := himm1 (fun b => .cfgImode (imodeOfBit b)) h <;> rfl
  · obtain ⟨rfl, rfl⟩ | ⟨rfl, rfl⟩ := himm1 (fun b => .cfgBmode (bmodeOfBit b)) h <;> rfl
  · obtain ⟨b, rfl, rfl⟩ := himm8 h; rfl
  · obtain ⟨b, rfl, rfl⟩ := himm8 h; rfl
  · rw [hd] at h; cases h

/-- A legal word is the word of what it decodes to. -/
theorem encode_of_decode {w : Word} {i : Instr} (h : decode w = .ok i) : encode i = w := by
  obtain ⟨hrsv, hop⟩ := decode_ok_iff.mp h
  have hw := word_eq_fields w
  rw [hrsv] at hw
  exact (encode_of_decodeOp hop).trans hw

/-! ### The numbers a row of the opcode map matches (R72) -/

/-- A value splits into its bits under a mask and its bits outside the mask. -/
theorem and_mask_toNat_add {n : Nat} (w m : BitVec n) : (w &&& m).toNat + (w &&& ~~~m).toNat = w.toNat := by
  have hdisj : (w &&& m) &&& (w &&& ~~~m) = 0#n := by
    ext i
    cases hm : m[i] <;> simp [hm]
  have hor : (w &&& m) ||| (w &&& ~~~m) = w := by
    ext i
    cases hm : m[i] <;> simp [hm]
  rw [← BitVec.toNat_add_of_and_eq_zero hdisj, BitVec.add_eq_or_of_and_eq_zero _ _ hdisj, hor]

/-- A mask that leaves the low `k` bits free matches a run of 2^k numbers. -/
theorem and_mask_eq_iff {n k : Nat} {w m p : BitVec n} (hm : (~~~m).toNat = 2 ^ k - 1) (hp : 2 ^ k ∣ p.toNat) :
    w &&& m = p ↔ p.toNat ≤ w.toNat ∧ w.toNat < p.toNat + 2 ^ k := by
  have hadd := and_mask_toNat_add w m
  have hfree : (w &&& ~~~m).toNat = w.toNat % 2 ^ k := by rw [BitVec.toNat_and, hm, Nat.and_two_pow_sub_one_eq_mod]
  have hlt : w.toNat % 2 ^ k < 2 ^ k := Nat.mod_lt _ (Nat.two_pow_pos k)
  rw [hfree] at hadd
  rw [← BitVec.toNat_inj]
  constructor
  · intro h
    omega
  · rintro ⟨hle, hub⟩
    obtain ⟨q, hq⟩ := hp
    obtain ⟨d, hd⟩ := Nat.exists_eq_add_of_le hle
    have hmod : w.toNat % 2 ^ k = d := by rw [hd, hq, Nat.mul_add_mod, Nat.mod_eq_of_lt (by omega)]
    omega

/-- The bits that a row's mask leaves free, as the largest operand. -/
def OpcodeRow.maxOperand (r : OpcodeRow) : Nat := (~~~r.mask).toNat

/-- A row matches the numbers from its pattern on, one for each operand. -/
theorem row_matches_iff {r : OpcodeRow} (hr : r ∈ opcodeTable) (w : Word) :
    w &&& r.mask = r.pattern ↔ r.pattern.toNat ≤ w.toNat ∧ w.toNat ≤ r.pattern.toNat + r.maxOperand := by
  have hrows : ∀ r ∈ opcodeTable, ∃ k ≤ 16, r.maxOperand = 2 ^ k - 1 ∧ 2 ^ k ∣ r.pattern.toNat := by decide
  obtain ⟨k, -, hm, hp⟩ := hrows r hr
  have hpos := Nat.two_pow_pos k
  rw [and_mask_eq_iff hm hp]
  omega

/-- The operand of a matching word: the bits the mask leaves free. -/
theorem row_operand {r : OpcodeRow} {w : Word} (h : w &&& r.mask = r.pattern) :
    (w &&& ~~~r.mask).toNat = w.toNat - r.pattern.toNat := by
  have hadd := and_mask_toNat_add w r.mask
  rw [h] at hadd
  omega

/-- No two rows match one number. -/
theorem rows_disjoint : opcodeTable.Pairwise fun r q => r.pattern.toNat + r.maxOperand < q.pattern.toNat := by decide

/-! ### The row of an instruction -/

/-- The instruction's row in the opcode map, by its place there. -/
def Instr.rowIndex : Instr → Fin 9
  | .csumSeed _ => 0
  | .csumFeed => 1
  | .crcSeed _ => 2
  | .crcFeed => 3
  | .cfgPad _ => 4
  | .cfgImode _ => 5
  | .cfgBmode _ => 6
  | .pktEnc _ => 7
  | .pktDec _ => 8

/-- The instruction's row in the opcode map (R72). -/
def Instr.row (i : Instr) : OpcodeRow := opcodeTable.get i.rowIndex

theorem row_mem (i : Instr) : i.row ∈ opcodeTable := List.get_mem ..

theorem row_mnemonic (i : Instr) : i.row.mnemonic = i.mnemonic := by
  cases i <;> rfl

theorem zext16_toNat (b : Byte) : (zext16 b).toNat = b.toNat := by
  have hb := b.isLt
  rw [zext16, BitVec.toNat_setWidth]
  omega

/-- An instruction's word is its row's pattern with the operand in the free bits. -/
theorem encode_toNat (i : Instr) : (encode i).toNat = i.row.pattern.toNat + i.operand := by
  have himm8 (op b : Byte) : (cmdWord op (zext16 b)).toNat = op.toNat * 2 ^ 24 + b.toNat := by
    rw [cmdWord_toNat, zext16_toNat]
  cases i with
  | csumSeed b | cfgPad b | pktEnc b | pktDec b => exact himm8 _ b
  | crcSeed h => exact cmdWord_toNat _ h
  | csumFeed | crcFeed => rfl
  | cfgImode m | cfgBmode m => cases m <;> rfl

theorem row_maxOperand (i : Instr) : i.row.maxOperand = 2 ^ i.form.width - 1 := by
  have hrows : ∀ k : Fin 9,
      (opcodeTable.get k).maxOperand = [0xFF, 0, 0xFFFF, 0, 0xFF, 1, 1, 0xFF, 0xFF].get k := by decide
  exact (hrows i.rowIndex).trans (by cases i <;> rfl)

theorem operand_lt (i : Instr) : i.operand < 2 ^ i.form.width := by
  cases i with
  | csumSeed b | cfgPad b | pktEnc b | pktDec b => exact b.isLt
  | crcSeed h => exact h.isLt
  | csumFeed | crcFeed => exact Nat.one_pos
  | cfgImode m | cfgBmode m => cases m <;> decide

theorem encode_matches_row (i : Instr) : encode i &&& i.row.mask = i.row.pattern := by
  have hlt := operand_lt i
  rw [row_matches_iff (row_mem i), encode_toNat, row_maxOperand]
  omega

/-- Every row is an instruction's, for each operand that the row's free bits can hold. -/
theorem exists_instr_of_row {r : OpcodeRow} (hr : r ∈ opcodeTable) {n : Nat} (hn : n ≤ r.maxOperand) :
    ∃ i : Instr, i.row = r ∧ i.operand = n := by
  have hbyte (h : n ≤ 0xFF) : (BitVec.ofNat 8 n).toNat = n := Nat.mod_eq_of_lt (Nat.lt_succ_of_le h)
  have hhalf (h : n ≤ 0xFFFF) : (BitVec.ofNat 16 n).toNat = n := Nat.mod_eq_of_lt (Nat.lt_succ_of_le h)
  simp only [opcodeTable, List.mem_cons, List.not_mem_nil, or_false] at hr
  rcases hr with rfl | rfl | rfl | rfl | rfl | rfl | rfl | rfl | rfl
  · exact ⟨.csumSeed (BitVec.ofNat 8 n), rfl, hbyte hn⟩
  · exact ⟨.csumFeed, rfl, (Nat.le_zero.mp hn).symm⟩
  · exact ⟨.crcSeed (BitVec.ofNat 16 n), rfl, hhalf hn⟩
  · exact ⟨.crcFeed, rfl, (Nat.le_zero.mp hn).symm⟩
  · exact ⟨.cfgPad (BitVec.ofNat 8 n), rfl, hbyte hn⟩
  · obtain rfl | rfl := Nat.le_one_iff_eq_zero_or_eq_one.mp hn
    · exact ⟨.cfgImode .checksum, rfl, rfl⟩
    · exact ⟨.cfgImode .crc, rfl, rfl⟩
  · obtain rfl | rfl := Nat.le_one_iff_eq_zero_or_eq_one.mp hn
    · exact ⟨.cfgBmode .xmodem, rfl, rfl⟩
    · exact ⟨.cfgBmode .xmodem1k, rfl, rfl⟩
  · exact ⟨.pktEnc (BitVec.ofNat 8 n), rfl, hbyte hn⟩
  · exact ⟨.pktDec (BitVec.ofNat 8 n), rfl, hbyte hn⟩

/-- A word that matches a row is the word of one of the row's instructions. -/
theorem decode_of_matches_row {r : OpcodeRow} (hr : r ∈ opcodeTable) {w : Word} (h : w &&& r.mask = r.pattern) :
    ∃ i, decode w = .ok i ∧ i.row = r ∧ i.operand = (w &&& ~~~r.mask).toNat := by
  obtain ⟨hle, hub⟩ := (row_matches_iff hr w).mp h
  obtain ⟨i, rfl, hi⟩ := exists_instr_of_row hr (n := w.toNat - r.pattern.toNat) (by omega)
  have hw : encode i = w := BitVec.eq_of_toNat_eq (by rw [encode_toNat]; omega)
  exact ⟨i, hw ▸ decode_encode i, rfl, hi.trans (row_operand h).symm⟩

end Sys2Proof
end

section
/-! PROOFS. The command encoding of 30_encoding.md: the statements on words, settled. -/

namespace Sys2Proof.Machine

open Sys2Proof

/-- Settles O3: rows and instructions correspond, so the words that match a row are those that decode. -/
theorem commandWordsAreTheRowsOfTheTable : Obligations.CommandWordsAreTheRowsOfTheTable := by
  refine ⟨?_, ?_, ?_⟩
  · intro w r hr h
    obtain ⟨i, hi, rfl, hop⟩ := decode_of_matches_row hr h
    exact ⟨i, hi, (row_mnemonic i).symm, hop, command_of_ok hi⟩
  · intro w hw
    obtain ⟨e, he⟩ : ∃ e, decode w = .error e := by
      rw [decode_isError_iff]
      rintro ⟨i, hi⟩
      exact hw i.row (row_mem i) (encode_of_decode hi ▸ encode_matches_row i)
    exact ⟨⟨e, he⟩, command_of_error he⟩
  · refine rows_disjoint.imp_of_mem fun hr hq hlt w ⟨h, h'⟩ => ?_
    have := (row_matches_iff hr w).mp h
    have := (row_matches_iff hq w).mp h'
    omega

/-- Settles O4: the cases of R74 one form at a time, and an illegal word's step is `illegalCommand`. -/
theorem illegalWordsChangeOnlyStatus : Obligations.IllegalWordsChangeOnlyStatus := by
  refine ⟨fun w => ?_, fun w e s rest he => (step_w32 s .cmd w rest).trans (command_of_error he _)⟩
  have hzero : immField w ≠ 0#16 ↔ 1 ≤ (immField w).toNat := by
    rw [ne_eq, ← BitVec.toNat_inj, BitVec.toNat_ofNat]
    omega
  have hfits : ¬ 2 ^ Form.imm16.width ≤ (immField w).toNat := Nat.not_le.mpr (immField w).isLt
  have hforms : (∃ f : Form, opField w ∈ f.ops ∧ 2 ^ f.width ≤ (immField w).toNat) ↔
      (opField w ∈ Form.none.ops ∧ 1 ≤ (immField w).toNat) ∨ (opField w ∈ Form.imm1.ops ∧ 2 ≤ (immField w).toNat)
        ∨ (opField w ∈ Form.imm8.ops ∧ 0x100 ≤ (immField w).toNat) := by
    constructor
    · rintro ⟨f, hop, hle⟩
      cases f with
      | none => exact Or.inl ⟨hop, hle⟩
      | imm1 => exact Or.inr (Or.inl ⟨hop, hle⟩)
      | imm8 => exact Or.inr (Or.inr ⟨hop, hle⟩)
      | imm16 => exact absurd hle hfits
    · rintro (h | h | h)
      · exact ⟨.none, h⟩
      · exact ⟨.imm1, h⟩
      · exact ⟨.imm8, h⟩
  rw [decode_isError_iff_cases, formOfOp_eq_none_iff, hforms, hzero]
  simp only [Form.ops, List.mem_cons, List.not_mem_nil, or_false]

end Sys2Proof.Machine
end

section
/-! PROOFS. Laws of a frame: where its fields lie. -/

namespace Sys2Proof.Machine

open Sys2Proof

theorem byte_sub_eq_not (b : Byte) : 255#8 - b = ~~~b := by
  apply BitVec.eq_of_toNat_eq
  have hb := b.isLt
  rw [BitVec.toNat_sub, BitVec.toNat_not, BitVec.toNat_ofNat]
  omega

/-- A part of a byte string, from where it begins, for as long as it is. -/
theorem slice_of_append {f before part after : Bytes} {a n : Nat} (hf : f = before ++ part ++ after)
    (ha : before.length = a) (hn : part.length = n) : slice f a n = part := by
  subst hf ha hn
  simp [slice]

/-- What an encoding is: the frame around the data field, with the trailer value computed over it (R140). -/
theorem encodeFrame_eq_some {seq : Byte} {content : Bytes} {cap : Nat} {pad : Byte} {m : IMode} {r : Encoded}
    (h : encodeFrame seq content cap pad m = some r) :
    content.length ≤ (framingOfCap cap).contentCap
      ∧ r.trailer = integrityValue m (dataField (framingOfCap cap) content pad)
      ∧ r.frame = frameAround (framingOfCap cap) seq (dataField (framingOfCap cap) content pad) m r.trailer := by
  simp only [encodeFrame] at h
  split at h
  · cases h
  · next hle => cases h; exact ⟨Nat.le_of_not_lt hle, rfl, rfl⟩

/-! ### The fields of a frame (R76) -/

section
variable {fr : Framing} {seq : Byte} {data : Bytes} {m : IMode} {tv : Half}

theorem frameAround_start : slice (frameAround fr seq data m tv) 0 1 = [fr.start] := rfl

theorem frameAround_seq : slice (frameAround fr seq data m tv) 1 1 = [seq] := rfl

theorem frameAround_complement : slice (frameAround fr seq data m tv) 2 1 = [255#8 - seq] := rfl

theorem frameAround_data {cap : Nat} (hd : data.length = cap) : slice (frameAround fr seq data m tv) 3 cap = data :=
  slice_of_append (before := fr.start :: seqPair seq) rfl rfl hd

theorem frameAround_trailer {cap : Nat} (hd : data.length = cap) :
    slice (frameAround fr seq data m tv) (3 + cap) (trailerLen m) = trailerBytes m tv :=
  slice_of_append (List.append_nil _).symm (by simp [hd]; omega) (trailerBytes_length m tv)

/-- A part of the data field lies 3 bytes later in the frame. -/
theorem frameAround_data_part {before part after : Bytes} {a n : Nat} (hd : data = before ++ part ++ after)
    (ha : before.length = a) (hn : part.length = n) : slice (frameAround fr seq data m tv) (3 + a) n = part := by
  refine slice_of_append (before := fr.start :: seqPair seq ++ before) (after := after ++ trailerBytes m tv) ?_ ?_ hn
  · simp [frameAround, hd]
  · simp [ha]; omega

end

/-- The trailer over a data field: its checksum, or its CRC with the most significant byte first (R79, R141). -/
theorem trailerBytes_integrityValue (m : IMode) (data : Bytes) : trailerBytes m (integrityValue m data) =
    match m with
    | .checksum => [checksum data 0#8]
    | .crc => be16 (crc16 data 0#16) := by
  cases m with
  | checksum => exact congrArg (fun b => [b]) (loByte_zext16 _)
  | crc => rfl

/-- The layout of a frame (R76): each field at its offset, of its size, and nothing between them. -/
structure FrameFields (fr : Framing) (seq : Byte) (content : Bytes) (pad : Byte) (m : IMode) (f : Bytes) : Prop where
  fits : content.length ≤ fr.cap - fr.prefixLen
  length : f.length = 3 + fr.cap + trailerLen m
  start : slice f 0 1 = [fr.start]
  sequence : slice f 1 1 = [seq]
  complement : slice f 2 1 = [~~~seq]
  lengthField : slice f 3 fr.prefixLen = lengthPrefix fr.prefixLen content.length
  body : slice f (3 + fr.prefixLen) content.length = content
  padding : slice f (3 + fr.prefixLen + content.length) (fr.cap - fr.prefixLen - content.length)
    = List.replicate (fr.cap - fr.prefixLen - content.length) pad
  trailer : slice f (3 + fr.cap) (trailerLen m) = trailerBytes m (integrityValue m (slice f 3 fr.cap))

/-- An encoded frame has the layout of its format. -/
theorem encodeFrame_fields {seq : Byte} {content : Bytes} {cap : Nat} {pad : Byte} {m : IMode} {r : Encoded}
    (hcap : 2 ≤ cap) (h : encodeFrame seq content cap pad m = some r) :
    FrameFields (framingOfCap cap) seq content pad m r.frame := by
  obtain ⟨hfits, htv, hframe⟩ := encodeFrame_eq_some h
  have hsize : (dataField (framingOfCap cap) content pad).length = (framingOfCap cap).cap := by
    rw [dataField_length content pad hcap hfits, framingOfCap_cap]
  have hprefix := lengthPrefix_length _ content.length (framingOfCap_prefixLen cap)
  rw [hframe, htv]
  exact {
    fits := hfits
    length := by rw [frameAround_length, hsize]
    start := frameAround_start
    sequence := frameAround_seq
    complement := frameAround_complement.trans (by rw [byte_sub_eq_not])
    lengthField := frameAround_data_part (before := []) (List.append_assoc ..) rfl hprefix
    body := frameAround_data_part rfl hprefix rfl
    padding := by
      rw [Nat.add_assoc]
      exact frameAround_data_part (List.append_nil _).symm (by rw [List.length_append, hprefix]) List.length_replicate
    trailer := by rw [frameAround_data hsize, frameAround_trailer hsize] }

end Sys2Proof.Machine
end

section
/-! PROOFS. The frame of 30_encoding.md: the statement on its layout, settled. -/

namespace Sys2Proof.Machine

open Sys2Proof

/-- Settles O24: the layout of either format, and the numbers of the format table. -/
theorem frameLayout : Obligations.FrameLayout := by
  refine ⟨?_, fun l => ⟨rfl, rfl, congrArg some (framingOfCap_large l)⟩, rfl, rfl, rfl, rfl, rfl, rfl, rfl⟩
  intro seq content pad m l b r h
  have hcap : 2 ≤ capOfMode l b := by cases b <;> cases l <;> decide
  have hfields := encodeFrame_fields hcap h
  cases b with
  | xmodem =>
    exact ⟨hfields.fits, hfields.length, hfields.start, hfields.sequence, hfields.complement, hfields.lengthField,
      hfields.body, hfields.padding, hfields.trailer.trans (trailerBytes_integrityValue m _)⟩
  | xmodem1k =>
    have hlarge : framingOfCap (capOfMode l .xmodem1k) = ⟨stx, capOfMode l .xmodem1k, 2⟩ := framingOfCap_large l
    rw [hlarge] at hfields
    exact ⟨hfields.fits, hfields.length, hfields.start, hfields.sequence, hfields.complement, hfields.lengthField,
      hfields.body, hfields.padding, hfields.trailer.trans (trailerBytes_integrityValue m _)⟩

end Sys2Proof.Machine
end

section
/-! PROOFS. Laws of the host's sequences: what one event does at the head of a sequence, and what the byte moves of
PUT and COPYBACK leave in IBUF. -/

namespace Sys2Proof.Machine

open Sys2Proof

/-! ### Bytes stored one at a time -/

/-- Storing a byte string one byte at a time, in index order (20_memory.md R55). -/
def Memory.writeBytes (m : Memory) (a : Nat) (bs : Bytes) : Memory :=
  (bs.zipIdx a).foldl (fun m p => m.write p.2 p.1) m

theorem Memory.writeBytes_cons (m : Memory) (a : Nat) (b : Byte) (bs : Bytes) :
    m.writeBytes a (b :: bs) = (m.write a b).writeBytes (a + 1) bs := rfl

/-- What a read gives after a byte string is stored: its byte inside the range, the old one outside. -/
theorem Memory.read_writeBytes (m : Memory) (a : Nat) (bs : Bytes) (i : Nat) :
    (m.writeBytes a bs).read i = if a ≤ i ∧ i < a + bs.length then bs[i - a]? else m.read i := by
  induction bs generalizing m a with
  | nil => rw [if_neg (by simp)]; rfl
  | cons b bs ih =>
    rw [Memory.writeBytes_cons, ih, List.length_cons]
    by_cases hi : i = a
    · subst hi
      rw [if_neg (by omega), if_pos (by omega), Memory.read_write_same]
      simp
    · rw [Memory.read_write_other m b hi]
      by_cases hin : a + 1 ≤ i ∧ i < a + 1 + bs.length
      · have hsub : i - a = i - (a + 1) + 1 := by omega
        rw [if_pos hin, if_pos (by omega), hsub, List.getElem?_cons_succ]
      · rw [if_neg hin, if_neg (by omega)]

/-- The input is the byte string just stored from index 0, with its length in IN_LEN. -/
theorem inputIs_writeBytes {s : State} {m : Memory} {bs : Bytes} (hm : s.ibuf = m.writeBytes 0 bs)
    (hl : bs.length = s.inLen.toNat) : s.InputIs bs := by
  refine ⟨hl, fun i hi => ?_⟩
  rw [hm, Memory.read_writeBytes, if_pos (by omega)]
  simp [hi]

/-! ### Byte accesses -/

theorem perform_w8_ibuf (s : State) {i : Nat} (hi : i < s.params.ibufSize) (hsize : s.params.ibufSize ≤ 0x4000)
    (b : Byte) : perform (.w8 (ibufAddr s.params i) b) s = .next (s.storeInput i b) := by
  simp only [perform, hostWrite8]
  rw [placeOf_ibuf s.params (by omega)]
  exact if_neg (by omega)

theorem perform_r8_obuf (s : State) {i : Nat} (hi : i < s.params.obufSize) (hsize : s.params.obufSize ≤ 0x4000)
    {b : Byte} (hb : s.obuf.read i = some b) :
    perform (.r8 (obufAddr s.params i)) s = .next (s.returnRead (.byte b)) := by
  simp only [perform, hostRead8]
  rw [placeOf_obuf s.params (by omega)]
  dsimp only
  rw [if_neg (by omega), hb]
  rfl

/-! ### Running a sequence, one event at a time -/

section
variable {p : Params} {s : State} (hp : s.params = p) (es : List HostEvent)

/-- The first event of a sequence is performed, with the others still to come. -/
theorem run_cons {e : HostEvent} {t : State} (h : perform e (s.enqueue es) = .next (t.enqueue es)) :
    run (e :: es).length (s.enqueue (e :: es)) = run es.length (t.enqueue es) := by
  have hstep : step (s.enqueue (e :: es)) = .next (t.enqueue es) := (step_event rfl).trans h
  rw [List.length_cons, run, hstep]

include hp

theorem run_w8_ibuf {i : Nat} (hi : i < p.ibufSize) (hsize : p.ibufSize ≤ 0x4000) (b : Byte) :
    run (.w8 (ibufAddr p i) b :: es).length (s.enqueue (.w8 (ibufAddr p i) b :: es))
      = run es.length ((s.storeInput i b).enqueue es) := by
  subst hp
  exact run_cons es (perform_w8_ibuf (s.enqueue es) hi hsize b)

theorem run_r8_obuf {i : Nat} (hi : i < p.obufSize) (hsize : p.obufSize ≤ 0x4000) {b : Byte}
    (hb : s.obuf.read i = some b) :
    run (.r8 (obufAddr p i) :: es).length (s.enqueue (.r8 (obufAddr p i) :: es))
      = run es.length ((s.returnRead (.byte b)).enqueue es) := by
  subst hp
  exact run_cons es (perform_r8_obuf (s.enqueue es) hi hsize hb)

theorem run_r32_outLen :
    run (.r32 (regAddr p .outLen) :: es).length (s.enqueue (.r32 (regAddr p .outLen) :: es))
      = run es.length ((s.returnRead (.word (s.outLen.setWidth 32))).enqueue es) :=
  run_cons es (perform_r32 p (s.enqueue es) .outLen hp)

theorem run_putLength {n : Nat} (hn : n < 0x10000) :
    run (putLength p n :: es).length (s.enqueue (putLength p n :: es))
      = run es.length ((s.setInLen (BitVec.ofNat 16 n)).enqueue es) := by
  have hword : BitVec.ofNat 32 n = (BitVec.ofNat 16 n).setWidth 32 := by
    apply BitVec.eq_of_toNat_eq
    simp only [BitVec.toNat_setWidth, BitVec.toNat_ofNat]
    omega
  refine run_cons es ?_
  rw [putLength, perform_w32 p (s.enqueue es) .inLen _ hp, hword, writeReg_inLen_fits]
  rfl

theorem run_issue {i : Instr} {t : State} (h : exec i (s.enqueue es) = .next (t.enqueue es)) :
    run (issue p i :: es).length (s.enqueue (issue p i :: es)) = run es.length (t.enqueue es) :=
  run_cons es ((perform_w32 p (s.enqueue es) .cmd _ hp).trans ((command_of_ok (decode_encode i) _).trans h))

/-! ### The byte moves of PUT and COPYBACK (R81) -/

theorem run_putBytes (hsize : p.ibufSize ≤ 0x4000) (i : Nat) (bs : Bytes) (hbs : i + bs.length ≤ p.ibufSize) :
    run (putBytes p i bs ++ es).length (s.enqueue (putBytes p i bs ++ es))
      = run es.length (State.enqueue { s with ibuf := s.ibuf.writeBytes i bs } es) := by
  induction bs generalizing s i with
  | nil => rfl
  | cons b bs ih =>
    rw [List.length_cons] at hbs
    exact (run_w8_ibuf hp _ (by omega) hsize b).trans (ih (s := s.storeInput i b) hp (i + 1) (by omega))

theorem run_copyBytes (hin : p.ibufSize ≤ 0x4000) (hout : p.obufSize ≤ 0x4000) (i : Nat) (bs : Bytes)
    (hbs : i + bs.length ≤ p.ibufSize) (hbs' : i + bs.length ≤ p.obufSize)
    (hread : ∀ j, (h : j < bs.length) → s.obuf.read (i + j) = some bs[j]) :
    run (copyBytes p i bs ++ es).length (s.enqueue (copyBytes p i bs ++ es))
      = run es.length (State.enqueue { s with
          ibuf := s.ibuf.writeBytes i bs
          reads := (bs.map ReadValue.byte).reverse ++ s.reads } es) := by
  induction bs generalizing s i with
  | nil => rfl
  | cons b bs ih =>
    rw [List.length_cons] at hbs hbs'
    have hrest : ∀ j, (h : j < bs.length) → s.obuf.read (i + 1 + j) = some bs[j] := fun j hj => by
      have hj' := hread (j + 1) (Nat.succ_lt_succ hj)
      rwa [← Nat.add_assoc, Nat.add_right_comm] at hj'
    calc
      _ = _ := run_r8_obuf hp _ (by omega) hout (hread 0 (Nat.succ_pos _))
      _ = _ := run_w8_ibuf (s := s.returnRead (.byte b)) hp _ (by omega) hin b
      _ = _ := ih (s := (s.returnRead (.byte b)).storeInput i b) hp (i + 1) (by omega) (by omega) hrest
      _ = _ := by simp [Memory.writeBytes_cons, State.enqueue]

end

end Sys2Proof.Machine
end

section
/-! PROOFS. The pseudo-instructions of 30_encoding.md R81: the statement on what they do, settled. -/

namespace Sys2Proof.Machine

open Sys2Proof

theorem run_put {s : State} (bs : Bytes) (hp : s.params.Admitted) (hbs : bs.length ≤ s.params.ibufSize) :
    run (put s.params bs).length (s.enqueue (put s.params bs))
      = .next { s with ibuf := s.ibuf.writeBytes 0 bs, inLen := BitVec.ofNat 16 bs.length } := by
  obtain ⟨-, -, hsize, -, -⟩ := hp
  exact (run_putBytes rfl _ hsize 0 bs (by omega)).trans (run_putLength rfl [] (by omega))

section
variable {s : State} {data : Bytes} (hc : s.ibuf.Canonical) (hl : s.inLen.toNat ≤ s.params.ibufSize)
  (hd : s.InputIs data)
include hc hl hd

theorem run_csumCalc (b : Byte) :
    run (csumCalc s.params b).length (s.enqueue (csumCalc s.params b)) = .next (s.finishSum (checksum data b)) :=
  (run_issue rfl _ (t := s.finishSum b) rfl).trans
    (run_issue rfl [] (t := s.finishSum (checksum data b)) (feed_of_inputIs (s := s.finishSum b) _ hc hl hd))

theorem run_crcCalc (h : Half) :
    run (crcCalc s.params h).length (s.enqueue (crcCalc s.params h)) = .next (s.finishCrc (crc16 data h)) :=
  (run_issue rfl _ (t := s.finishCrc h) rfl).trans
    (run_issue rfl [] (t := s.finishCrc (crc16 data h)) (feed_of_inputIs (s := s.finishCrc h) _ hc hl hd))

end

theorem output_eq_of_outputIs {s : State} {bs : Bytes} (hc : s.obuf.Canonical) (hd : s.OutputIs bs) :
    s.output = some bs := by
  rw [State.output, Memory.readRange_eq_some hc]
  simpa using hd

theorem run_copyback {s : State} {bs : Bytes} (hp : s.params.Admitted) (hin : s.outLen.toNat ≤ s.params.ibufSize)
    (hout : s.outLen.toNat ≤ s.params.obufSize) (hd : s.OutputIs bs) :
    run (copyback s.params bs).length (s.enqueue (copyback s.params bs))
      = .next { s with
          ibuf := s.ibuf.writeBytes 0 bs
          inLen := s.outLen
          reads := (bs.map ReadValue.byte).reverse ++ .word (s.outLen.setWidth 32) :: s.reads } := by
  obtain ⟨-, -, hisize, -, hosize⟩ := hp
  obtain ⟨hlen, hbytes⟩ := hd
  have hback : BitVec.ofNat 16 bs.length = s.outLen := by rw [hlen, BitVec.ofNat_toNat, BitVec.setWidth_eq]
  have hread : ∀ j, (h : j < bs.length) → s.obuf.read (0 + j) = some bs[j] := by simpa using hbytes
  calc
    _ = _ := run_r32_outLen rfl _
    _ = _ := run_copyBytes (p := s.params) (s := s.returnRead (.word (s.outLen.setWidth 32))) rfl _ hisize hosize 0 bs
      (by omega) (by omega) hread
    _ = _ := run_putLength rfl [] (by omega)
    _ = _ := by rw [hback]; rfl

/-- Settles O57: the events one after the other. -/
theorem pseudoInstructions : Obligations.PseudoInstructions := by
  refine ⟨?_, fun _ _ b hc hl hd => run_csumCalc hc hl hd b, fun _ _ h hc hl hd => run_crcCalc hc hl hd h, ?_⟩
  · intro s bs hp hbs
    refine ⟨_, run_put bs hp hbs, rfl, inputIs_writeBytes rfl ?_, fun j hj => ?_⟩
    · exact (Nat.mod_eq_of_lt (by obtain ⟨-, -, hsize, -, -⟩ := hp; omega)).symm
    · dsimp only
      rw [Memory.read_writeBytes, if_neg (by omega)]
  · intro s bs hinv hin hd
    exact ⟨output_eq_of_outputIs hinv.obufCanonical hd, _, run_copyback hinv.params hin hinv.outLenFits hd, rfl,
      inputIs_writeBytes rfl hd.1⟩

end Sys2Proof.Machine
end

section
/-! PROOFS. Laws of the session configuration: which words its commands have, what CFG then reads, and which commands
carry each configuration field through. -/

namespace Sys2Proof.Machine

open Sys2Proof

/-! ### Words -/

/-- A word whose OP takes a byte is the OP's own word with the byte in its low bits (30_encoding.md R70, R71). -/
theorem cmdWord_zext16_eq_or (op b : Byte) : cmdWord op (zext16 b) = (op ++ 0#24 : Word) ||| b.setWidth 32 := by
  apply BitVec.eq_of_toNat_eq
  have hb := b.isLt
  have hlow : b.toNat < 2 ^ 24 := by omega
  rw [cmdWord_toNat, zext16_toNat, BitVec.toNat_or, BitVec.toNat_append, BitVec.toNat_ofNat, Nat.zero_mod, Nat.or_zero,
    BitVec.toNat_setWidth, Nat.mod_eq_of_lt (by omega), ← Nat.shiftLeft_add_eq_or_of_lt hlow, Nat.shiftLeft_eq]

theorem command_of_isError {w : Word} (h : ∃ e, decode w = .error e) (s : State) :
    command w s = .next { s with code := .illegalCommand } := by
  obtain ⟨e, he⟩ := h
  exact command_of_error he s

/-- A word whose IMM does not fit the form of its OP is illegal (R74 (c)). -/
theorem decode_error_of_imm {w : Word} {f : Form} (hop : opField w ∈ f.ops) (himm : 2 ^ f.width ≤ (immField w).toNat) :
    ∃ e, decode w = .error e :=
  (decode_isError_iff_cases w).mpr (Or.inr (Or.inr ⟨f, hop, himm⟩))

theorem command_cmdWord_of_imm {op : Byte} {imm : Half} {f : Form} (hop : op ∈ f.ops) (himm : 2 ^ f.width ≤ imm.toNat)
    (s : State) : command (cmdWord op imm) s = .next { s with code := .illegalCommand } := by
  refine command_of_isError (decode_error_of_imm (f := f) ?_ ?_) s
  · rwa [opField_cmdWord]
  · rwa [immField_cmdWord]

/-! ### CFG -/

theorem cfgWord_of_fields {s : State} (m : IMode) (n : BMode) (b : Byte) (hi : s.imode = m) (hb : s.bmode = n)
    (hp : s.pad = b) : cfgWord s = 0#16 ++ b ++ 0#6 ++ bmodeBit n ++ imodeBit m := by
  subst hi hb hp
  rfl

/-! ### Fields of CFG that a command carries through -/

theorem codecBlind_setPad (b : Byte) : CodecBlind (fun t => { t with pad := b }) where
  params _ := rfl
  inLen _ := rfl
  ibuf _ := rfl
  imode _ := rfl
  failPacket _ _ _ := rfl
  finishPacket _ _ _ := rfl

theorem codecBlind_setBmode (m : BMode) : CodecBlind (fun t => { t with bmode := m }) where
  params _ := rfl
  inLen _ := rfl
  ibuf _ := rfl
  imode _ := rfl
  failPacket _ _ _ := rfl
  finishPacket _ _ _ := rfl

theorem inputBlind_setImode (m : IMode) : InputBlind (fun t => { t with imode := m }) where
  params _ := rfl
  inLen _ := rfl
  ibuf _ := rfl

section
variable (i : Instr) (s : State)

/-- PAD is read by PKT.ENC alone (R100). -/
theorem exec_carries_pad (b : Byte) (henc : ∀ q, i ≠ .pktEnc q) (hcfg : ∀ q, i ≠ .cfgPad q) :
    exec i { s with pad := b } = onNext (fun t => { t with pad := b }) (exec i s) := by
  have hf := codecBlind_setPad b
  cases i with
  | cfgPad q => exact absurd rfl (hcfg q)
  | pktEnc q => exact absurd rfl (henc q)
  | csumFeed | crcFeed => exact feed_carries hf.toInputBlind s rfl fun _ => rfl
  | pktDec e => exact execPktDec_carries hf e s
  | csumSeed | crcSeed | cfgImode | cfgBmode => rfl

/-- BMODE is read by PKT.ENC alone (R102). -/
theorem exec_carries_bmode (m : BMode) (henc : ∀ q, i ≠ .pktEnc q) (hcfg : ∀ q, i ≠ .cfgBmode q) :
    exec i { s with bmode := m } = onNext (fun t => { t with bmode := m }) (exec i s) := by
  have hf := codecBlind_setBmode m
  cases i with
  | cfgBmode q => exact absurd rfl (hcfg q)
  | pktEnc q => exact absurd rfl (henc q)
  | csumFeed | crcFeed => exact feed_carries hf.toInputBlind s rfl fun _ => rfl
  | pktDec e => exact execPktDec_carries hf e s
  | csumSeed | crcSeed | cfgPad | cfgImode => rfl

/-- IMODE is read by the two packet commands alone (R101). -/
theorem exec_carries_imode (m : IMode) (henc : ∀ q, i ≠ .pktEnc q) (hdec : ∀ q, i ≠ .pktDec q)
    (hcfg : ∀ q, i ≠ .cfgImode q) :
    exec i { s with imode := m } = onNext (fun t => { t with imode := m }) (exec i s) := by
  cases i with
  | cfgImode q => exact absurd rfl (hcfg q)
  | pktEnc q => exact absurd rfl (henc q)
  | pktDec q => exact absurd rfl (hdec q)
  | csumFeed | crcFeed => exact feed_carries (inputBlind_setImode m) s rfl fun _ => rfl
  | csumSeed | crcSeed | cfgPad | cfgBmode => rfl

end

end Sys2Proof.Machine
end

section
/-! PROOFS. Laws of the frame a packet command stores or accepts: where a buffer holds it, and its trailer. -/

namespace Sys2Proof.Machine

open Sys2Proof

/-! ### Byte strings that a buffer holds -/

/-- The buffer holds a byte string from index `a` on, read one byte at a time. -/
def Memory.Holds (b : Memory) (a : Nat) (bs : Bytes) : Prop :=
  ∀ j, (h : j < bs.length) → b.read (a + j) = some bs[j]

theorem Memory.holds_of_readRange {b : Memory} (hc : b.Canonical) {a n : Nat} {bs : Bytes}
    (h : b.readRange a n = some bs) : b.Holds a bs :=
  ((Memory.readRange_eq_some hc a n bs).mp h).2

/-- A byte string stored from index 0 is held there, and so is each part of it (20_memory.md R55). -/
theorem Memory.holds_writeRange_slice (b : Memory) (f : Bytes) (a n : Nat) :
    (b.writeRange 0 f).Holds a (slice f a n) := by
  intro j hj
  have hj' : j < n ∧ a + j < f.length := by
    simp only [slice, List.length_take, List.length_drop] at hj
    omega
  rw [Memory.read_writeRange, if_pos (by omega)]
  simp [slice, hj'.2]

/-- A data field with the trailer of its own integrity value right after it (30_encoding.md R79). -/
theorem Memory.holdsTrailer_of_holds {b : Memory} {data : Bytes} {m : IMode} (hd : b.Holds 3 data)
    (ht : b.Holds (3 + data.length) (trailerBytes m (integrityValue m data))) : b.HoldsTrailer data.length m := by
  refine ⟨data, rfl, hd, ?_⟩
  rw [trailerBytes_integrityValue] at ht
  cases m with
  | checksum => exact ht 0 Nat.one_pos
  | crc =>
    have hlow := ht 1 (Nat.lt_succ_self 1)
    rw [Nat.add_right_comm] at hlow
    exact ⟨ht 0 Nat.two_pos, hlow⟩

/-! ### The frame PKT.ENC stores -/

theorem two_le_capOfMode (l : LargeCap) (b : BMode) : 2 ≤ capOfMode l b := by cases b <;> cases l <;> decide

theorem encodeFrame_of_fits (q : Byte) {content : Bytes} {cap : Nat} (pad : Byte) (m : IMode)
    (hfit : content.length ≤ (framingOfCap cap).contentCap) : ∃ r, encodeFrame q content cap pad m = some r :=
  ⟨_, if_neg (Nat.not_lt.mpr hfit)⟩

/-- PKT.ENC with an input it accepts stores the frame and reports its trailer (R142). -/
theorem execPktEnc_of_fits {q : Byte} {s : State} {content : Bytes} {r : Encoded}
    (hl : s.inLen.toNat ≤ s.params.ibufSize) (hfit : s.inLen.toNat ≤ s.encodeContentCap) (hi : s.input = some content)
    (hr : encodeFrame q content s.encodeCap s.pad s.imode = some r) :
    execPktEnc q s = .next (s.finishPacket r.frame r.trailer) := by
  have hshort : ¬ s.inputTooLong = true := by rw [inputTooLong_iff]; omega
  unfold execPktEnc
  rw [if_neg hshort, if_neg (Nat.not_lt.mpr hfit), hi]
  dsimp only
  rw [hr]
  rfl

section
variable {q : Byte} {content : Bytes} {cap : Nat} {pad : Byte} {m : IMode} {r : Encoded}

theorem encodeFrame_holdsTrailer (hcap : 2 ≤ cap) (hr : encodeFrame q content cap pad m = some r) (b : Memory) :
    (b.writeRange 0 r.frame).HoldsTrailer cap m := by
  have hfields := encodeFrame_fields hcap hr
  have hlen : (slice r.frame 3 cap).length = cap := by
    apply slice_length
    rw [encodeFrame_length hcap hr]
    omega
  have ht := hfields.trailer
  rw [framingOfCap_cap] at ht
  have hholds := Memory.holdsTrailer_of_holds (m := m) (b.holds_writeRange_slice r.frame 3 cap)
  rw [hlen, ← ht] at hholds
  exact hholds (b.holds_writeRange_slice _ _ _)

theorem encodeFrame_stored_start (hcap : 2 ≤ cap) (hr : encodeFrame q content cap pad m = some r) (b : Memory) :
    (b.writeRange 0 r.frame).read 0 = some (framingOfCap cap).start := by
  have hstart := b.holds_writeRange_slice r.frame 0 1
  rw [(encodeFrame_fields hcap hr).start] at hstart
  exact hstart 0 Nat.one_pos

end

theorem pktEnc_holdsTrailer {q : Byte} {s t : State} (h : exec (.pktEnc q) s = .next t) (hok : t.code = .ok) :
    t.obuf.HoldsTrailer s.encodeCap s.imode := by
  cases exec_effect h with
  | pktEncFailed q c hc => exact absurd hok hc
  | pktEnc q content r _ hr => exact encodeFrame_holdsTrailer (two_le_capOfMode _ _) hr s.obuf

/-! ### The frame PKT.DEC accepts -/

/-- What R160's pseudocode has read when it accepts a frame: every part of the frame, each as it must be. -/
structure AcceptedFrame (rd : Nat → Nat → Option Bytes) (len : Nat) (l : LargeCap) (m : IMode) (e : Byte)
    (start : Bytes) (fr : Framing) (data : Bytes) : Prop where
  readStart : rd 0 1 = some start
  format : framingOfStart l (start.getD 0 0#8) = some fr
  readPair : rd 1 2 = some (seqPair e)
  whole : frameLen fr m ≤ len
  readData : rd 3 fr.cap = some data
  readTrailer : rd (3 + fr.cap) (trailerLen m) = some (trailerBytes m (integrityValue m data))

theorem decodeVia_ok {rd : Nat → Nat → Option Bytes} {len : Nat} {l : LargeCap} {m : IMode} {e : Byte} {r : Decoded}
    (h : decodeVia (m := Option) rd len l m e = some r) (hok : r.code = .ok) :
    ∃ start fr data, AcceptedFrame rd len l m e start fr data := by
  unfold decodeVia at h
  split at h
  · cases h; cases hok
  · obtain ⟨start, hstart, h⟩ := Option.bind_eq_some_iff.mp h
    split at h
    · cases h; cases hok
    · next fr hfr =>
      split at h
      · cases h; cases hok
      · obtain ⟨pair, hpair, h⟩ := Option.bind_eq_some_iff.mp h
        split at h
        · cases h; cases hok
        · next hseq =>
          split at h
          · cases h; cases hok
          · next hlen =>
            obtain ⟨data, hdata, h⟩ := Option.bind_eq_some_iff.mp h
            obtain ⟨trailer, htrailer, h⟩ := Option.bind_eq_some_iff.mp h
            cases h
            rcases judgeFrame_cases fr m data trailer with ⟨ht, -⟩ | ⟨-, hj⟩
            · exact ⟨start, fr, data, hstart, hfr, not_not.mp hseq ▸ hpair, Nat.not_lt.mp hlen, hdata,
                ht ▸ htrailer⟩
            · rw [hj] at hok; cases hok

theorem pktDec_accepts {e : Byte} {s t : State} (h : exec (.pktDec e) s = .next t) (hok : t.code = .ok) :
    ∃ start fr data,
      AcceptedFrame s.inputRange s.inLen.toNat s.params.largeCap s.imode e start fr data := by
  cases exec_effect h with
  | pktDecTooLong => cases hok
  | pktDecFailed e r _ hbad => exact absurd hok hbad
  | pktDec e r hr hc => exact decodeVia_ok hr hc

/-- No format is smaller than the 128-byte one (30_encoding.md R77). -/
theorem le_framingOfStart_cap {l : LargeCap} {b : Byte} {fr : Framing} (h : framingOfStart l b = some fr) :
    128 ≤ fr.cap := by
  rcases framingOfStart_cases l b with ⟨-, h'⟩ | ⟨-, h'⟩ | ⟨-, -, h'⟩ <;> cases h'.symm.trans h
  · decide
  · cases l <;> decide

section
variable {e : Byte} {s t : State}

theorem pktDec_ok_inLen (h : exec (.pktDec e) s = .next t) (hok : t.code = .ok) :
    3 + 128 + trailerLen s.imode ≤ s.inLen.toNat := by
  obtain ⟨start, fr, data, hacc⟩ := pktDec_accepts h hok
  have hcap := le_framingOfStart_cap hacc.format
  have hlen := hacc.whole
  unfold frameLen at hlen
  omega

theorem pktDec_ok_frame (hc : s.ibuf.Canonical) (h : exec (.pktDec e) s = .next t) (hok : t.code = .ok) :
    ∃ start fr, s.ibuf.read 0 = some start ∧ framingOfStart s.params.largeCap start = some fr
      ∧ 3 + fr.cap + trailerLen s.imode ≤ s.inLen.toNat ∧ s.ibuf.HoldsTrailer fr.cap s.imode := by
  obtain ⟨start, fr, data, hacc⟩ := pktDec_accepts h hok
  obtain ⟨hone, hfirst⟩ := (Memory.readRange_eq_some hc 0 1 start).mp hacc.readStart
  obtain ⟨b, rfl⟩ := List.length_eq_one_iff.mp hone
  obtain ⟨hdata, -⟩ := (Memory.readRange_eq_some hc 3 fr.cap data).mp hacc.readData
  have ht := Memory.holds_of_readRange hc hacc.readTrailer
  rw [← hdata] at ht
  exact ⟨b, fr, hfirst 0 Nat.one_pos, hacc.format, hacc.whole,
    hdata ▸ Memory.holdsTrailer_of_holds (Memory.holds_of_readRange hc hacc.readData) ht⟩

end

end Sys2Proof.Machine
end

section
/-! PROOFS. The commands of 40_session_config.md: the statements on the session configuration, settled. -/

namespace Sys2Proof.Machine

open Sys2Proof

/-- Settles O8: the frame a packet command stores or accepts has the trailer of the mode. -/
theorem cfgImodeSetsTheIntegrityMode : Obligations.CfgImodeSetsTheIntegrityMode := by
  refine ⟨fun _ _ => rfl, rfl, rfl, fun _ s h => command_cmdWord_of_imm (f := .imm1) (by decide) h s,
    fun i m s => exec_carries_imode i s m, ?_, ?_, ?_, ?_⟩
  · intro m q s u h hok
    refine ⟨(pktEnc_outLen h hok).trans ?_, pktEnc_holdsTrailer h hok⟩
    cases m <;> rfl
  · intro m e s u h hok
    have hlen := pktDec_ok_inLen h hok
    cases m <;> exact hlen
  · intro m e s u hc h hok
    exact pktDec_ok_frame (s := { s with imode := m }) hc h hok
  · intro p
    exact ⟨_, command_of_ok (i := .cfgImode .checksum) (by decide) _,
      (cfgWord_of_fields .checksum .xmodem 0x1A#8 rfl rfl rfl).trans (by decide)⟩

/-- R102's example after reset: with no input, PKT.ENC stores the large format's empty frame. -/
theorem pktEnc_empty_large (p : Params) (q : Byte) :
    ∃ u, exec (.pktEnc q) { State.resetWith p with bmode := .xmodem1k } = .next u
      ∧ u.outLen.toNat = 3 + p.largeCap.bytes + 2 ∧ u.obuf.read 0 = some stx := by
  obtain ⟨r, hr⟩ := encodeFrame_of_fits q (content := []) (cap := p.largeCap.bytes) 0x1A#8 .crc (Nat.zero_le _)
  have hx : exec (.pktEnc q) { State.resetWith p with bmode := .xmodem1k } = .next _ :=
    execPktEnc_of_fits (Nat.zero_le _) (Nat.zero_le _) rfl hr
  have hstart := encodeFrame_stored_start (two_le_capOfMode p.largeCap .xmodem1k) hr []
  exact ⟨_, hx, pktEnc_outLen hx rfl, hstart.trans (congrArg (some ·.start) (framingOfCap_large p.largeCap))⟩

/-- Settles O9: only PKT.ENC takes its capacity from BMODE, and the example's frame is the large format's. -/
theorem cfgBmodeSetsTheBlockSizeMode : Obligations.CfgBmodeSetsTheBlockSizeMode := by
  refine ⟨fun _ _ => rfl, rfl, rfl, fun _ s h => command_cmdWord_of_imm (f := .imm1) (by decide) h s,
    fun i m s => exec_carries_bmode i s m, ?_⟩
  intro p q _
  obtain ⟨u, hu, hlen, hstart⟩ := pktEnc_empty_large p q
  exact ⟨_, u, command_of_ok (i := .cfgBmode .xmodem1k) (by decide) _,
    (cfgWord_of_fields .crc .xmodem1k 0x1A#8 rfl rfl rfl).trans (by decide), hu, hlen, hstart⟩

/-- Settles O7: a word of OP 0x10 with a bit outside its operand is illegal, and only PKT.ENC reads PAD. -/
theorem cfgPadSetsThePadByte : Obligations.CfgPadSetsThePadByte := by
  refine ⟨fun _ _ => rfl, cmdWord_zext16_eq_or 0x10#8, ?_, fun i b s => exec_carries_pad i s b, ?_⟩
  · rintro w s hop (hrsv | himm)
    · exact command_of_isError (decode_error_of_rsv hrsv) s
    · exact command_of_isError (decode_error_of_imm (f := .imm8) (hop ▸ by decide) himm) s
  · intro s hi hb
    exact ⟨_, command_of_ok (i := .cfgPad 0x00#8) (by decide) s,
      (cfgWord_of_fields (s := { s with pad := 0x00#8, code := .ok }) .crc .xmodem 0x00#8 hi hb rfl).trans (by decide)⟩

end Sys2Proof.Machine
end

section
/-! PROOFS. Laws of the checksum and of the FEED commands' input: the sum in natural numbers, no input, an unwritten
byte, and an input that the host replaces between two commands. -/

namespace Sys2Proof.Machine

open Sys2Proof

/-! ### The checksum as a sum -/

@[simp] theorem checksum_nil (seed : Byte) : checksum [] seed = seed := rfl

@[simp] theorem checksum_cons (b : Byte) (data : Bytes) (seed : Byte) :
    checksum (b :: data) seed = checksum data (seed + b) := rfl

/-- R110's equivalent formula: the byte that is added first only moves the seed. -/
theorem checksum_toNat (data : Bytes) (seed : Byte) :
    (checksum data seed).toNat = (seed.toNat + (data.map BitVec.toNat).sum) % 256 := by
  induction data generalizing seed with
  | nil =>
    rw [checksum_nil]
    exact (Nat.mod_eq_of_lt seed.isLt).symm
  | cons b data ih =>
    have hadd : (seed + b).toNat = (seed.toNat + b.toNat) % 256 := BitVec.toNat_add seed b
    rw [checksum_cons, ih, hadd, List.map_cons, List.sum_cons]
    omega

/-! ### The input of a FEED -/

section
variable {s : State} (k : Bytes → State)

theorem not_inputTooLong (hl : s.inLen.toNat ≤ s.params.ibufSize) : ¬ s.inputTooLong = true := by
  rw [inputTooLong_iff]
  exact Nat.not_lt.mpr hl

theorem feed_of_inLen_zero (h : s.inLen = 0#16) : feed s k = .next (k []) := by
  have hlen : s.inLen.toNat = 0 := congrArg BitVec.toNat h
  have hin : s.input = some [] := by simp [State.input, State.inputRange, Memory.readRange, hlen]
  unfold feed
  rw [if_neg (not_inputTooLong (by omega)), hin]
  rfl

theorem feed_of_unwritten {i : Nat} (hc : s.ibuf.Canonical) (hl : s.inLen.toNat ≤ s.params.ibufSize)
    (hi : i < s.inLen.toNat) (hn : s.ibuf.read i = none) : feed s k = .fault .unwrittenInput := by
  have hin : s.input = none := (input_eq_none hc).mpr ⟨i, hi, hn⟩
  unfold feed
  rw [if_neg (not_inputTooLong hl), hin]

/-- The host has put the bytes into IBUF and their count into IN_LEN. -/
theorem feed_of_setInput {m : Memory} {b : Bytes} (hc : m.Canonical) (hl : b.length ≤ s.params.ibufSize)
    (hlt : b.length < 0x10000) (hm : ∀ i, (h : i < b.length) → m.read i = some b[i]) :
    feed { s with ibuf := m, inLen := BitVec.ofNat 16 b.length } k = .next (k b) := by
  have hlen : (BitVec.ofNat 16 b.length).toNat = b.length := Nat.mod_eq_of_lt hlt
  exact feed_of_inputIs (s := { s with ibuf := m, inLen := BitVec.ofNat 16 b.length }) k hc (hlen.trans_le hl)
    ⟨hlen.symm, hm⟩

end

end Sys2Proof.Machine
end

section
/-! PROOFS. The checksum unit of 41_checksum.md: the statements on the checksum and its two commands, settled. -/

namespace Sys2Proof.Machine

open Sys2Proof

/-- Settles O10, by induction on the data (`checksum_toNat`). -/
theorem checksumIsTheSumModulo256 : Obligations.ChecksumIsTheSumModulo256 := checksum_toNat

/-- Settles O13: each clause is a case of `feed`; a second FEED starts from the SUM_ACC the first one left, and the same
input fed twice is `readsHaveNoSideEffect`. -/
theorem csumFeedAddsTheInput : Obligations.CsumFeedAddsTheInput := by
  obtain ⟨-, -, -, hsame⟩ := readsHaveNoSideEffect
  refine ⟨fun _ hl => feed_of_tooLong _ hl, fun _ _ hc hl hd => feed_of_inputIs _ hc hl hd,
    fun _ _ hc hl hi hn => feed_of_unwritten _ hc hl hi hn, fun _ h => feed_of_inLen_zero _ h, ?_,
    fun s data hc hl hd => (hsame s data hc hl hd).1, by decide, by decide, rfl⟩
  intro s a b m hc hm hl ha hb hlt hread
  exact ⟨_, _, feed_of_inputIs _ hc hl ha, feed_of_setInput _ hm hb hlt hread, (checksum_append a b s.sumAcc).symm⟩

/-- Settles O12: the operand of CSUM.SEED is IMM[7:0], and a larger IMM does not fit the form. -/
theorem csumSeedLoadsTheAccumulator : Obligations.CsumSeedLoadsTheAccumulator :=
  ⟨fun _ _ => rfl, cmdWord_zext16_eq_or 0x01#8,
    fun _ s h => command_cmdWord_of_imm (f := .imm8) (by decide) h s⟩

end Sys2Proof.Machine
end

section
/-! PROOFS. Laws of the CRC that its commands' statements use: the CRC one byte at a time, and of zero bytes. -/

namespace Sys2Proof.Machine

open Sys2Proof

@[simp] theorem crc16_nil (seed : Half) : crc16 [] seed = seed := rfl

@[simp] theorem crc16_cons (b : Byte) (data : Bytes) (seed : Half) :
    crc16 (b :: data) seed = crc16 data (crcByte seed b) := rfl

/-- A zero byte leaves a zero CRC at zero, so any number of them does (42_crc16.md R126). -/
theorem crc16_zeros (n : Nat) : crc16 (List.replicate n 0x00#8) 0x0000#16 = 0x0000#16 := by
  have hbyte : crcByte 0x0000#16 0x00#8 = 0x0000#16 := by decide
  induction n with
  | zero => exact crc16_nil _
  | succ n ih => rw [List.replicate_succ, crc16_cons, hbyte, ih]

end Sys2Proof.Machine
end

section
/-! PROOFS. The CRC unit of 42_crc16.md: the statements on its two commands, settled. -/

namespace Sys2Proof.Machine

open Sys2Proof

/-- Settles O15: each clause is a case of `feed`; a second FEED starts from the CRC_ACC the first one left, and the same
input fed twice is `readsHaveNoSideEffect`. -/
theorem crcFeedRunsTheInput : Obligations.CrcFeedRunsTheInput := by
  obtain ⟨-, -, -, hsame⟩ := readsHaveNoSideEffect
  refine ⟨fun _ hl => feed_of_tooLong _ hl, fun _ _ hc hl hd => feed_of_inputIs _ hc hl hd,
    fun _ _ hc hl hi hn => feed_of_unwritten _ hc hl hi hn, fun _ h => feed_of_inLen_zero _ h, ?_,
    fun s data hc hl hd => (hsame s data hc hl hd).2, crc16_zeros, by decide +kernel, rfl⟩
  intro s a b m hc hm hl ha hb hlt hread
  exact ⟨_, _, feed_of_inputIs _ hc hl ha, feed_of_setInput _ hm hb hlt hread, (crc16_append a b s.crcAcc).symm⟩

/-- Settles O14: the operand of CRC.SEED is the whole IMM, the low half of the word, so every IMM decodes; a word whose
RSV is not 0 does not. -/
theorem crcSeedLoadsTheAccumulator : Obligations.CrcSeedLoadsTheAccumulator :=
  ⟨fun _ _ => rfl, fun _ => BitVec.append_def _ _, fun h s => command_of_ok (decode_encode (.crcSeed h)) s,
    fun _ s _ hrsv => command_of_isError (decode_error_of_rsv hrsv) s⟩

end Sys2Proof.Machine
end

section
/-! PROOFS. Laws of the packet encoder: what each case of R140 gives, and how PKT.ENC ends. -/

namespace Sys2Proof.Machine

open Sys2Proof

/-! ### The sequence pair (R143) -/

theorem add_complement (b : Byte) : b + (255#8 - b) = 0xFF#8 := by
  rw [byte_sub_eq_not, BitVec.add_not_self]
  rfl

theorem toNat_add_toNat_complement (b : Byte) : b.toNat + (255#8 - b).toNat = 0xFF := by
  have hb := b.isLt
  rw [byte_sub_eq_not, BitVec.toNat_not]
  omega

theorem xor_complement (b : Byte) : b ^^^ (255#8 - b) = 0xFF#8 := by
  rw [byte_sub_eq_not, BitVec.not_def, BitVec.xor_comm, BitVec.xor_assoc, BitVec.xor_self, BitVec.xor_zero]
  rfl

/-! ### `encode`, case by case (R140, R141) -/

section
variable {seq : Byte} {content : Bytes} {cap : Nat} {fr : Framing} {pad : Byte}

theorem encodeFrame_of_tooLong (seq pad : Byte) (m : IMode) (hfr : framingOfCap cap = fr)
    (h : fr.contentCap < content.length) : encodeFrame seq content cap pad m = none := by
  subst hfr
  exact if_pos h

theorem encodeFrame_eq_of_fits (seq pad : Byte) (m : IMode) (hfr : framingOfCap cap = fr)
    (hfit : content.length ≤ fr.contentCap) :
    encodeFrame seq content cap pad m
      = some ⟨frameAround fr seq (dataField fr content pad) m (integrityValue m (dataField fr content pad)),
          integrityValue m (dataField fr content pad)⟩ := by
  subst hfr
  exact if_neg (Nat.not_lt.mpr hfit)

theorem encodeFrame_checksum (seq pad : Byte) (hfr : framingOfCap cap = fr) (hfit : content.length ≤ fr.contentCap) :
    encodeFrame seq content cap pad .checksum
      = some ⟨[fr.start, seq, 255#8 - seq] ++ dataField fr content pad ++ [checksum (dataField fr content pad) 0#8],
          (checksum (dataField fr content pad) 0#8).setWidth 16⟩ := by
  rw [encodeFrame_eq_of_fits seq pad .checksum hfr hfit, frameAround, trailerBytes_integrityValue]
  rfl

theorem encodeFrame_crc (seq pad : Byte) (hfr : framingOfCap cap = fr) (hfit : content.length ≤ fr.contentCap) :
    encodeFrame seq content cap pad .crc
      = some ⟨[fr.start, seq, 255#8 - seq] ++ dataField fr content pad ++ be16 (crc16 (dataField fr content pad) 0#16),
          crc16 (dataField fr content pad) 0#16⟩ :=
  encodeFrame_eq_of_fits seq pad .crc hfr hfit

/-- The trailer value covers the frame's data field, from seed 0. -/
theorem encodeFrame_trailer {m : IMode} {r : Encoded} (hcap : 2 ≤ cap) (h : encodeFrame seq content cap pad m = some r) :
    r.trailer = integrityValue m (slice r.frame 3 cap) := by
  obtain ⟨hfits, htv, hframe⟩ := encodeFrame_eq_some h
  rw [hframe, frameAround_data (dataField_length content pad hcap hfits), htv]

theorem encodeFrame_pair {m : IMode} {r : Encoded} (h : encodeFrame seq content cap pad m = some r) :
    slice r.frame 1 2 = [seq, 255#8 - seq] := by
  obtain ⟨-, -, hframe⟩ := encodeFrame_eq_some h
  rw [hframe]
  rfl

end

/-! ### PKT.ENC, case by case (R142) -/

section
variable {s : State}

/-- The longest content of each block-size mode. -/
theorem encodeContentCap_eq (s : State) : s.encodeContentCap =
    match s.bmode with
    | .xmodem => 127
    | .xmodem1k => s.params.largeCap.bytes - 2 := by
  unfold State.encodeContentCap State.encodeCap
  cases s.bmode with
  | xmodem => rfl
  | xmodem1k => exact congrArg Framing.contentCap (framingOfCap_large s.params.largeCap)

theorem encodeContentCap_lt_inLen
    (h : (s.bmode = .xmodem ∧ 127 < s.inLen.toNat)
      ∨ (s.bmode = .xmodem1k ∧ s.params.largeCap.bytes - 2 < s.inLen.toNat)) : s.encodeContentCap < s.inLen.toNat := by
  rw [encodeContentCap_eq]
  rcases h with ⟨hb, h⟩ | ⟨hb, h⟩ <;> rwa [hb]

theorem inLen_le_encodeContentCap
    (h : (s.bmode = .xmodem ∧ s.inLen.toNat ≤ 127)
      ∨ (s.bmode = .xmodem1k ∧ s.inLen.toNat ≤ s.params.largeCap.bytes - 2)) : s.inLen.toNat ≤ s.encodeContentCap := by
  rw [encodeContentCap_eq]
  rcases h with ⟨hb, h⟩ | ⟨hb, h⟩ <;> rwa [hb]

theorem execPktEnc_of_contentTooLong (q : Byte) (hl : s.inLen.toNat ≤ s.params.ibufSize)
    (hlong : s.encodeContentCap < s.inLen.toNat) : execPktEnc q s = .next (s.failPacket .contentTooLong 0#16) := by
  unfold execPktEnc
  rw [if_neg (not_inputTooLong hl), if_pos hlong]
  rfl

theorem execPktEnc_of_unwritten {i : Nat} (q : Byte) (hc : s.ibuf.Canonical) (hl : s.inLen.toNat ≤ s.params.ibufSize)
    (hfit : s.inLen.toNat ≤ s.encodeContentCap) (hi : i < s.inLen.toNat) (hn : s.ibuf.read i = none) :
    execPktEnc q s = .fault .unwrittenInput := by
  have hin : s.input = none := (input_eq_none hc).mpr ⟨i, hi, hn⟩
  unfold execPktEnc
  rw [if_neg (not_inputTooLong hl), if_neg (Nat.not_lt.mpr hfit), hin]

/-- PKT.ENC with the content it accepts in IBUF[0:IN_LEN]. -/
theorem execPktEnc_of_inputIs {content : Bytes} (q : Byte) (hc : s.ibuf.Canonical)
    (hl : s.inLen.toNat ≤ s.params.ibufSize) (hfit : s.inLen.toNat ≤ s.encodeContentCap) (hd : s.InputIs content) :
    ∃ r, encodeFrame q content s.encodeCap s.pad s.imode = some r
      ∧ execPktEnc q s = .next (s.finishPacket r.frame r.trailer) := by
  obtain ⟨r, hr⟩ := encodeFrame_of_fits q s.pad s.imode (hd.1.trans_le hfit)
  exact ⟨r, hr, execPktEnc_of_fits hl hfit (input_eq_of_inputIs hc hd) hr⟩

end

/-! ### The frame in OBUF -/

theorem Memory.holds_writeRange (b : Memory) (a : Nat) (bs : Bytes) : (b.writeRange a bs).Holds a bs := by
  intro j hj
  rw [Memory.read_writeRange, if_pos (by omega), Nat.add_sub_cancel_left, List.getElem?_eq_getElem hj]

theorem finishPacket_outputIs (s : State) {out : Bytes} (v : Half) (h : out.length < 2 ^ 16) :
    (s.finishPacket out v).OutputIs out := by
  refine ⟨(finishPacket_outLen_toNat s v h).symm, fun i hi => ?_⟩
  have hread := s.obuf.holds_writeRange 0 out i hi
  rwa [Nat.zero_add] at hread

/-- The bytes of OBUF after the output are as they were (20_memory.md R52). -/
theorem finishPacket_read_after (s : State) (out : Bytes) (v : Half) {j : Nat} (hj : out.length ≤ j) :
    (s.finishPacket out v).obuf.read j = s.obuf.read j := by
  rw [State.finishPacket_obuf, Memory.read_writeRange, if_neg (by omega)]

/-- OBUF holds the largest frame (00_scope.md R10). -/
theorem encodeFrame_fits_obuf {q : Byte} {content : Bytes} {s : State} {r : Encoded} (hp : s.params.Admitted)
    (hr : encodeFrame q content s.encodeCap s.pad s.imode = some r) : r.frame.length ≤ s.params.obufSize := by
  obtain ⟨-, -, -, hobuf, -⟩ := hp
  have hcap : s.encodeCap ≤ s.params.largeCap.bytes := capOfMode_le _ _
  have ht := trailerLen_le s.imode
  rw [encodeFrame_length_of_state hr]
  omega

end Sys2Proof.Machine
end

section
/-! PROOFS. The packet encoder of 43_packet_encode.md: the statements on `encode` and PKT.ENC, settled. -/

namespace Sys2Proof.Machine

open Sys2Proof

/-- Settles O25: `255 - seq` is the complement of seq, and the pair follows the start byte. -/
theorem sequencePairIsOnesComplement : Obligations.SequencePairIsOnesComplement :=
  ⟨fun b => ⟨rfl, byte_sub_eq_not b, add_complement b, toNat_add_toNat_complement b, xor_complement b⟩,
    fun _ _ _ _ _ _ => encodeFrame_pair⟩

/-- Settles O23: in either format the framing of the capacity decides what fits, and the frame. -/
theorem encodeBuildsTheFrame : Obligations.EncodeBuildsTheFrame := by
  intro seq content pad m l
  have hlarge := framingOfCap_large l
  refine ⟨encodeFrame_of_tooLong seq pad m framingOfCap_small, encodeFrame_of_tooLong seq pad m hlarge,
    fun hfit => ?_, fun hfit => ?_⟩
  · exact ⟨encodeFrame_checksum seq pad framingOfCap_small hfit, encodeFrame_crc seq pad framingOfCap_small hfit⟩
  · exact ⟨encodeFrame_checksum seq pad hlarge hfit, encodeFrame_crc seq pad hlarge hfit⟩

/-- Settles O20: the trailer is the data field's integrity value, and a packet command carries each accumulator through
(O44, O45), so both at once. -/
theorem codecNeverTouchesTheAccumulators : Obligations.CodecNeverTouchesTheAccumulators := by
  obtain ⟨-, -, hcrc, -⟩ := crcAccRegister
  obtain ⟨-, -, hsum, -⟩ := sumAccRegister
  refine ⟨fun seq content pad l b r => ⟨encodeFrame_trailer (two_le_capOfMode l b),
    encodeFrame_trailer (two_le_capOfMode l b)⟩, fun i c v s hi => ?_⟩
  refine (hsum i v { s with crcAcc := c } hi).trans ?_
  rw [hcrc i c s hi]
  cases exec i s <;> rfl

/-- Settles O26, one lemma per way PKT.ENC ends. -/
theorem pktEncBuildsOneFrame : Obligations.PktEncBuildsOneFrame := by
  refine ⟨fun q s => execPktEnc_of_tooLong q,
    fun q s hl hlong => execPktEnc_of_contentTooLong q hl (encodeContentCap_lt_inLen hlong), ?_,
    fun q s i hc hl hfit => execPktEnc_of_unwritten q hc hl (inLen_le_encodeContentCap hfit),
    cmdWord_zext16_eq_or 0x20#8⟩
  intro q s content hc hp hl hfit hd
  obtain ⟨r, hr, hx⟩ := execPktEnc_of_inputIs q hc hl (inLen_le_encodeContentCap hfit) hd
  exact ⟨r, _, hr, hx, rfl, finishPacket_outputIs s _ (encodeFrame_length_lt hr),
    fun _ => finishPacket_read_after s _ _, encodeFrame_fits_obuf hp hr⟩

end Sys2Proof.Machine
end

section
/-! PROOFS. Laws of the packet decoder: what `decode` answers at each check of R160, and how PKT.DEC ends. -/

namespace Sys2Proof.Machine

open Sys2Proof

/-! ### The bytes a slice holds -/

section
variable {f : Bytes} {a n : Nat}

theorem slice_one (h : a + 1 ≤ f.length) : slice f a 1 = [f.getD a 0#8] := by
  rw [slice, List.take_one, List.head?_drop, List.getD_eq_getElem?_getD, List.getElem?_eq_getElem h]
  rfl

theorem slice_two (h : a + 2 ≤ f.length) : slice f a 2 = [f.getD a 0#8, f.getD (a + 1) 0#8] := by
  have hsplit : slice f a 2 = slice f a 1 ++ slice f (a + 1) 1 := by
    rw [slice, List.take_add (i := 1) (j := 1), List.drop_drop]; rfl
  rw [hsplit, slice_one (by omega), slice_one (by omega)]
  rfl

theorem slice_append_left (extra : Bytes) (h : a + n ≤ f.length) : slice (f ++ extra) a n = slice f a n := by
  rw [slice, List.drop_append_of_le_length (by omega), List.take_append_of_le_length (by rw [List.length_drop]; omega)]
  rfl

end

theorem getD_slice_start (f : Bytes) : (slice f 0 1).getD 0 0#8 = f.getD 0 0#8 := by
  cases f <;> rfl

/-- The sequence pair as R160 compares it, byte by byte. -/
theorem slice_pair_ne_iff {f : Bytes} (h3 : 3 ≤ f.length) (e : Byte) :
    slice f 1 2 ≠ seqPair e ↔ f.getD 1 0#8 ≠ e ∨ f.getD 2 0#8 ≠ 255#8 - e := by
  rw [slice_two h3, seqPair, ne_eq, List.cons.injEq, List.cons.injEq, not_and_or]
  simp

/-! ### The checks of R160, in their order -/

theorem exists_framingOfStart_iff (l : LargeCap) (b : Byte) :
    (∃ fr, framingOfStart l b = some fr) ↔ b = soh ∨ b = stx := by
  rcases framingOfStart_cases l b with ⟨hb, h⟩ | ⟨hb, h⟩ | ⟨h1, h2, h⟩
  · exact iff_of_true ⟨_, h⟩ (Or.inl hb)
  · exact iff_of_true ⟨_, h⟩ (Or.inr hb)
  · simp [h, h1, h2]

section
variable {l : LargeCap} {f : Bytes} {m : IMode} {e : Byte} {fr : Framing}

theorem decodeFrame_of_empty (h : f.length = 0) : decodeFrame l f m e = .failure .shortFrame := by
  rw [decodeFrame_eq, if_pos h]

theorem decodeFrame_of_badStart (hne : f.length ≠ 0) (h : framingOfStart l (f.getD 0 0#8) = none) :
    decodeFrame l f m e = .failure .badStart := by
  rw [decodeFrame_eq, if_neg hne, getD_slice_start, h]

/-- The checks that follow a legal start byte. -/
theorem decodeFrame_of_format (hne : f.length ≠ 0) (hfr : framingOfStart l (f.getD 0 0#8) = some fr) :
    decodeFrame l f m e =
      if f.length < 3 then .failure .sequenceMismatch
      else if slice f 1 2 ≠ seqPair e then .failure .sequenceMismatch
      else if f.length < frameLen fr m then .failure .shortFrame
      else judgeFrame fr m (slice f 3 fr.cap) (slice f (3 + fr.cap) (trailerLen m)) := by
  rw [decodeFrame_eq, if_neg hne, getD_slice_start, hfr]

theorem decodeFrame_of_pair_ne (hfr : framingOfStart l (f.getD 0 0#8) = some fr) (h3 : 3 ≤ f.length)
    (hp : slice f 1 2 ≠ seqPair e) : decodeFrame l f m e = .failure .sequenceMismatch := by
  rw [decodeFrame_of_format (by omega) hfr, if_neg (Nat.not_lt.mpr h3), if_pos hp]

theorem decodeFrame_of_pair (hfr : framingOfStart l (f.getD 0 0#8) = some fr) (h3 : 3 ≤ f.length)
    (hp : slice f 1 2 = seqPair e) : decodeFrame l f m e =
      if f.length < frameLen fr m then .failure .shortFrame
      else judgeFrame fr m (slice f 3 fr.cap) (slice f (3 + fr.cap) (trailerLen m)) := by
  rw [decodeFrame_of_format (by omega) hfr, if_neg (Nat.not_lt.mpr h3), if_neg (not_not.mpr hp)]

/-- Bytes after the frame are not read (R160, D16). -/
theorem decodeFrame_append (extra : Bytes) (hfr : framingOfStart l (f.getD 0 0#8) = some fr)
    (hlen : frameLen fr m ≤ f.length) : decodeFrame l (f ++ extra) m e = decodeFrame l f m e := by
  have hsize : 3 + fr.cap + trailerLen m ≤ f.length := hlen
  have hstart : (f ++ extra).getD 0 0#8 = f.getD 0 0#8 := List.getD_append _ _ _ _ (by omega)
  have hlong : (f ++ extra).length = f.length + extra.length := List.length_append
  have hpair : slice (f ++ extra) 1 2 = slice f 1 2 := slice_append_left extra (by omega)
  by_cases hp : slice f 1 2 = seqPair e
  · rw [decodeFrame_of_pair hfr (by omega) hp, decodeFrame_of_pair (hstart ▸ hfr) (by omega) (hpair.trans hp),
      if_neg (by omega), if_neg (by omega), slice_append_left extra (by omega), slice_append_left extra hsize]
  · rw [decodeFrame_of_pair_ne hfr (by omega) hp, decodeFrame_of_pair_ne (hstart ▸ hfr) (by omega) (hpair ▸ hp)]

/-- A decode that is no failure before the trailer check is a verdict of the trailer check. -/
theorem decodeFrame_cases (l : LargeCap) (f : Bytes) (m : IMode) (e : Byte) :
    (∃ c, decodeFrame l f m e = .failure c)
      ∨ ∃ fr data trailer, decodeFrame l f m e = judgeFrame fr m data trailer := by
  rw [decodeFrame_eq]
  split
  · exact Or.inl ⟨_, rfl⟩
  · split
    · exact Or.inl ⟨_, rfl⟩
    · split
      · exact Or.inl ⟨_, rfl⟩
      · split
        · exact Or.inl ⟨_, rfl⟩
        · split
          · exact Or.inl ⟨_, rfl⟩
          · exact Or.inr ⟨_, _, _, rfl⟩

end

/-! ### The trailer check (R162) -/

section
variable {fr : Framing} {m : IMode} {data trailer : Bytes}

theorem judgeFrame_of_match (h : trailer = trailerBytes m (integrityValue m data)) :
    judgeFrame fr m data trailer = ⟨.ok, integrityValue m data, contentOf fr data⟩ :=
  if_pos h

theorem judgeFrame_of_mismatch (h : trailer ≠ trailerBytes m (integrityValue m data)) :
    judgeFrame fr m data trailer = ⟨.checksumMismatch, integrityValue m data, []⟩ :=
  if_neg h

@[simp] theorem judgeFrame_value : (judgeFrame fr m data trailer).value = integrityValue m data := by
  rcases judgeFrame_cases fr m data trailer with ⟨-, h⟩ | ⟨-, h⟩ <;> rw [h]

theorem judgeFrame_code : (judgeFrame fr m data trailer).code = .ok
    ∨ (judgeFrame fr m data trailer).code = .checksumMismatch := by
  rcases judgeFrame_cases fr m data trailer with ⟨-, h⟩ | ⟨-, h⟩ <;> simp [h]

end

/-- A decode returns a value only from the trailer check. -/
theorem decodeFrame_value_eq_zero {l : LargeCap} {f : Bytes} {m : IMode} {e : Byte}
    (hok : (decodeFrame l f m e).code ≠ .ok) (hmis : (decodeFrame l f m e).code ≠ .checksumMismatch) :
    (decodeFrame l f m e).value = 0#16 := by
  rcases decodeFrame_cases l f m e with ⟨c, h⟩ | ⟨fr, data, trailer, h⟩
  · rw [h]; rfl
  · rw [h] at hok hmis
    exact absurd judgeFrame_code (not_or.mpr ⟨hok, hmis⟩)

theorem decodeFrame_code_ne_sequenceMismatch_iff {l : LargeCap} {f : Bytes} {m : IMode} {e : Byte} {fr : Framing}
    (hfr : framingOfStart l (f.getD 0 0#8) = some fr) (h3 : 3 ≤ f.length) :
    (decodeFrame l f m e).code ≠ .sequenceMismatch ↔ slice f 1 2 = seqPair e := by
  by_cases hp : slice f 1 2 = seqPair e
  · refine iff_of_true ?_ hp
    rw [decodeFrame_of_pair hfr h3 hp]
    split
    · exact StatusCode.noConfusion
    · intro hc
      rcases judgeFrame_code.imp hc.symm.trans hc.symm.trans with h | h <;> cases h
  · refine iff_of_false ?_ hp
    rw [decodeFrame_of_pair_ne hfr h3 hp]
    exact not_not.mpr rfl

section
variable {l : LargeCap} {start : Byte} {fr : Framing} {data : Bytes} {m : IMode}
  (hfr : framingOfStart l start = some fr) (hd : data.length = fr.cap)
include hfr hd

/-- A whole frame with the expected pair is judged by its trailer. -/
theorem decodeFrame_whole {trailer : Bytes} (ht : trailer.length = trailerLen m) (e : Byte) :
    decodeFrame l (start :: e :: (255#8 - e) :: data ++ trailer) m e = judgeFrame fr m data trailer := by
  have hlen : (start :: e :: (255#8 - e) :: data ++ trailer).length = frameLen fr m := by
    simp [frameLen, hd, ht]; omega
  have hdata : slice (start :: e :: (255#8 - e) :: data ++ trailer) 3 fr.cap = data :=
    slice_of_append (before := [start, e, 255#8 - e]) rfl rfl hd
  have htrailer : slice (start :: e :: (255#8 - e) :: data ++ trailer) (3 + fr.cap) (trailerLen m) = trailer :=
    slice_of_append (List.append_nil _).symm (by simp [hd]; omega) ht
  rw [decodeFrame_of_pair hfr (by simp) rfl, if_neg (by omega), hdata, htrailer]

theorem decodeFrame_whole_verdict {trailer : Bytes} (ht : trailer.length = trailerLen m) (e : Byte) :
    let r := decodeFrame l (start :: e :: (255#8 - e) :: data ++ trailer) m e
    r.value = integrityValue m data
      ∧ (trailer = trailerBytes m (integrityValue m data) → r.code = .ok)
      ∧ (trailer ≠ trailerBytes m (integrityValue m data) → r.code = .checksumMismatch) := by
  rw [decodeFrame_whole hfr hd ht]
  exact ⟨judgeFrame_value, fun h => congrArg Decoded.code (judgeFrame_of_match h),
    fun h => congrArg Decoded.code (judgeFrame_of_mismatch h)⟩

theorem decodeFrame_of_good (m : IMode) (e : Byte) :
    decodeFrame l (start :: e :: (255#8 - e) :: data ++ trailerBytes m (integrityValue m data)) m e
      = ⟨.ok, integrityValue m data, contentOf fr data⟩ := by
  rw [decodeFrame_whole hfr hd (trailerBytes_length ..), judgeFrame_of_match rfl]

end

/-! ### The declared length (R164) -/

theorem ofBe16_toNat (hi lo : Byte) : (ofBe16 hi lo).toNat = hi.toNat * 256 + lo.toNat := by
  rw [ofBe16, BitVec.toNat_append, ← Nat.shiftLeft_add_eq_or_of_lt lo.isLt, Nat.shiftLeft_eq]

theorem contentOf_small (data : Bytes) : contentOf (framingOfCap smallCap) data =
    (data.drop 1).take (min (data.getD 0 0#8).toNat (128 - 1)) := rfl

theorem contentOf_large (l : LargeCap) (data : Bytes) : contentOf (framingOfCap l.bytes) data =
    (data.drop 2).take (min ((data.getD 0 0#8).toNat * 256 + (data.getD 1 0#8).toNat) (l.bytes - 2)) := by
  rw [framingOfCap_large, ← ofBe16_toNat]
  rfl

/-! ### `decode` by the bytes it indexes (R160) -/

/-- R160's `good`: the trailer compared byte by byte with the recomputed value. -/
def trailerIsGood (f : Bytes) (cap : Nat) (m : IMode) (tv : Half) : Bool :=
  match m with
  | .checksum => f.getD (3 + cap) 0#8 == loByte tv
  | .crc => f.getD (3 + cap) 0#8 == hiByte tv && f.getD (4 + cap) 0#8 == loByte tv

theorem trailerIsGood_iff {f : Bytes} {cap : Nat} {m : IMode} (tv : Half) (h : 3 + cap + trailerLen m ≤ f.length) :
    trailerIsGood f cap m tv = true ↔ slice f (3 + cap) (trailerLen m) = trailerBytes m tv := by
  cases m with
  | checksum =>
    rw [trailerLen, slice_one h]
    simp [trailerIsGood, trailerBytes]
  | crc =>
    rw [trailerLen, slice_two h, show 3 + cap + 1 = 4 + cap by omega]
    simp [trailerIsGood, trailerBytes, be16]

theorem decodeFrame_of_format_bytewise {l : LargeCap} {f : Bytes} {m : IMode} {e : Byte} {fr : Framing}
    (hne : f.length ≠ 0) (hfr : framingOfStart l (f.getD 0 0#8) = some fr) :
    decodeFrame l f m e =
      if f.length < 3 then .failure .sequenceMismatch
      else if f.getD 1 0#8 ≠ e ∨ f.getD 2 0#8 ≠ 255#8 - e then .failure .sequenceMismatch
      else if f.length < frameLen fr m then .failure .shortFrame
      else if trailerIsGood f fr.cap m (integrityValue m (slice f 3 fr.cap)) then
        ⟨.ok, integrityValue m (slice f 3 fr.cap), contentOf fr (slice f 3 fr.cap)⟩
      else ⟨.checksumMismatch, integrityValue m (slice f 3 fr.cap), []⟩ := by
  rw [decodeFrame_of_format hne hfr]
  refine ite_congr rfl (fun _ => rfl) fun h3 => ?_
  refine ite_congr (propext (slice_pair_ne_iff (Nat.not_lt.mp h3) e)) (fun _ => rfl) fun _ => ?_
  refine ite_congr rfl (fun _ => rfl) fun hlen => ?_
  exact ite_congr (propext (trailerIsGood_iff _ (Nat.not_lt.mp hlen)).symm) (fun _ => rfl) fun _ => rfl

/-! ### PKT.DEC's reads (R163) -/

section
variable {rd : Nat → Nat → Option Bytes} {len : Nat} {l : LargeCap} {m : IMode} {b e : Byte} {fr : Framing}

theorem decodeVia_of_unread_start (hlen : 0 < len) (h : rd 0 1 = none) : decodeVia rd len l m e = none := by
  unfold decodeVia
  rw [if_neg (by omega), h]
  rfl

section
variable (hstart : rd 0 1 = some [b]) (hfr : framingOfStart l b = some fr) (hlen : 3 ≤ len)
include hstart hfr hlen

/-- The reads that follow a legal start byte. -/
theorem decodeVia_of_format (m : IMode) (e : Byte) : decodeVia rd len l m e =
    (rd 1 2).bind fun pair =>
      if pair ≠ seqPair e then some (.failure .sequenceMismatch)
      else if len < frameLen fr m then some (.failure .shortFrame)
      else (rd 3 fr.cap).bind fun data => (rd (3 + fr.cap) (trailerLen m)).bind fun trailer =>
        some (judgeFrame fr m data trailer) := by
  unfold decodeVia
  rw [if_neg (by omega), hstart]
  change (match framingOfStart l b with | none => _ | some fr => _) = _
  rw [hfr]
  exact if_neg (Nat.not_lt.mpr hlen)

theorem decodeVia_of_unread_pair (h : rd 1 2 = none) : decodeVia rd len l m e = none := by
  rw [decodeVia_of_format hstart hfr hlen, h]
  rfl

theorem decodeVia_of_unread_frame (hpair : rd 1 2 = some (seqPair e)) (hwhole : frameLen fr m ≤ len)
    (h : rd 3 fr.cap = none ∨ rd (3 + fr.cap) (trailerLen m) = none) : decodeVia rd len l m e = none := by
  rw [decodeVia_of_format hstart hfr hlen, hpair, Option.bind_some, if_neg (not_not.mpr rfl),
    if_neg (Nat.not_lt.mpr hwhole)]
  rcases h with h | h
  · rw [h, Option.bind_none]
  · rw [h]
    exact Option.bind_fun_none _

end
end

section
variable {s : State}

theorem inputRange_eq_none (hc : s.ibuf.Canonical) {a n i : Nat} (ha : a ≤ i) (hn : i < a + n)
    (h : s.ibuf.read i = none) : s.inputRange a n = none :=
  (Memory.readRange_eq_none hc a n).mpr ⟨i - a, by omega, by rwa [Nat.add_sub_cancel' ha]⟩

theorem inputRange_one (hc : s.ibuf.Canonical) {a : Nat} {b : Byte} (h : s.ibuf.read a = some b) :
    s.inputRange a 1 = some [b] := by
  refine (Memory.readRange_eq_some hc a 1 [b]).mpr ⟨rfl, fun i hi => ?_⟩
  obtain rfl : i = 0 := by simpa using hi
  exact h

theorem inputRange_two (hc : s.ibuf.Canonical) {a : Nat} {b c : Byte} (hb : s.ibuf.read a = some b)
    (hd : s.ibuf.read (a + 1) = some c) : s.inputRange a 2 = some [b, c] := by
  refine (Memory.readRange_eq_some hc a 2 [b, c]).mpr ⟨rfl, fun i hi => ?_⟩
  obtain rfl | rfl : i = 0 ∨ i = 1 := by simp at hi; omega
  · exact hb
  · exact hd

theorem decodeInput_of_unwritten_start (e : Byte) (hc : s.ibuf.Canonical) (hlen : 0 < s.inLen.toNat)
    (h : s.ibuf.read 0 = none) : s.decodeInput e = none :=
  decodeVia_of_unread_start hlen (inputRange_eq_none hc le_rfl Nat.one_pos h)

section
variable {b : Byte} {fr : Framing} (hstart : s.ibuf.read 0 = some b)
  (hfr : framingOfStart s.params.largeCap b = some fr)
include hstart hfr

theorem decodeInput_of_unwritten_pair (e : Byte) (hc : s.ibuf.Canonical) (hlen : 3 ≤ s.inLen.toNat) {i : Nat}
    (hi : i = 1 ∨ i = 2) (h : s.ibuf.read i = none) : s.decodeInput e = none :=
  decodeVia_of_unread_pair (inputRange_one hc hstart) hfr hlen (inputRange_eq_none hc (by omega) (by omega) h)

theorem decodeInput_of_unwritten_frame {e : Byte} (hc : s.ibuf.Canonical) (hseq : s.ibuf.read 1 = some e)
    (hcompl : s.ibuf.read 2 = some (255#8 - e)) (hwhole : frameLen fr s.imode ≤ s.inLen.toNat) {i : Nat}
    (h3 : 3 ≤ i) (hi : i < frameLen fr s.imode) (h : s.ibuf.read i = none) : s.decodeInput e = none := by
  refine decodeVia_of_unread_frame (inputRange_one hc hstart) hfr (by omega) (inputRange_two hc hseq hcompl) hwhole ?_
  rcases Nat.lt_or_ge i (3 + fr.cap) with hdata | htrailer
  · exact Or.inl (inputRange_eq_none hc h3 hdata h)
  · exact Or.inr (inputRange_eq_none hc htrailer hi h)

end

/-! ### PKT.DEC, case by case (R163) -/

theorem execPktDec_of_decodeInput_eq_none {e : Byte} (hl : s.inLen.toNat ≤ s.params.ibufSize)
    (h : s.decodeInput e = none) : execPktDec e s = .fault .unwrittenInput := by
  unfold execPktDec
  rw [if_neg (not_inputTooLong hl), h]

theorem execPktDec_of_inputIs {f : Bytes} (e : Byte) (hc : s.ibuf.Canonical) (hl : s.inLen.toNat ≤ s.params.ibufSize)
    (hf : s.InputIs f) : execPktDec e s = .next (s.finishDecode (decodeFrame s.params.largeCap f s.imode e)) := by
  unfold execPktDec
  rw [if_neg (not_inputTooLong hl), decodeInput_eq_of_inputIs hc hf]
  rfl

/-! ### What the end of PKT.DEC writes -/

theorem finishDecode_frame (s : State) (r : Decoded) : s.finishDecode r =
    { s with
      obuf := (s.finishDecode r).obuf
      outLen := (s.finishDecode r).outLen
      result := (s.finishDecode r).result
      code := (s.finishDecode r).code } := by
  rcases finishDecode_cases s r with ⟨-, h⟩ | ⟨-, h⟩ <;> rw [h] <;> rfl

@[simp] theorem finishDecode_code (s : State) (r : Decoded) : (s.finishDecode r).code = r.code := by
  rcases finishDecode_cases s r with ⟨hok, h⟩ | ⟨-, h⟩
  · rw [h, State.finishPacket_code, hok]
  · rw [h, State.failPacket_code]

@[simp] theorem finishDecode_result (s : State) (r : Decoded) : (s.finishDecode r).result = r.value := by
  rcases finishDecode_cases s r with ⟨-, h⟩ | ⟨-, h⟩ <;> simp [h]

theorem finishDecode_of_ok {r : Decoded} (s : State) (h : r.code = .ok) :
    s.finishDecode r = s.finishPacket r.content r.value :=
  (finishDecode_cases s r).elim And.right fun hbad => absurd h hbad.1

theorem finishDecode_of_failure {r : Decoded} (s : State) (h : r.code ≠ .ok) :
    s.finishDecode r = s.failPacket r.code r.value :=
  (finishDecode_cases s r).elim (fun hok => absurd hok.1 h) And.right

end

/-! ### Fields that PKT.DEC does not read -/

/-- Two changes that PKT.DEC does not read, one after the other, are one. -/
theorem CodecBlind.comp {f g : State → State} (hf : CodecBlind f) (hg : CodecBlind g) :
    CodecBlind (fun s => f (g s)) where
  params s := (hf.params _).trans (hg.params s)
  inLen s := (hf.inLen _).trans (hg.inLen s)
  ibuf s := (hf.ibuf _).trans (hg.ibuf s)
  imode s := (hf.imode _).trans (hg.imode s)
  failPacket s c v := (hf.failPacket ..).trans (congrArg f (hg.failPacket s c v))
  finishPacket s out v := (hf.finishPacket ..).trans (congrArg f (hg.finishPacket s out v))

end Sys2Proof.Machine
end

section
/-! PROOFS. The packet decoder of 44_packet_decode.md: the statements on `decode` and PKT.DEC, settled. -/

namespace Sys2Proof.Machine

open Sys2Proof

/-- Settles O28: the checks of R160 one after the other, and in either format the trailer check with the declared
length of the format. -/
theorem decodeFollowsTheCheckOrder : Obligations.DecodeFollowsTheCheckOrder := by
  refine ⟨fun l f m e => ?_, fun l f extra m e fr => decodeFrame_append extra⟩
  by_cases hne : f.length = 0
  · rw [decodeFrame_of_empty hne, if_pos hne]
    rfl
  rw [if_neg hne]
  rcases framingOfStart_cases l (f.getD 0 0#8) with ⟨hb, hfr⟩ | ⟨hb, hfr⟩ | ⟨hsoh, hstx, hfr⟩
  · rw [decodeFrame_of_format_bytewise hne hfr, contentOf_small, hb]
    cases m <;> rfl
  · rw [decodeFrame_of_format_bytewise hne hfr, contentOf_large, framingOfCap_large, hb]
    cases m <;> rfl
  · rw [decodeFrame_of_badStart hne hfr]
    exact (if_pos ⟨hsoh, hstx⟩).symm

/-- Settles O29: with a legal start byte the pair alone decides SEQUENCE_MISMATCH, and each kind of wrong pair differs
from the expected one. -/
theorem sequenceCheckComparesBothBytes : Obligations.SequenceCheckComparesBothBytes := by
  refine ⟨fun l f m e h3 hb => ?_, fun l start x y tail m e hb hpair => ?_⟩
  · obtain ⟨fr, hfr⟩ := (exists_framingOfStart_iff l _).mpr hb
    rw [decodeFrame_code_ne_sequenceMismatch_iff hfr h3, ← not_iff_not, not_and_or]
    exact slice_pair_ne_iff h3 e
  · obtain ⟨fr, hfr⟩ := (exists_framingOfStart_iff l start).mpr hb
    refine decodeFrame_of_pair_ne (f := start :: x :: y :: tail) hfr (by simp) ?_
    rw [slice_pair_ne_iff (by simp)]
    change x ≠ e ∨ y ≠ 255#8 - e
    rcases hpair with ⟨hx, -⟩ | hsum | ⟨rfl, hy⟩
    · exact Or.inl hx
    · refine not_and_or.mp ?_
      rintro ⟨rfl, rfl⟩
      exact hsum (toNat_add_toNat_complement x)
    · exact Or.inr hy

/-- Settles O30: a whole frame with the expected pair is judged by its trailer, and PKT.DEC carries both accumulators
through (O20). -/
theorem trailerCheckRecomputesTheValue : Obligations.TrailerCheckRecomputesTheValue := by
  obtain ⟨-, hcarry⟩ := codecNeverTouchesTheAccumulators
  refine ⟨fun l start e data trailer fr hfr hd => ⟨?_, ?_⟩, fun e c v s => hcarry _ c v s ⟨e, Or.inr rfl⟩⟩
  · rintro x rfl
    obtain ⟨hvalue, hmatch, hmismatch⟩ := decodeFrame_whole_verdict (m := .checksum) (trailer := [x]) hfr hd rfl e
    rw [trailerBytes_integrityValue] at hmatch hmismatch
    exact ⟨hvalue, fun h => hmatch (congrArg (fun b => [b]) h), fun h => hmismatch fun hx => h (List.cons.inj hx).1⟩
  · rintro x y rfl
    exact decodeFrame_whole_verdict (m := .crc) (trailer := [x, y]) hfr hd rfl e

/-- Settles O31: a whole good frame gives the content its declared length selects, at most cap - P bytes. -/
theorem declaredLengthIsClamped : Obligations.DeclaredLengthIsClamped := by
  constructor
  · intro l e d rest m hrest data r
    have hcap : data.length = (framingOfCap smallCap).cap := congrArg Nat.succ hrest
    have hdec : r = _ := decodeFrame_of_good (framingOfStart_soh l) hcap m e
    rw [contentOf_small] at hdec
    have hcontent : r.content = rest.take (min d.toNat 127) := congrArg Decoded.content hdec
    refine ⟨congrArg Decoded.code hdec, hcontent, fun hD => ?_⟩
    rw [hcontent, List.length_take]
    omega
  · intro l e hi lo rest m hrest data D r
    have hcap : data.length = (framingOfCap l.bytes).cap := by
      rw [framingOfCap_cap, List.length_cons, List.length_cons, hrest]
      cases l <;> rfl
    have hdec : r = _ := decodeFrame_of_good (framingOfStart_stx l) hcap m e
    rw [contentOf_large] at hdec
    have hcontent : r.content = rest.take (min D (l.bytes - 2)) := congrArg Decoded.content hdec
    refine ⟨congrArg Decoded.code hdec, hcontent, fun hD => ?_⟩
    rw [hcontent, List.length_take]
    omega

/-- Settles O33: BAD_LENGTH, the end of PKT.DEC for R160's result, and each read of R160 that can find its byte
unwritten. -/
theorem pktDecDecodesTheInput : Obligations.PktDecDecodesTheInput := by
  refine ⟨fun e s => execPktDec_of_tooLong e, fun e s f hc hl hf => ?_, fun e s i hc hl hi hcase => ?_,
    cmdWord_zext16_eq_or 0x21#8,
    fun e p b s => execPktDec_carries ((codecBlind_setPad p).comp (codecBlind_setBmode b)) e s⟩
  · refine ⟨_, execPktDec_of_inputIs e hc hl hf, finishDecode_frame .., finishDecode_code ..,
      finishDecode_result .., ?_⟩
    rw [finishDecode_code, finishDecode_result]
    refine ⟨fun hok => ?_, fun hbad => ?_, decodeFrame_value_eq_zero⟩
    · have hlt := decodeInput_content_lt (decodeInput_eq_of_inputIs hc hf e)
      rw [finishDecode_of_ok s hok, finishPacket_outLen_toNat s _ hlt]
      exact ⟨finishPacket_outputIs s _ hlt, fun _ => finishPacket_read_after s _ _⟩
    · rw [finishDecode_of_failure s hbad]
      exact ⟨rfl, rfl⟩
  · refine execPktDec_of_decodeInput_eq_none hl ?_
    rcases hcase with ⟨rfl, hlen⟩ | ⟨b, fr, hstart, hfr, ⟨hi1, hlen⟩ | ⟨hi2, hlen, -⟩
      | ⟨h3, hle, hseq, hcompl, hwhole⟩⟩
    · exact decodeInput_of_unwritten_start e hc hlen hi
    · exact decodeInput_of_unwritten_pair hstart hfr e hc hlen (Or.inl hi1) hi
    · exact decodeInput_of_unwritten_pair hstart hfr e hc hlen (Or.inr hi2) hi
    · have htrailer : 0 < trailerLen s.imode := by cases s.imode <;> decide
      exact decodeInput_of_unwritten_frame hstart hfr hc hseq hcompl hwhole h3 (by unfold frameLen; omega) hi

end Sys2Proof.Machine
end

section
/-! PROOFS. Laws of R160's checks after the start byte, on a frame taken apart into its first bytes and its tail. -/

namespace Sys2Proof.Machine

open Sys2Proof

section
variable {l : LargeCap} {m : IMode} {x e : Byte} {fr : Framing} {tail : Bytes}
  (hfr : framingOfStart l x = some fr)
include hfr

/-- A legal start byte with no whole pair after it. -/
theorem decodeFrame_of_noPair (h : tail.length < 2) :
    decodeFrame l (x :: tail) m e = .failure .sequenceMismatch := by
  have hlen : (x :: tail).length < 3 := Nat.succ_lt_succ h
  rw [decodeFrame_of_format (by simp) hfr, if_pos hlen]

theorem decodeFrame_of_wrongPair {y z : Byte} (h : ¬ (y = e ∧ z = 255#8 - e)) :
    decodeFrame l (x :: y :: z :: tail) m e = .failure .sequenceMismatch := by
  have hpair : [y, z] ≠ seqPair e := by simpa [seqPair] using h
  rw [decodeFrame_cons, hfr]
  exact if_pos hpair

/-- The checks left once the pair is right: the length and then the trailer, both of the bytes after the pair. -/
theorem decodeFrame_of_rightPair (m : IMode) (e : Byte) (tail : Bytes) :
    decodeFrame l (x :: e :: (255#8 - e) :: tail) m e =
      if tail.length < fr.cap + trailerLen m then .failure .shortFrame
      else judgeFrame fr m (tail.take fr.cap) ((tail.drop fr.cap).take (trailerLen m)) := by
  have hpair : ¬ [e, 255#8 - e] ≠ seqPair e := not_not.mpr rfl
  rw [decodeFrame_cons, hfr]
  exact if_neg hpair

end

end Sys2Proof.Machine
end

section
/-! PROOFS. The status codes of 60_exceptions.md: the statement on their order, settled. -/

namespace Sys2Proof.Machine

open Sys2Proof

/-- Settles O40: each failure is the answer of the first check that fails, with the bytes after it left free. -/
theorem firstFailureIsReported : Obligations.FirstFailureIsReported := by
  refine ⟨fun w e s hw => ⟨_, command_of_error hw s, rfl⟩, fun i s hi hl => exec_badLength hi hl,
    fun q s hl hlong => ⟨_, execPktEnc_of_contentTooLong q hl hlong, rfl⟩, fun l m e => ⟨?empty, ?start, ?legal⟩⟩
  case empty => exact congrArg Decoded.code (decodeFrame_of_empty rfl)
  case start =>
    intro x tail hsoh hstx
    have hnone : framingOfStart l x = none := (if_neg hsoh).trans (if_neg hstx)
    exact congrArg Decoded.code (decodeFrame_of_badStart (f := x :: tail) (by simp) hnone)
  case legal =>
    refine fun x fr hfr => ⟨?_, fun y => ?_, fun y z tail hpair => ?_, fun tail hshort => ?_, fun tail hwhole hne => ?_⟩
    · exact congrArg Decoded.code (decodeFrame_of_noPair hfr (tail := []) Nat.two_pos)
    · exact congrArg Decoded.code (decodeFrame_of_noPair hfr (tail := [y]) Nat.one_lt_two)
    · exact congrArg Decoded.code (decodeFrame_of_wrongPair hfr hpair)
    · rw [decodeFrame_of_rightPair hfr, if_pos hshort]
      rfl
    · rw [decodeFrame_of_rightPair hfr, if_neg (Nat.not_lt.mpr hwhole), judgeFrame_of_mismatch hne]

end Sys2Proof.Machine
end

section
/-! PROOFS. The round trip of 30_encoding.md: the statements on decoding and encoding a command, settled. -/

namespace Sys2Proof.Machine

open Sys2Proof

/-- Settles O1: the operand of each form is read back from the IMM it is written to (`decode_encode`). -/
theorem decodeOfEncodeIsTheInstruction : Obligations.DecodeOfEncodeIsTheInstruction :=
  fun i _ => decode_encode i

/-- Settles O2: a legal word is its OP, RSV 0 and the IMM that the operand is written to (`encode_of_decode`). -/
theorem encodeOfDecodeIsTheWord : Obligations.EncodeOfDecodeIsTheWord :=
  fun _ _ => encode_of_decode

/-- Settles O5: the printed words, each run through the decoder. -/
theorem wordsPrintedInTheSpecDecode : Obligations.WordsPrintedInTheSpecDecode := by
  unfold Obligations.WordsPrintedInTheSpecDecode
  decide

end Sys2Proof.Machine
end

section
/-! PROOFS. Laws of a step: the word that `withFetchWord` places, and the invariant, which every command and every host
event keeps. -/

namespace Sys2Proof.Machine

open Sys2Proof

theorem tableWord_toNat (w : Word) : tableWord 32 w.toNat = w := by
  rw [tableWord, Nat.mod_eq_of_lt w.isLt, BitVec.ofNat_toNat, BitVec.setWidth_eq]

/-- The invariant holds of every state right after reset: both buffers are unwritten and OUT_LEN is 0. -/
theorem resetWith_inv {p : Params} (hp : p.Admitted) : (State.resetWith p).Inv where
  params := hp
  ibufCanonical := List.Pairwise.nil
  obufCanonical := List.Pairwise.nil
  ibufBelow := fun _ hc => absurd hc List.not_mem_nil
  obufBelow := fun _ hc => absurd hc List.not_mem_nil
  outLenFits := Nat.zero_le _
  outputWritten := fun i hi => absurd hi (Nat.not_lt_zero i)

section
variable {s t : State} (h : s.Inv)
include h

/-- The invariant reads the parameters, both buffers and OUT_LEN alone. -/
theorem State.Inv.congr (hparams : t.params = s.params) (hibuf : t.ibuf = s.ibuf) (hobuf : t.obuf = s.obuf)
    (houtLen : t.outLen = s.outLen) : t.Inv where
  params := hparams ▸ h.params
  ibufCanonical := hibuf ▸ h.ibufCanonical
  obufCanonical := hobuf ▸ h.obufCanonical
  ibufBelow := by rw [hibuf, hparams]; exact h.ibufBelow
  obufBelow := by rw [hobuf, hparams]; exact h.obufBelow
  outLenFits := by rw [houtLen, hparams]; exact h.outLenFits
  outputWritten := by rw [houtLen, hobuf]; exact h.outputWritten

theorem State.Inv.enqueue (es : List HostEvent) : (s.enqueue es).Inv := h.congr rfl rfl rfl rfl

/-- A packet command that fails leaves no output to be written. -/
theorem State.Inv.failPacket (c : StatusCode) (v : Half) : (s.failPacket c v).Inv :=
  { h with
    outLenFits := Nat.zero_le _
    outputWritten := fun i hi => absurd hi (Nat.not_lt_zero i) }

/-- A packet command that succeeds has written its whole output, which OBUF can hold. -/
theorem State.Inv.finishPacket {out : Bytes} (v : Half) (hout : out.length ≤ s.params.largeCap.bytes + 5) :
    (s.finishPacket out v).Inv := by
  obtain ⟨-, -, -, hroom, -⟩ := h.params
  have hfits : out.length ≤ s.params.obufSize := hout.trans hroom
  have hbytes := largeCap_bytes_le s.params.largeCap
  have hlt : out.length < 2 ^ 16 := by omega
  exact { h with
    obufCanonical := Memory.writeRange_canonical h.obufCanonical 0 out
    obufBelow := Memory.writeRange_below h.obufBelow ((Nat.zero_add _).trans_le hfits)
    outLenFits := (finishPacket_outLen_toNat s v hlt).trans_le hfits
    outputWritten := fun i hi => Option.isSome_iff_exists.mpr (finishPacket_output_written s v hlt i hi) }

/-- A byte that the host stores lies within IBUF. -/
theorem State.Inv.storeInput {i : Nat} (hi : i < s.params.ibufSize) (b : Byte) : (s.storeInput i b).Inv :=
  { h with
    ibufCanonical := Memory.write_canonical h.ibufCanonical i b
    ibufBelow := Memory.write_below h.ibufBelow hi b }

theorem exec_keeps_inv {i : Instr} (hx : exec i s = .next t) : t.Inv := by
  cases exec_next hx with
  | packetFailed c v => exact h.failPacket c v
  | packet out v hout => exact h.finishPacket v hout
  | config | sum | crc | badLength => exact h.congr rfl rfl rfl rfl

theorem event_keeps_inv {e : HostEvent} (he : EventEffect s e t) : t.Inv := by
  cases he with
  | store i b hi => exact h.storeInput hi b
  | command w i t _ hx => exact exec_keeps_inv h hx
  | reset => exact (resetWith_inv h.params).congr rfl rfl rfl rfl
  | readRegister | readInput | readOutput | inLen | illegal => exact h.congr rfl rfl rfl rfl

end

end Sys2Proof.Machine
end

section
/-! PROOFS. Steps, reset and the invariant: the statements on them, settled. -/

namespace Sys2Proof.Machine

open Sys2Proof

/-- Settles O6: a write of a legal word to CMD is the command, and `withFetchWord` places such a write. -/
theorem stepRunsTheDecodedCommand : Obligations.StepRunsTheDecodedCommand := by
  refine ⟨fun s w i rest hw => (step_w32 s .cmd w rest).trans (command_of_ok hw _), fun s i _ => ?_,
    fun s hs => step_idle hs⟩
  unfold State.withFetchWord
  rw [tableWord_toNat]
  exact (step_w32 s .cmd (encode i) s.pending).trans (command_of_ok (decode_encode i) s)

/-- Settles O55: the reference parameters are admitted too. -/
theorem resetMeetsTheInvariant : Obligations.ResetMeetsTheInvariant :=
  ⟨resetWith_inv (by decide), fun _ => resetWith_inv⟩

/-- Settles O56: a step is idle or performs one event, and every event keeps the invariant. -/
theorem stepKeepsTheInvariant : Obligations.StepKeepsTheInvariant := by
  intro s t h hstep
  rcases step_next hstep with ⟨-, rfl⟩ | ⟨e, rest, -, heff⟩
  · exact h
  · exact event_keeps_inv (s := { s with pending := rest }) (h.congr rfl rfl rfl rfl) heff

end Sys2Proof.Machine
end

section
/-! PROOFS. Laws of single-byte accesses and of the window: a range accessed one byte at a time, what each access at an
address answers, and commands over an IBUF that differs beyond the input. -/

namespace Sys2Proof.Machine

open Sys2Proof

/-! ### A range, one byte at a time (R55) -/

theorem Memory.writeBytes_canonical {m : Memory} (hc : m.Canonical) (a : Nat) (bs : Bytes) :
    (m.writeBytes a bs).Canonical := by
  induction bs generalizing m a with
  | nil => exact hc
  | cons b bs ih => exact ih (Memory.write_canonical hc a b) (a + 1)

/-- Both stores give the same reads, and the canonical form is unique. -/
theorem Memory.writeRange_eq_writeBytes {m : Memory} (hc : m.Canonical) (a : Nat) (bs : Bytes) :
    m.writeRange a bs = m.writeBytes a bs :=
  Memory.ext_read (Memory.writeRange_canonical hc a bs) (Memory.writeBytes_canonical hc a bs) fun i => by
    rw [Memory.read_writeRange, Memory.read_writeBytes]

/-- Options read one after the other give values exactly where each of them is that value. -/
theorem mapM_id_eq_some_iff {α : Type} {l : List (Option α)} {xs : List α} : l.mapM id = some xs ↔ l = xs.map some := by
  induction l generalizing xs with
  | nil => cases xs <;> simp
  | cons o l ih =>
    cases o with
    | none => cases xs <;> simp
    | some x => cases xs <;> simp [Option.bind_eq_some_iff, ih, and_comm]

theorem mapM_read_eq_some_iff {m : Memory} {a n : Nat} {bs : Bytes} :
    ((List.range n).map fun i => m.read (a + i)).mapM id = some bs
      ↔ bs.length = n ∧ ∀ i, (h : i < bs.length) → m.read (a + i) = some bs[i] := by
  rw [mapM_id_eq_some_iff]
  constructor
  · intro h
    have hlen : n = bs.length := by simpa using congrArg List.length h
    refine ⟨hlen.symm, fun i hi => ?_⟩
    simpa [hlen, hi] using congrArg (·[i]?) h
  · rintro ⟨rfl, hread⟩
    refine List.ext_getElem (by simp) fun i hi _ => ?_
    simpa using hread i (by simpa using hi)

theorem Memory.readRange_eq_mapM {m : Memory} (hc : m.Canonical) (a n : Nat) :
    m.readRange a n = ((List.range n).map fun i => m.read (a + i)).mapM id := by
  ext1 bs
  rw [Memory.readRange_eq_some hc, mapM_read_eq_some_iff]

/-! ### Accesses at each kind of address (R54, R56) -/

section
variable {s : State} {i : Nat}

theorem perform_r8_ibuf (hi : i < s.params.ibufSize) (hsize : s.params.ibufSize ≤ 0x4000) :
    perform (.r8 (ibufAddr s.params i)) s = returnByte (s.ibuf.read i) .unwrittenInput s := by
  simp only [perform, hostRead8]
  rw [placeOf_ibuf s.params (by omega)]
  exact if_neg (by omega)

theorem perform_r8_obuf_unwritten (hi : i < s.params.obufSize) (hsize : s.params.obufSize ≤ 0x4000)
    (h : s.obuf.read i = none) : perform (.r8 (obufAddr s.params i)) s = .fault .unwrittenOutput := by
  simp only [perform, hostRead8]
  rw [placeOf_obuf s.params (by omega)]
  dsimp only
  rw [if_neg (by omega), h]
  rfl

theorem perform_w8_obuf (hi : i < 0x4000) (b : Byte) :
    perform (.w8 (obufAddr s.params i) b) s = .fault .outputBufferWrite := by
  simp only [perform, hostWrite8]
  rw [placeOf_obuf s.params hi]

end

section
variable {s : State} {addr : Nat}

theorem perform_otherWidth_faults (s : State) (addr bits : Nat) (w : Bool) :
    ∃ f, perform (.otherWidth addr bits w) s = .fault f := by
  simp only [perform, hostOtherWidth]
  cases placeOf s.params addr <;> exact ⟨_, rfl⟩

/-- A 32-bit access that reaches no register, read or write, faults for the reason `wordAccess` gives. -/
theorem perform_word_of_error {f : Fault} (h : wordAccess s.params addr = .error f) :
    perform (.r32 addr) s = .fault f ∧ ∀ v, perform (.w32 addr v) s = .fault f := by
  simp only [perform, hostRead32, hostWrite32, h, implies_true, and_self]

theorem wordAccess_error_of_no_register {p : Params} (h : ∀ r, addr ≠ regAddr p r) :
    ∃ f, wordAccess p addr = .error f := by
  cases hr : wordAccess p addr with
  | error f => exact ⟨f, rfl⟩
  | ok r => exact absurd (wordAccess_ok hr) (h r)

theorem wordAccess_misaligned (p : Params) {off : Nat} (h : off < 0x4000) (halign : off % 4 ≠ 0) :
    wordAccess p (p.base + off) = .error .misaligned := by
  unfold wordAccess
  rw [placeOf_register p h]
  exact if_pos halign

/-- Every register lies below offset 0x2C (10_state.md R39). -/
theorem regAt_eq_none {off : Nat} (h : 0x2C ≤ off) : regAt off = none := by
  cases hr : regAt off with
  | none => rfl
  | some r =>
    have hoff : r.offset < 0x2C := by cases r <;> decide
    have heq := regAt_eq_some hr
    omega

theorem wordAccess_reserved (p : Params) {off : Nat} (hlow : 0x2C ≤ off) (h : off < 0x4000) (halign : off % 4 = 0) :
    wordAccess p (p.base + off) = .error .reservedOffset := by
  unfold wordAccess
  rw [placeOf_register p h]
  dsimp only
  rw [if_neg (not_not.mpr halign), regAt_eq_none hlow]

/-- An 8-bit write that is at no byte of IBUF faults, whatever it writes. -/
theorem perform_w8_faults (h : ∀ i < s.params.ibufSize, addr ≠ ibufAddr s.params i) :
    ∃ f, ∀ b, perform (.w8 addr b) s = .fault f := by
  simp only [perform, hostWrite8]
  rcases placeOf_cases s.params addr with ⟨_, -, -, hp⟩ | ⟨i, -, hi, hp⟩ | ⟨_, -, -, hp⟩ | ⟨_, -, -, -, hp⟩ | ⟨-, hp⟩
  case inr.inl =>
    have hbeyond : s.params.ibufSize ≤ i := Nat.not_lt.mp fun hlt => h i hlt hi
    rw [hp]
    exact ⟨_, fun _ => if_pos hbeyond⟩
  all_goals
    rw [hp]
    exact ⟨_, fun _ => rfl⟩

/-- An 8-bit read that is at no byte of either buffer faults. -/
theorem perform_r8_faults (hin : ∀ i < s.params.ibufSize, addr ≠ ibufAddr s.params i)
    (hout : ∀ i < s.params.obufSize, addr ≠ obufAddr s.params i) : ∃ f, perform (.r8 addr) s = .fault f := by
  simp only [perform, hostRead8]
  rcases placeOf_cases s.params addr with ⟨_, -, -, hp⟩ | ⟨i, -, hi, hp⟩ | ⟨i, -, hi, hp⟩ | ⟨_, -, -, -, hp⟩ | ⟨-, hp⟩
  case inr.inl =>
    have hbeyond : s.params.ibufSize ≤ i := Nat.not_lt.mp fun hlt => hin i hlt hi
    rw [hp]
    exact ⟨_, if_pos hbeyond⟩
  case inr.inr.inl =>
    have hbeyond : s.params.obufSize ≤ i := Nat.not_lt.mp fun hlt => hout i hlt hi
    rw [hp]
    exact ⟨_, if_pos hbeyond⟩
  all_goals
    rw [hp]
    exact ⟨_, rfl⟩

theorem writeReg_inLen_of_lt (s : State) {v : Word} (hv : v.toNat < 0x10000) :
    writeReg .inLen v s = .next (s.setInLen (BitVec.ofNat 16 v.toNat)) := by
  have hword : v = (BitVec.ofNat 16 v.toNat).setWidth 32 := by
    apply BitVec.eq_of_toNat_eq
    simp only [BitVec.toNat_setWidth, BitVec.toNat_ofNat]
    omega
  rw [hword, writeReg_inLen_fits, ← hword]

end

/-! ### Commands read of IBUF only the input (R51) -/

theorem Memory.readRange_congr {m m' : Memory} (hm : m.Canonical) (hm' : m'.Canonical) {a n : Nat}
    (h : ∀ i < n, m'.read (a + i) = m.read (a + i)) : m'.readRange a n = m.readRange a n := by
  rw [Memory.readRange_eq_mapM hm, Memory.readRange_eq_mapM hm']
  exact congrArg (List.mapM id) (List.map_congr_left fun i hi => h i (List.mem_range.mp hi))

/-- Two readers that agree on the frame's bytes decode alike: every read of R160 stands after the check that its bytes
are there. -/
theorem decodeVia_congr {rd rd' : Nat → Nat → Option Bytes} {len : Nat} (h : ∀ a n, a + n ≤ len → rd' a n = rd a n)
    (l : LargeCap) (m : IMode) (e : Byte) : decodeVia rd' len l m e = decodeVia rd len l m e := by
  unfold decodeVia
  refine ite_congr rfl (fun _ => rfl) fun hne => ?_
  rw [h 0 1 (by omega)]
  refine congrArg (rd 0 1).bind (funext fun start => ?_)
  cases framingOfStart l (start.getD 0 0#8) with
  | none => rfl
  | some fr =>
    refine ite_congr rfl (fun _ => rfl) fun h3 => ?_
    rw [h 1 2 (by omega)]
    refine congrArg (rd 1 2).bind (funext fun pair => ?_)
    refine ite_congr rfl (fun _ => rfl) fun _ => ?_
    refine ite_congr rfl (fun _ => rfl) fun hlen => ?_
    unfold frameLen at hlen
    rw [h 3 fr.cap (by omega), h (3 + fr.cap) (trailerLen m) (by omega)]

section
variable {s : State} {m : Memory} (hs : s.ibuf.Canonical) (hm : m.Canonical)
  (h : ∀ j < s.inLen.toNat, m.read j = s.ibuf.read j)
include hs hm h

theorem inputRange_setIbuf {a n : Nat} (hn : a + n ≤ s.inLen.toNat) :
    State.inputRange { s with ibuf := m } a n = s.inputRange a n :=
  Memory.readRange_congr hs hm fun i hi => h (a + i) (by omega)

theorem input_setIbuf : State.input { s with ibuf := m } = s.input :=
  inputRange_setIbuf hs hm h (Nat.zero_add _).le

theorem decodeInput_setIbuf (e : Byte) : State.decodeInput { s with ibuf := m } e = s.decodeInput e :=
  decodeVia_congr (fun _ _ => inputRange_setIbuf hs hm h) _ _ _

theorem feed_setIbuf {k k' : Bytes → State} (hk : ∀ data, k' data = { k data with ibuf := m }) :
    feed { s with ibuf := m } k' = onNext (fun t => { t with ibuf := m }) (feed s k) := by
  have hlong : State.inputTooLong { s with ibuf := m } = s.inputTooLong := rfl
  unfold feed
  rw [hlong, input_setIbuf hs hm h]
  cases s.inputTooLong with
  | true => rfl
  | false =>
    cases s.input with
    | none => rfl
    | some data => exact congrArg done (hk data)

theorem execPktEnc_setIbuf (q : Byte) :
    execPktEnc q { s with ibuf := m } = onNext (fun t => { t with ibuf := m }) (execPktEnc q s) := by
  have hlong : State.inputTooLong { s with ibuf := m } = s.inputTooLong := rfl
  have hcap : State.encodeCap { s with ibuf := m } = s.encodeCap := rfl
  have hmax : State.encodeContentCap { s with ibuf := m } = s.encodeContentCap := rfl
  unfold execPktEnc
  rw [hlong, input_setIbuf hs hm h, hmax, hcap]
  split
  · rfl
  · split
    · rfl
    · cases s.input with
      | none => rfl
      | some content =>
        dsimp only
        cases encodeFrame q content s.encodeCap s.pad s.imode <;> rfl

theorem execPktDec_setIbuf (e : Byte) :
    execPktDec e { s with ibuf := m } = onNext (fun t => { t with ibuf := m }) (execPktDec e s) := by
  have hlong : State.inputTooLong { s with ibuf := m } = s.inputTooLong := rfl
  unfold execPktDec
  rw [hlong, decodeInput_setIbuf hs hm h]
  cases s.inputTooLong with
  | true => rfl
  | false =>
    cases s.decodeInput e with
    | none => rfl
    | some r =>
      obtain ⟨c, v, content⟩ := r
      cases c <;> rfl

/-- A command carries through the bytes of IBUF that are not its input. -/
theorem exec_setIbuf (i : Instr) :
    exec i { s with ibuf := m } = onNext (fun t => { t with ibuf := m }) (exec i s) := by
  cases i with
  | csumFeed | crcFeed => exact feed_setIbuf hs hm h fun _ => rfl
  | pktEnc q => exact execPktEnc_setIbuf hs hm h q
  | pktDec e => exact execPktDec_setIbuf hs hm h e
  | csumSeed | crcSeed | cfgPad | cfgImode | cfgBmode => rfl

end

/-! ### Commands write of OBUF only the output (R52) -/

section
variable {i : Instr} {s t : State}

theorem exec_keeps_obuf (h : exec i s = .next t) (henc : ∀ q, i ≠ .pktEnc q) (hdec : ∀ q, i ≠ .pktDec q) :
    t.obuf = s.obuf := by
  cases exec_effect h with
  | pktEncFailed q | pktEnc q => exact absurd rfl (henc q)
  | pktDecTooLong q | pktDecFailed q | pktDec q => exact absurd rfl (hdec q)
  | _ => rfl

theorem packet_keeps_obuf_after {q : Byte} (hi : i = .pktEnc q ∨ i = .pktDec q) (h : exec i s = .next t) {j : Nat}
    (hj : t.outLen.toNat ≤ j) : t.obuf.read j = s.obuf.read j := by
  rcases packet_next hi h with ⟨c, v, -, rfl⟩ | ⟨out, v, hlen, rfl⟩
  · rfl
  · rw [finishPacket_outLen_toNat s v hlen] at hj
    exact finishPacket_read_after s out v hj

theorem step_keeps_obuf_after {q : Byte} (h : step s = .next t) (hr : ¬ s.resetNext)
    (hq : s.nextCommand = some (.pktEnc q) ∨ s.nextCommand = some (.pktDec q)) {j : Nat} (hj : t.outLen.toNat ≤ j) :
    t.obuf.read j = s.obuf.read j := by
  rcases step_command_or_access h hr with ⟨i, rest, hi, hx⟩ | ht
  · rw [hi] at hq
    exact packet_keeps_obuf_after (hq.imp Option.some.inj Option.some.inj) hx hj
  · rw [ht]

end

end Sys2Proof.Machine
end

section
/-! PROOFS. The accesses of 20_memory.md: the statements on byte accesses and on what is admitted, settled. -/

namespace Sys2Proof.Machine

open Sys2Proof

/-- Settles O53: a range stored and a range read have the reads of their single-byte accesses. -/
theorem rangeAccessIsBytewise : Obligations.RangeAccessIsBytewise :=
  ⟨fun _ a bs hc => Memory.writeRange_eq_writeBytes hc a bs, fun _ a n hc => Memory.readRange_eq_mapM hc a n⟩

/-- Settles O50: the accesses at each buffer's addresses, then what commands read of IBUF and write of OBUF. -/
theorem bufferBytes : Obligations.BufferBytes := by
  refine ⟨?_, ?_, ?_, fun i m s hs hm h => exec_setIbuf hs hm h i, ?_⟩
  · rintro s i b rest ⟨-, -, hsize, -⟩ hi
    refine ⟨_, (step_event rfl).trans (perform_w8_ibuf { s with pending := rest } hi hsize b), rfl,
      Memory.read_write_same .., fun j hj => Memory.read_write_other _ _ hj⟩
  · rintro s i rest ⟨-, -, hsize, -⟩ hi
    have hread := (step_event (s := { s with pending := .r8 (ibufAddr s.params i) :: rest }) rfl).trans
      (perform_r8_ibuf (s := { s with pending := rest }) hi hsize)
    refine ⟨fun b hb => hread.trans ?_, fun hn => hread.trans ?_⟩
    · dsimp only
      rw [hb]
      rfl
    · dsimp only
      rw [hn]
      rfl
  · rintro s i rest ⟨-, -, -, -, hsize⟩ hi
    exact ⟨fun b hb => (step_event rfl).trans (perform_r8_obuf { s with pending := rest } hi hsize hb),
      fun hn => (step_event rfl).trans (perform_r8_obuf_unwritten (s := { s with pending := rest }) hi hsize hn),
      fun b => (step_event rfl).trans (perform_w8_obuf (s := { s with pending := rest }) (hi.trans_le hsize) b)⟩
  · intro s t h hr
    refine ⟨fun henc hdec => ?_, fun q hq j => step_keeps_obuf_after h hr hq⟩
    refine step_keeps State.obuf (fun _ _ _ _ _ _ => rfl) h hr fun i u hi hx => ?_
    exact exec_keeps_obuf hx (fun q hq => henc q (hq ▸ hi)) fun q hq => hdec q (hq ▸ hi)

/-- Settles O51: first the accesses that fault, by width, address and direction, then what each admitted one does. -/
theorem otherAccessesAreNotAdmitted : Obligations.OtherAccessesAreNotAdmitted := by
  refine ⟨perform_otherWidth_faults, fun s addr h => ?_,
    fun s off h halign => perform_word_of_error (wordAccess_misaligned s.params h halign),
    fun s off hlow h halign => perform_word_of_error (wordAccess_reserved s.params hlow h halign),
    fun s addr hin => ⟨perform_w8_faults hin, perform_r8_faults hin⟩,
    fun s r hcmd hlen => rejectsWrites hcmd hlen s,
    fun s v hv => (perform_w32 _ s .inLen v rfl).trans (writeReg_inLen_tooWide s hv),
    fun s w e hw => (perform_w32 _ s .cmd w rfl).trans (command_of_error hw s),
    fun s w i hw => (perform_w32 _ s .cmd w rfl).trans (command_of_ok hw s),
    fun s r => ⟨_, perform_r32 _ s r rfl⟩,
    fun s v hv => (perform_w32 _ s .inLen v rfl).trans (writeReg_inLen_of_lt s hv), ?_, ?_⟩
  · obtain ⟨f, hf⟩ := wordAccess_error_of_no_register h
    obtain ⟨hr, hw⟩ := perform_word_of_error hf
    exact ⟨⟨f, hr⟩, fun v => ⟨f, hw v⟩⟩
  · rintro s i ⟨-, -, hsize, -⟩ hi
    refine ⟨fun b => ⟨_, perform_w8_ibuf s hi hsize b, rfl, Memory.read_write_same ..⟩, fun b hb => ?_⟩
    rw [perform_r8_ibuf hi hsize, hb]
    rfl
  · rintro s i b ⟨-, -, -, -, hsize⟩ hi hb
    exact perform_r8_obuf s hi hsize hb

end Sys2Proof.Machine
end

section
/-! PROOFS. Laws of the checksum as a sum: chaining, order, the seed, zero bytes, one byte changed. -/

namespace Sys2Proof.Machine

open Sys2Proof

theorem checksum_perm {a b : Bytes} (h : a.Perm b) (s : Byte) : checksum a s = checksum b s := by
  apply BitVec.eq_of_toNat_eq
  rw [checksum_toNat, checksum_toNat, (h.map BitVec.toNat).sum_eq]

theorem checksum_eq_seed_add (d : Bytes) (s : Byte) : checksum d s = s + checksum d 0#8 := by
  apply BitVec.eq_of_toNat_eq
  rw [BitVec.toNat_add, checksum_toNat, checksum_toNat, BitVec.toNat_ofNat]
  omega

theorem checksum_zeros (n : Nat) (s : Byte) : checksum (List.replicate n 0#8) s = s := by
  induction n with
  | zero => rfl
  | succ n ih => rw [List.replicate_succ, checksum_cons, BitVec.add_zero, ih]

end Sys2Proof.Machine
end

section
/-! PROOFS. Laws of the CRC over GF(2): each step is linear and loses no bit, a byte that no reduction meets is only
shifted, and so what a data's own CRC, a printed table entry and a changed byte do. -/

namespace Sys2Proof.Machine

open Sys2Proof

/-! ### Linearity -/

theorem crcBit_getLsbD (c : Half) (i : Nat) :
    (crcBit c).getLsbD i = ((c <<< 1).getLsbD i ^^ (c.getLsbD 15 && (0x1021#16).getLsbD i)) := by
  unfold crcBit
  cases h : c.getLsbD 15 <;> simp

theorem crcBit_xor (a b : Half) : crcBit (a ^^^ b) = crcBit a ^^^ crcBit b := by
  apply BitVec.eq_of_getLsbD_eq
  intro i _
  simp only [crcBit_getLsbD, BitVec.shiftLeft_xor_distrib, BitVec.getLsbD_xor, Bool.and_xor_distrib_right,
    Bool.xor_assoc, Bool.xor_left_comm]

theorem crcBits_xor (n : Nat) (a b : Half) : crcBits n (a ^^^ b) = crcBits n a ^^^ crcBits n b := by
  induction n generalizing a b with
  | zero => rfl
  | succ n ih => simp only [crcBits, crcBit_xor, ih]

theorem zext16_xor (x y : Byte) : zext16 (x ^^^ y) = zext16 x ^^^ zext16 y := BitVec.setWidth_xor

theorem crcByte_xor (s t : Half) (x y : Byte) : crcByte (s ^^^ t) (x ^^^ y) = crcByte s x ^^^ crcByte t y := by
  unfold crcByte
  rw [← crcBits_xor, zext16_xor, BitVec.shiftLeft_xor_distrib]
  ac_rfl

theorem crc16_xor {x y : Bytes} (h : x.length = y.length) (s t : Half) :
    crc16 (List.zipWith (· ^^^ ·) x y) (s ^^^ t) = crc16 x s ^^^ crc16 y t := by
  induction x generalizing y s t with
  | nil =>
    obtain rfl := List.length_eq_zero_iff.mp h.symm
    rfl
  | cons b x ih =>
    obtain ⟨c, y, rfl⟩ := List.exists_cons_of_length_eq_add_one h.symm
    rw [List.zipWith_cons_cons, crc16_cons, crc16_cons, crc16_cons, crcByte_xor, ih (Nat.succ.inj h)]

/-! ### Bits that meet no reduction -/

/-- A value whose high `n` bits are 0 is only shifted. -/
theorem crcBits_eq_shiftLeft {n : Nat} {v : Half} (h : ∀ i, 16 ≤ i + n → v.getLsbD i = false) :
    crcBits n v = v <<< n := by
  induction n generalizing v with
  | zero => exact (BitVec.shiftLeft_zero v).symm
  | succ n ih =>
    have hbit : crcBit v = v <<< 1 := if_neg (by rw [h 15 (by omega)]; exact Bool.false_ne_true)
    rw [crcBits, hbit, ih fun i hi => ?_, ← BitVec.shiftLeft_add, Nat.add_comm]
    rw [BitVec.getLsbD_shiftLeft]
    by_cases h0 : i < 1
    · simp [h0]
    · simp [h (i - 1) (by omega)]

theorem crcBits_zext16 (b : Byte) : crcBits 8 (zext16 b) = zext16 b <<< 8 :=
  crcBits_eq_shiftLeft fun i hi => by
    rw [zext16, BitVec.getLsbD_setWidth, BitVec.getLsbD_of_ge b i (by omega), Bool.and_false]

theorem half_eq_hi_xor_lo (v : Half) : v = (zext16 (hiByte v) <<< 8) ^^^ zext16 (loByte v) := by
  apply BitVec.eq_of_getLsbD_eq
  intro i hi
  simp only [zext16, hiByte, loByte, BitVec.getLsbD_xor, BitVec.getLsbD_shiftLeft, BitVec.getLsbD_setWidth,
    BitVec.getLsbD_extractLsb']
  by_cases h : i < 8
  · simp [h, hi]
  · have h8 : 8 + (i - 8) = i := by omega
    have hlt : i - 8 < 8 := by omega
    have h16 : i - 8 < 16 := by omega
    simp [h, hi, h8, hlt, h16]

theorem zext16_loByte_shiftLeft (v : Half) : zext16 (loByte v) <<< 8 = v <<< 8 := by
  apply BitVec.eq_of_getLsbD_eq
  intro i hi
  simp only [zext16, loByte, BitVec.getLsbD_shiftLeft, BitVec.getLsbD_setWidth, BitVec.getLsbD_extractLsb']
  by_cases h : i < 8
  · simp [h]
  · have hlt : i - 8 < 8 := by omega
    have h16 : i - 8 < 16 := by omega
    simp [h, hi, hlt, h16]

/-- The byte step, by the two bytes of the CRC: the high one meets the data, the low one is shifted up (R121). -/
theorem crcByte_eq (c : Half) (b : Byte) : crcByte c b = (c <<< 8) ^^^ crcByte 0#16 (hiByte c ^^^ b) := by
  have hsplit : c ^^^ (zext16 b <<< 8) = zext16 (loByte c) ^^^ (0#16 ^^^ (zext16 (hiByte c ^^^ b) <<< 8)) := by
    conv_lhs => rw [half_eq_hi_xor_lo c]
    rw [zext16_xor, BitVec.shiftLeft_xor_distrib, BitVec.zero_xor]
    ac_rfl
  unfold crcByte
  rw [hsplit, crcBits_xor, crcBits_zext16, zext16_loByte_shiftLeft]

theorem crcByte_zero_zero : crcByte 0#16 0#8 = 0#16 := by decide

/-- A data's CRC, fed after the data, runs the CRC to zero (R126 (d)). -/
theorem crc16_be16_self (c : Half) : crc16 (be16 c) c = 0#16 := by
  have hhigh : crcByte c (hiByte c) = c <<< 8 := by
    rw [crcByte_eq, BitVec.xor_self, crcByte_zero_zero, BitVec.xor_zero]
  have hhi : hiByte (c <<< 8) = loByte c := by
    apply BitVec.eq_of_getLsbD_eq
    intro i hi
    have hlt : 8 + i < 16 := by omega
    have hlt' : i < 16 := by omega
    simp [hiByte, loByte, hi, hlt, BitVec.getLsbD_eq_getElem hlt']
  have hzero : c <<< 8 <<< 8 = 0#16 := by
    rw [← BitVec.shiftLeft_add]
    exact BitVec.shiftLeft_eq_zero (by decide)
  have hlow : crcByte (c <<< 8) (loByte c) = 0#16 := by
    rw [crcByte_eq, hhi, BitVec.xor_self, crcByte_zero_zero, BitVec.xor_zero, hzero]
  rw [be16, crc16_cons, crc16_cons, hhigh, hlow, crc16_nil]

theorem crc16_append_self (x : Bytes) (s : Half) : crc16 (x ++ be16 (crc16 x s)) s = 0#16 := by
  rw [crc16_append, crc16_be16_self]

/-! ### The printed table -/

/-- R125: the printed table, entry by entry. -/
theorem crcTableEntry_eq : ∀ i : Byte, crcTableEntry i = crc16 [i] 0#16 := by decide +kernel

theorem crcTableByte_eq (c : Half) (b : Byte) : crcTableByte c b = crcByte c b := by
  rw [crcTableByte, crcTableEntry_eq, crc16_cons, crc16_nil, ← crcByte_eq]

/-! ### No bit is lost -/

theorem crcBit_eq_zero {c : Half} (h : crcBit c = 0#16) : c = 0#16 := by
  have htop : c.getLsbD 15 = false := by
    have h0 : (crcBit c).getLsbD 0 = false := by rw [h]; rfl
    rw [crcBit_getLsbD] at h0
    simpa using h0
  apply BitVec.eq_of_getLsbD_eq
  intro i hi
  by_cases h15 : i = 15
  · rw [h15, htop]
    rfl
  · have hnext : (crcBit c).getLsbD (i + 1) = false := by rw [h, BitVec.getLsbD_zero]
    have hlt : i + 1 < 16 := by omega
    rw [crcBit_getLsbD, htop, BitVec.getLsbD_shiftLeft] at hnext
    simpa [hlt, BitVec.getLsbD_eq_getElem hi] using hnext

theorem crcBits_injective (n : Nat) : Function.Injective (crcBits n) := by
  induction n with
  | zero => exact Function.injective_id
  | succ n ih =>
    intro a b h
    have hbit : crcBit (a ^^^ b) = 0#16 := by rw [crcBit_xor, ih h, BitVec.xor_self]
    exact BitVec.xor_eq_zero_iff.mp (crcBit_eq_zero hbit)

theorem zext16_shiftLeft_injective : Function.Injective fun b : Byte => zext16 b <<< 8 := by
  have hback (b : Byte) : hiByte (zext16 b <<< 8) = b := by
    apply BitVec.eq_of_getLsbD_eq
    intro i hi
    have hlt : 8 + i < 16 := by omega
    simp [hiByte, zext16, hi, hlt]
  exact Function.LeftInverse.injective hback

theorem crcByte_injective_seed (b : Byte) : Function.Injective fun c => crcByte c b :=
  fun _ _ h => (BitVec.xor_left_inj _).mp (crcBits_injective 8 h)

theorem crcByte_injective_byte (c : Half) : Function.Injective (crcByte c) :=
  fun _ _ h => zext16_shiftLeft_injective ((BitVec.xor_right_inj _).mp (crcBits_injective 8 h))

theorem crc16_injective_seed (data : Bytes) : Function.Injective (crc16 data) := by
  induction data with
  | nil => exact Function.injective_id
  | cons b data ih => exact fun _ _ h => crcByte_injective_seed b (ih h)

end Sys2Proof.Machine
end

section
/-! PROOFS. Laws of the CRC as polynomial arithmetic: the polynomial of shifted and of XORed bits, and what each step of
the CRC does to it modulo the generator. -/

namespace Sys2Proof.Machine

open Sys2Proof Polynomial

/-- The generator of R127. -/
noncomputable def crcGenerator : (ZMod 2)[X] := X ^ 16 + X ^ 12 + X ^ 5 + 1

/-! ### The polynomial of a value's bits -/

theorem bitsPoly_xor {n : Nat} (v w : BitVec n) : bitsPoly (v ^^^ w) = bitsPoly v + bitsPoly w := by
  unfold bitsPoly
  rw [← Finset.sum_add_distrib]
  refine Finset.sum_congr rfl fun i _ => ?_
  rw [BitVec.getLsbD_xor]
  cases v.getLsbD i with
  | false => simp
  | true => cases w.getLsbD i <;> simp [CharTwo.add_self_eq_zero]

theorem bitsPoly_generator_low : bitsPoly 0x1021#16 = X ^ 12 + X ^ 5 + 1 := by
  have hbit (i : Nat) : (0x1021#16).getLsbD i = decide (i = 0 ∨ i = 5 ∨ i = 12) := by
    by_cases hi : i < 16
    · revert i
      decide
    · rw [BitVec.getLsbD_of_ge _ _ (by omega)]
      exact (decide_eq_false (by omega)).symm
  calc
    bitsPoly 0x1021#16 = 1 + X ^ 5 + X ^ 12 := by simp [bitsPoly, hbit, Finset.sum_range_succ]
    _ = X ^ 12 + X ^ 5 + 1 := by ring

/-- The shift drops bit 15, which stood for x^16. -/
theorem bitsPoly_shiftLeft_one (c : Half) :
    bitsPoly (c <<< 1) = X * bitsPoly c + if c.getLsbD 15 then X ^ 16 else 0 := by
  have hbit (i : Nat) (hi : i ∈ Finset.range 15) :
      (if (c <<< 1).getLsbD (i + 1) then X ^ (i + 1) else 0 : (ZMod 2)[X])
        = X * if c.getLsbD i then X ^ i else 0 := by
    have hlt : i + 1 < 16 := Nat.succ_lt_succ (Finset.mem_range.mp hi)
    have hlt' : i < 16 := Nat.lt_of_succ_lt hlt
    simp [hlt, BitVec.getLsbD_eq_getElem hlt', pow_succ']
  have htop : (X : (ZMod 2)[X]) * (if c.getLsbD 15 then X ^ 15 else 0) = if c.getLsbD 15 then X ^ 16 else 0 := by
    rw [mul_ite, mul_zero, ← pow_succ']
  unfold bitsPoly
  rw [Finset.sum_range_succ', Finset.sum_congr rfl hbit, ← Finset.mul_sum, Finset.sum_range_succ _ 15, mul_add, htop,
    add_assoc, CharTwo.add_self_eq_zero]
  simp

theorem bitsPoly_zext16_shiftLeft (b : Byte) : bitsPoly (zext16 b <<< 8) = bitsPoly b * X ^ 8 := by
  have hlow (i : Nat) (hi : i ∈ Finset.range 8) :
      (if (zext16 b <<< 8).getLsbD i then X ^ i else 0 : (ZMod 2)[X]) = 0 := by
    simp [Finset.mem_range.mp hi]
  have hhigh (i : Nat) (hi : i ∈ Finset.range 8) :
      (if (zext16 b <<< 8).getLsbD (8 + i) then X ^ (8 + i) else 0 : (ZMod 2)[X])
        = (if b.getLsbD i then X ^ i else 0) * X ^ 8 := by
    have hlt : 8 + i < 16 := by have := Finset.mem_range.mp hi; omega
    simp [zext16, hlt, Finset.mem_range.mp hi, pow_add, mul_comm]
  unfold bitsPoly
  rw [Finset.sum_range_add _ 8 8, Finset.sum_eq_zero hlow, zero_add, Finset.sum_congr rfl hhigh, Finset.sum_mul]

theorem degree_bitsPoly_lt (v : Half) : (bitsPoly v).degree < 16 := by
  unfold bitsPoly
  refine (degree_sum_le _ _).trans_lt ((Finset.sup_lt_iff (by decide)).mpr fun i hi => ?_)
  have hi' : (i : WithBot Nat) < 16 := by exact_mod_cast Finset.mem_range.mp hi
  split
  · rwa [degree_X_pow]
  · rw [degree_zero]
    decide

/-! ### The steps of the CRC modulo the generator -/

theorem bitsPoly_crcBit (c : Half) :
    bitsPoly (crcBit c) = X * bitsPoly c + if c.getLsbD 15 then crcGenerator else 0 := by
  unfold crcBit crcGenerator
  split
  · next h =>
    rw [bitsPoly_xor, bitsPoly_shiftLeft_one, if_pos h, bitsPoly_generator_low]
    ring
  · next h => rw [bitsPoly_shiftLeft_one, if_neg h]

/-- A polynomial modulo the generator. -/
noncomputable abbrev modGenerator : (ZMod 2)[X] →+* AdjoinRoot crcGenerator := AdjoinRoot.mk crcGenerator

theorem modGenerator_crcBit (c : Half) : modGenerator (bitsPoly (crcBit c)) = modGenerator (X * bitsPoly c) := by
  rw [bitsPoly_crcBit, map_add]
  split
  · rw [AdjoinRoot.mk_self, add_zero]
  · rw [map_zero, add_zero]

theorem modGenerator_crcBits (n : Nat) (c : Half) :
    modGenerator (bitsPoly (crcBits n c)) = modGenerator (bitsPoly c * X ^ n) := by
  induction n generalizing c with
  | zero => rw [crcBits, pow_zero, mul_one]
  | succ n ih =>
    rw [crcBits, ih, map_mul, modGenerator_crcBit, ← map_mul]
    exact congrArg modGenerator (by ring)

theorem modGenerator_crcByte (c : Half) (b : Byte) :
    modGenerator (bitsPoly (crcByte c b)) = modGenerator (bitsPoly c * X ^ 8 + bitsPoly b * X ^ 16) := by
  rw [crcByte, modGenerator_crcBits, bitsPoly_xor, bitsPoly_zext16_shiftLeft]
  exact congrArg modGenerator (by ring)

theorem bytesPoly_concat (data : Bytes) (b : Byte) :
    bytesPoly (data ++ [b]) = bytesPoly data * X ^ 8 + bitsPoly b := by
  simp [bytesPoly]

theorem modGenerator_crc16 (data : Bytes) (seed : Half) : modGenerator (bitsPoly (crc16 data seed)) =
    modGenerator (bytesPoly data * X ^ 16 + bitsPoly seed * X ^ (8 * data.length)) := by
  induction data using List.reverseRecOn with
  | nil => simp [bytesPoly]
  | append_singleton data b ih =>
    rw [crc16_append, crc16_cons, crc16_nil, modGenerator_crcByte, map_add, map_mul, ih, ← map_mul, ← map_add,
      bytesPoly_concat, List.length_append, List.length_singleton]
    exact congrArg modGenerator (by ring)

theorem degree_crcGenerator_low : (X ^ 12 + X ^ 5 + 1 : (ZMod 2)[X]).degree < 16 :=
  bitsPoly_generator_low ▸ degree_bitsPoly_lt 0x1021#16

theorem crcGenerator_eq : crcGenerator = X ^ 16 + (X ^ 12 + X ^ 5 + 1) := by
  unfold crcGenerator
  ring

theorem crcGenerator_monic : crcGenerator.Monic :=
  crcGenerator_eq ▸ monic_X_pow_add degree_crcGenerator_low

theorem degree_crcGenerator : crcGenerator.degree = 16 := by
  rw [crcGenerator_eq, degree_add_eq_left_of_degree_lt, degree_X_pow]
  · rfl
  · rw [degree_X_pow]
    exact degree_crcGenerator_low

theorem crc16_modByMonic (data : Bytes) (seed : Half) :
    (bytesPoly data * X ^ 16 + bitsPoly seed * X ^ (8 * data.length)) %ₘ crcGenerator
      = bitsPoly (crc16 data seed) := by
  have hself : bitsPoly (crc16 data seed) %ₘ crcGenerator = bitsPoly (crc16 data seed) :=
    (modByMonic_eq_self_iff crcGenerator_monic).mpr ((degree_bitsPoly_lt _).trans_eq degree_crcGenerator.symm)
  have hdvd := AdjoinRoot.mk_eq_mk.mp (modGenerator_crc16 data seed)
  rw [← hself, modByMonic_eq_of_dvd_sub crcGenerator_monic hdvd]

end Sys2Proof.Machine
end

section
/-! PROOFS. The checksum of 41_checksum.md and the CRC of 42_crc16.md: the statements on their laws, and on the CRC's
table and polynomial, settled. -/

namespace Sys2Proof.Machine

open Sys2Proof

/-- Settles O11: the checksum is a sum of numbers modulo 256 (`checksum_toNat`). -/
theorem checksumLaws : Obligations.ChecksumLaws :=
  ⟨checksum_nil, fun a b s => (checksum_append a b s).symm, fun _ _ s h => checksum_perm h s, checksum_eq_seed_add,
    fun d n s => by rw [checksum_append, checksum_zeros], by decide⟩

/-- Settles O18: the CRC is a linear fold over the bytes (`crc16_xor`), and its own value runs it to zero
(`crc16_append_self`). -/
theorem crcLaws : Obligations.CrcLaws :=
  ⟨crc16_nil, fun a b s => (crc16_append a b s).symm, crc16_zeros, crc16_append_self, fun _ _ s t h => crc16_xor h s t,
    by decide +kernel⟩

/-- Settles O17: the table holds what the low byte's shift leaves to do (`crcByte_eq`). -/
theorem tableDrivenFormIsTheBitwiseForm : Obligations.TableDrivenFormIsTheBitwiseForm := by
  have hstep : crcTableByte = crcByte := funext fun c => funext (crcTableByte_eq c)
  refine ⟨by decide +kernel, crcTableEntry_eq, fun data seed => ?_⟩
  rw [crc16ByTable, hstep]
  rfl

/-- Settles O16: both sides are congruent modulo the generator, and 16 bits are their own remainder
(`crc16_modByMonic`). -/
theorem crcIsThePolynomialRemainder : Obligations.CrcIsThePolynomialRemainder := by
  unfold Obligations.CrcIsThePolynomialRemainder
  intro data seed
  rw [← crc16_modByMonic data seed, crcGenerator]

end Sys2Proof.Machine
end

section
/-! PROOFS. Laws of an encoded frame taken apart: its first three bytes, its data field and its trailer; what the
decoder answers of it, whole or changed; and where the pad byte shows. -/

namespace Sys2Proof.Machine

open Sys2Proof

/-! ### The formats of the two block-size modes -/

/-- The decoder reads the encoder's format from the start byte (R78). -/
theorem framingOfStart_start (l : LargeCap) (b : BMode) :
    framingOfStart l (framingOfCap (capOfMode l b)).start = some (framingOfCap (capOfMode l b)) := by
  cases b with
  | xmodem => rfl
  | xmodem1k => cases l <;> rfl

theorem contentCap_capOfMode (l : LargeCap) (b : BMode) : (framingOfCap (capOfMode l b)).contentCap =
    match b with
    | .xmodem => 127
    | .xmodem1k => l.bytes - 2 := by
  cases b with
  | xmodem => rfl
  | xmodem1k => exact congrArg Framing.contentCap (framingOfCap_large l)

/-! ### The content of a data field -/

/-- The length field of a content that fits is wide enough for its length (R140, R160). -/
theorem declaredLength_dataField (l : LargeCap) (b : BMode) {content : Bytes} (pad : Byte)
    (hfit : content.length ≤ (framingOfCap (capOfMode l b)).contentCap) :
    declaredLength (framingOfCap (capOfMode l b)) (dataField (framingOfCap (capOfMode l b)) content pad)
      = content.length := by
  rw [contentCap_capOfMode] at hfit
  cases b with
  | xmodem => exact Nat.mod_eq_of_lt (Nat.lt_of_le_of_lt (m := 127) hfit (by decide))
  | xmodem1k =>
    have hbytes := largeCap_bytes_le l
    have hfit : content.length ≤ l.bytes - 2 := hfit
    have hlen : content.length < 2 ^ 16 := by omega
    change declaredLength (framingOfCap l.bytes) (dataField (framingOfCap l.bytes) content pad) = content.length
    rw [framingOfCap_large]
    change (hiByte (BitVec.ofNat 16 content.length) ++ loByte (BitVec.ofNat 16 content.length)).toNat = content.length
    rw [hiByte_append_loByte, BitVec.toNat_ofNat, Nat.mod_eq_of_lt hlen]

/-- The decoder extracts exactly the content that the encoder put in. -/
theorem contentOf_dataField (l : LargeCap) (b : BMode) {content : Bytes} (pad : Byte)
    (hfit : content.length ≤ (framingOfCap (capOfMode l b)).contentCap) :
    contentOf (framingOfCap (capOfMode l b)) (dataField (framingOfCap (capOfMode l b)) content pad) = content := by
  have hprefix := lengthPrefix_length _ content.length (framingOfCap_prefixLen (capOfMode l b))
  rw [contentOf, declaredLength_dataField l b pad hfit, min_eq_left hfit, dataField, List.append_assoc,
    List.drop_left' hprefix, List.take_left' rfl]

/-! ### An encoded frame, taken apart -/

section
variable {seq : Byte} {content : Bytes} {l : LargeCap} {b : BMode} {pad : Byte} {m : IMode} {r : Encoded}

/-- The parts of an encoded frame: a data field of `cap` bytes, around it the start byte, the pair and the trailer. -/
structure FrameParts (l : LargeCap) (b : BMode) (seq : Byte) (m : IMode) (r : Encoded) (data : Bytes) : Prop where
  length : data.length = (framingOfCap (capOfMode l b)).cap
  trailer : r.trailer = integrityValue m data
  frame : r.frame = (framingOfCap (capOfMode l b)).start :: seq :: (255#8 - seq)
    :: (data ++ trailerBytes m (integrityValue m data))

theorem encodeFrame_parts (h : encodeFrame seq content (capOfMode l b) pad m = some r) :
    FrameParts l b seq m r (dataField (framingOfCap (capOfMode l b)) content pad) := by
  obtain ⟨hfit, htv, hframe⟩ := encodeFrame_eq_some h
  exact ⟨(dataField_length content pad (two_le_capOfMode l b) hfit).trans (framingOfCap_cap _).symm, htv,
    htv ▸ hframe⟩

theorem FrameParts.tail_length {data : Bytes} (h : FrameParts l b seq m r data) :
    (data ++ trailerBytes m (integrityValue m data)).length = (framingOfCap (capOfMode l b)).cap + trailerLen m := by
  rw [List.length_append, h.length, trailerBytes_length]

/-! ### Decoding an encoded frame -/

theorem decodeFrame_encodeFrame (h : encodeFrame seq content (capOfMode l b) pad m = some r) :
    decodeFrame l r.frame m seq = ⟨.ok, r.trailer, content⟩ := by
  obtain ⟨hfit, -, -⟩ := encodeFrame_eq_some h
  obtain ⟨hlen, htv, hframe⟩ := encodeFrame_parts h
  rw [hframe, htv]
  exact (decodeFrame_of_good (framingOfStart_start l b) hlen m seq).trans (by rw [contentOf_dataField l b pad hfit])

theorem decodeFrame_of_otherSequence (h : encodeFrame seq content (capOfMode l b) pad m = some r) {e : Byte}
    (he : e ≠ seq) : decodeFrame l r.frame m e = .failure .sequenceMismatch := by
  rw [(encodeFrame_parts h).frame]
  exact decodeFrame_of_wrongPair (framingOfStart_start l b) fun hpair => he hpair.1.symm

theorem decodeFrame_of_truncated (h : encodeFrame seq content (capOfMode l b) pad m = some r) {n : Nat} (h3 : 3 ≤ n)
    (hn : n < r.frame.length) : decodeFrame l (r.frame.take n) m seq = .failure .shortFrame := by
  have hparts := encodeFrame_parts h
  obtain ⟨k, rfl⟩ := Nat.exists_eq_add_of_le' h3
  have htail := hparts.tail_length
  have hlong : r.frame.length = _ := congrArg List.length hparts.frame
  simp only [List.length_cons] at hlong
  rw [hparts.frame]
  refine (decodeFrame_of_rightPair (framingOfStart_start l b) m seq _).trans (if_pos ?_)
  rw [List.length_take]
  omega

theorem decodeFrame_of_replacedStart (h : encodeFrame seq content (capOfMode l b) pad m = some r) {x : Byte} (e : Byte)
    (hsoh : x ≠ soh) (hstx : x ≠ stx) : decodeFrame l (r.frame.set 0 x) m e = .failure .badStart := by
  have hnone : framingOfStart l x = none := (if_neg hsoh).trans (if_neg hstx)
  rw [(encodeFrame_parts h).frame]
  exact decodeFrame_of_badStart (Nat.succ_ne_zero _) hnone

/-- A checksum-mode frame is one byte short of a CRC-mode one (R166). -/
theorem decodeFrame_checksum_as_crc (h : encodeFrame seq content (capOfMode l b) pad .checksum = some r) :
    decodeFrame l r.frame .crc seq = .failure .shortFrame := by
  have hparts := encodeFrame_parts h
  rw [hparts.frame]
  refine (decodeFrame_of_rightPair (framingOfStart_start l b) .crc seq _).trans (if_pos ?_)
  rw [hparts.tail_length]
  exact Nat.lt_succ_self _

/-! ### The bytes after the content (R165) -/

theorem take_min_length_append (content tail : Bytes) {cap : Nat} (h : content.length ≤ cap) :
    (content ++ tail).take (min content.length cap) = content := by
  rw [min_eq_left h, List.take_left' rfl]

/-- A good SOH frame decodes to the content that its length field counts, whatever fills the rest of the data field. -/
theorem decodeFrame_soh_of_good (l : LargeCap) (e d : Byte) {content tail : Bytes} (m : IMode)
    (hd : content.length = d.toNat) (htail : content.length + tail.length = 127) :
    decodeFrame l (soh :: e :: (255#8 - e) :: (d :: (content ++ tail))
        ++ trailerBytes m (integrityValue m (d :: (content ++ tail)))) m e
      = ⟨.ok, integrityValue m (d :: (content ++ tail)), content⟩ := by
  have hcap : (d :: (content ++ tail)).length = (framingOfCap smallCap).cap := by
    rw [List.length_cons, List.length_append, htail]
    rfl
  have hcontent : contentOf (framingOfCap smallCap) (d :: (content ++ tail)) = content := by
    rw [contentOf_small]
    change (content ++ tail).take (min d.toNat 127) = content
    rw [← hd, take_min_length_append content tail (by omega)]
  rw [decodeFrame_of_good (framingOfStart_soh l) hcap, hcontent]

/-- A good STX frame decodes to the content that its length field counts, whatever fills the rest of the data field. -/
theorem decodeFrame_stx_of_good (l : LargeCap) (e hi lo : Byte) {content tail : Bytes} (m : IMode)
    (hd : content.length = hi.toNat * 256 + lo.toNat) (htail : content.length + tail.length = l.bytes - 2) :
    decodeFrame l (stx :: e :: (255#8 - e) :: (hi :: lo :: (content ++ tail))
        ++ trailerBytes m (integrityValue m (hi :: lo :: (content ++ tail)))) m e
      = ⟨.ok, integrityValue m (hi :: lo :: (content ++ tail)), content⟩ := by
  have hcap : (hi :: lo :: (content ++ tail)).length = (framingOfCap l.bytes).cap := by
    rw [framingOfCap_cap, List.length_cons, List.length_cons, List.length_append, htail]
    cases l <;> rfl
  have hcontent : contentOf (framingOfCap l.bytes) (hi :: lo :: (content ++ tail)) = content := by
    rw [contentOf_large]
    change (content ++ tail).take (min (hi.toNat * 256 + lo.toNat) (l.bytes - 2)) = content
    rw [← hd, take_min_length_append content tail (by omega)]
  rw [decodeFrame_of_good (framingOfStart_stx l) hcap, hcontent]

/-! ### One byte changed -/

theorem checksum_set_ne (data : Bytes) {i : Nat} (hi : i < data.length) {x : Byte} (hx : x ≠ data[i]) (s : Byte) :
    checksum (data.set i x) s ≠ checksum data s := by
  have hsplit : data = data.take i ++ data[i] :: data.drop (i + 1) := by simp
  rw [List.set_eq_take_append_cons_drop, if_pos hi]
  conv_rhs => rw [hsplit]
  rw [checksum_append, checksum_append, checksum_cons, checksum_cons, checksum_eq_seed_add _ (_ + x),
    checksum_eq_seed_add _ (_ + data[i])]
  exact fun h => hx (BitVec.add_right_inj _ |>.mp (BitVec.add_left_inj _ |>.mp h))

theorem crc16_set_ne (data : Bytes) {i : Nat} (hi : i < data.length) {x : Byte} (hx : x ≠ data[i]) (s : Half) :
    crc16 (data.set i x) s ≠ crc16 data s := by
  have hsplit : data = data.take i ++ data[i] :: data.drop (i + 1) := by simp
  rw [List.set_eq_take_append_cons_drop, if_pos hi]
  conv_rhs => rw [hsplit]
  rw [crc16_append, crc16_append, crc16_cons, crc16_cons]
  exact fun h => hx (crcByte_injective_byte _ (crc16_injective_seed _ h))

theorem be16_injective : Function.Injective be16 := by
  intro v w h
  obtain ⟨hhi, hlo, -⟩ : hiByte v = hiByte w ∧ loByte v = loByte w ∧ True := by simpa [be16] using h
  rw [← hiByte_append_loByte v, hhi, hlo, hiByte_append_loByte]

/-- Either trailer shows every change of one byte of the data field. -/
theorem trailerBytes_set_ne (m : IMode) (data : Bytes) {i : Nat} (hi : i < data.length) {x : Byte} (hx : x ≠ data[i]) :
    trailerBytes m (integrityValue m (data.set i x)) ≠ trailerBytes m (integrityValue m data) := by
  rw [trailerBytes_integrityValue, trailerBytes_integrityValue]
  cases m with
  | checksum => exact fun h => checksum_set_ne data hi hx 0#8 (List.cons.inj h).1
  | crc => exact fun h => crc16_set_ne data hi hx 0#16 (be16_injective h)

theorem set_ne_self {f : Bytes} {i : Nat} (hi : i < f.length) {x : Byte} (hx : x ≠ f[i]) : f.set i x ≠ f := fun h =>
  hx (by simpa [hi] using congrArg (·[i]?) h)

/-- One byte of the data field or of the trailer changed: the received trailer is no longer the recomputed one. -/
theorem decodeFrame_of_oneByteError (h : encodeFrame seq content (capOfMode l b) pad m = some r) {k : Nat} {x : Byte}
    (h3 : 3 ≤ k) (hk : k < r.frame.length) (hx : x ≠ r.frame.getD k 0#8) :
    (decodeFrame l (r.frame.set k x) m seq).code = .checksumMismatch := by
  have hparts := encodeFrame_parts h
  have hfr := framingOfStart_start l b
  generalize dataField (framingOfCap (capOfMode l b)) content pad = data at hparts
  obtain ⟨i, rfl⟩ := Nat.exists_eq_add_of_le' h3
  rw [hparts.frame] at hk hx ⊢
  have hi : i < data.length + trailerLen m := by simpa using hk
  change x ≠ (data ++ trailerBytes m (integrityValue m data)).getD i 0#8 at hx
  change (decodeFrame l (_ :: seq :: (255#8 - seq) :: (data ++ trailerBytes m (integrityValue m data)).set i x) m
    seq).code = _
  rcases Nat.lt_or_ge i data.length with hdata | htrailer
  · rw [List.getD_append _ _ _ _ hdata, List.getD_eq_getElem _ _ hdata] at hx
    rw [List.set_append_left _ _ hdata]
    have hlen : (data.set i x).length = (framingOfCap (capOfMode l b)).cap := by rw [List.length_set, hparts.length]
    obtain ⟨-, -, hmismatch⟩ := decodeFrame_whole_verdict hfr hlen (trailerBytes_length m (integrityValue m data)) seq
    exact hmismatch (trailerBytes_set_ne m data hdata hx).symm
  · have hin : i - data.length < (trailerBytes m (integrityValue m data)).length := by
      rw [trailerBytes_length]
      omega
    rw [List.getD_append_right _ _ _ _ htrailer, List.getD_eq_getElem _ _ hin] at hx
    rw [List.set_append_right _ _ htrailer]
    have hlen : ((trailerBytes m (integrityValue m data)).set (i - data.length) x).length = trailerLen m := by
      rw [List.length_set, trailerBytes_length]
    obtain ⟨-, -, hmismatch⟩ := decodeFrame_whole_verdict hfr hparts.length hlen seq
    exact hmismatch (set_ne_self hin hx)

theorem flipBit_ne_self (b : Byte) {j : Nat} (hj : j < 8) : b ^^^ (1#8 <<< j) ≠ b := by
  intro h
  have hzero : 1#8 <<< j = 0#8 := (BitVec.xor_right_inj b).mp (h.trans BitVec.xor_zero.symm)
  have hbit : (1#8 <<< j).getLsbD j = true := by simp [hj]
  rw [hzero, BitVec.getLsbD_zero] at hbit
  exact Bool.false_ne_true hbit

/-! ### What the pad byte shows in (R144) -/

theorem encodeFrame_take (h : encodeFrame seq content (capOfMode l b) pad m = some r) :
    r.frame.take (3 + (framingOfCap (capOfMode l b)).prefixLen + content.length)
      = (framingOfCap (capOfMode l b)).start :: seq :: (255#8 - seq)
        :: (lengthPrefix (framingOfCap (capOfMode l b)).prefixLen content.length ++ content) := by
  have hprefix := lengthPrefix_length _ content.length (framingOfCap_prefixLen (capOfMode l b))
  rw [(encodeFrame_parts h).frame, dataField]
  generalize trailerBytes m _ = trailer
  generalize List.replicate _ pad = padding
  simp only [← List.cons_append]
  rw [List.append_assoc]
  refine List.take_left' ?_
  simp [hprefix]
  omega

end

end Sys2Proof.Machine
end

section
/-! PROOFS. The frames of 43_packet_encode.md and 44_packet_decode.md: the statements on encoding a frame and on
decoding it again, whole or changed, settled. -/

namespace Sys2Proof.Machine

open Sys2Proof

/-- Settles O35: the start byte gives the format back, and the length field the content (`decodeFrame_encodeFrame`). -/
theorem decodeOfEncodeIsTheContent : Obligations.DecodeOfEncodeIsTheContent := by
  intro seq content pad m l b hfit
  obtain ⟨r, hr⟩ := encodeFrame_of_fits seq pad m (hfit.trans_eq (contentCap_capOfMode l b).symm)
  exact ⟨r, hr, decodeFrame_encodeFrame hr⟩

/-- Settles O27: after the pair stand the data field and its own integrity value, and the pad byte stands only after the
content. -/
theorem encodedFrameLaws : Obligations.EncodedFrameLaws := by
  intro seq content pad l b r
  refine ⟨fun h => ?_, fun h => ?_, fun m pad' r' h h' => ⟨?_, ?_⟩⟩
  · rw [(encodeFrame_parts h).frame]
    exact crc16_append_self _ 0#16
  · have hparts := encodeFrame_parts h
    generalize dataField (framingOfCap (capOfMode l b)) content pad = data at hparts
    have hlen : data.length = capOfMode l b := hparts.length.trans (framingOfCap_cap _)
    have hdata : slice r.frame 3 (capOfMode l b) = data :=
      slice_of_append (before := [(framingOfCap (capOfMode l b)).start, seq, 255#8 - seq]) hparts.frame rfl hlen
    rw [hdata, hparts.frame, trailerBytes_integrityValue, ← hlen, Nat.add_comm]
    exact List.getElem?_concat_length
  · rw [encodeFrame_length (two_le_capOfMode l b) h, encodeFrame_length (two_le_capOfMode l b) h']
  · rw [encodeFrame_take h, encodeFrame_take h']

/-- Settles O32: a good frame of either format, twice with other bytes after the content; and the length of a checksum
frame. -/
theorem padIsUncheckedAndModeUnmarked : Obligations.PadIsUncheckedAndModeUnmarked := by
  refine ⟨?_, ?_, fun _ _ _ _ _ _ => decodeFrame_checksum_as_crc⟩
  · intro l e d content tail tail' m hd htail htail' data data' r r'
    have hr : r = _ := decodeFrame_soh_of_good l e d m hd htail
    have hr' : r' = _ := decodeFrame_soh_of_good l e d m hd (htail' ▸ htail)
    rw [hr, hr']
    exact ⟨rfl, rfl, rfl, rfl⟩
  · intro l e hi lo content tail tail' m hd htail htail' data data' r r'
    have hr : r = _ := decodeFrame_stx_of_good l e hi lo m hd htail
    have hr' : r' = _ := decodeFrame_stx_of_good l e hi lo m hd (htail' ▸ htail)
    rw [hr, hr']
    exact ⟨rfl, rfl, rfl, rfl⟩

/-- Settles O36: each of the three changes fails one of R160's checks before the trailer's. -/
theorem wrongSequenceTruncationAndStart : Obligations.WrongSequenceTruncationAndStart :=
  fun _ _ _ _ _ _ _ h => ⟨fun _ => decodeFrame_of_otherSequence h, fun _ => decodeFrame_of_truncated h,
    fun _ e hsoh hstx => decodeFrame_of_replacedStart h e hsoh hstx⟩

/-- Settles O38: a frame with one byte changed (`decodeFrame_of_oneByteError`). -/
theorem checksumDetectsEveryOneByteError : Obligations.ChecksumDetectsEveryOneByteError :=
  fun _ _ _ _ _ _ _ _ h h3 hk hx => decodeFrame_of_oneByteError h h3 hk hx

/-- Settles O37: a flipped bit is a changed byte. -/
theorem crcDetectsEverySingleBitError : Obligations.CrcDetectsEverySingleBitError :=
  fun _ _ _ _ _ _ _ _ h h3 hk hj => decodeFrame_of_oneByteError h h3 hk (flipBit_ne_self _ hj)

end Sys2Proof.Machine
end

section
/-! PROOFS. Laws of PKT.DEC's reads where not all of IBUF is written, and of PKT.DEC after a failed decode. -/

namespace Sys2Proof.Machine

open Sys2Proof

/-! ### The verdicts of R160 by the reads that stand before them -/

section
variable {rd : Nat → Nat → Option Bytes} {len : Nat} {l : LargeCap} {m : IMode} {b e : Byte} {fr : Framing}
  (hstart : rd 0 1 = some [b])
include hstart

theorem decodeVia_of_badStart (hfr : framingOfStart l b = none) (hlen : 0 < len) :
    decodeVia rd len l m e = some (.failure .badStart) := by
  unfold decodeVia
  rw [if_neg (by omega), hstart]
  change (match framingOfStart l b with | none => _ | some fr => _) = _
  rw [hfr]
  rfl

variable (hfr : framingOfStart l b = some fr)
include hfr

theorem decodeVia_of_noPair (hlen : 0 < len) (h3 : len < 3) :
    decodeVia rd len l m e = some (.failure .sequenceMismatch) := by
  unfold decodeVia
  rw [if_neg (by omega), hstart]
  change (match framingOfStart l b with | none => _ | some fr => _) = _
  rw [hfr]
  exact if_pos h3

theorem decodeVia_of_wrongPair (h3 : 3 ≤ len) {pair : Bytes} (hpair : rd 1 2 = some pair) (hne : pair ≠ seqPair e) :
    decodeVia rd len l m e = some (.failure .sequenceMismatch) := by
  rw [decodeVia_of_format hstart hfr h3, hpair]
  exact if_pos hne

theorem decodeVia_of_short (h3 : 3 ≤ len) (hpair : rd 1 2 = some (seqPair e)) (hshort : len < frameLen fr m) :
    decodeVia rd len l m e = some (.failure .shortFrame) := by
  rw [decodeVia_of_format hstart hfr h3, hpair]
  exact (if_neg (not_not.mpr rfl)).trans (if_pos hshort)

/-- Bytes after a whole frame are not read, written or not. -/
theorem decodeVia_of_longer (hwhole : frameLen fr m ≤ len) :
    decodeVia rd len l m e = decodeVia rd (frameLen fr m) l m e := by
  have h3 : 3 ≤ frameLen fr m := by unfold frameLen; omega
  rw [decodeVia_of_format hstart hfr (h3.trans hwhole), decodeVia_of_format hstart hfr h3,
    if_neg (Nat.not_lt.mpr hwhole), if_neg (Nat.lt_irrefl _)]

end

/-! ### PKT.DEC by the bytes of IBUF that are written (R163) -/

section
variable {s : State} (hc : s.ibuf.Canonical)

/-- A verdict that stands before the trailer check ends PKT.DEC in a failure with RESULT 0. -/
theorem execPktDec_of_failure {e : Byte} {c : StatusCode} (hl : s.inLen.toNat ≤ s.params.ibufSize)
    (h : s.decodeInput e = some (.failure c)) (hbad : c ≠ .ok) : execPktDec e s = .next (s.failPacket c 0#16) := by
  unfold execPktDec
  rw [if_neg (not_inputTooLong hl), h]
  exact congrArg Host.Outcome.next (finishDecode_of_failure s (r := .failure c) hbad)

include hc

theorem inputRange_of_holds {f : Bytes} (hf : ∀ i, (h : i < f.length) → s.ibuf.read i = some f[i]) (a n : Nat)
    (hn : a + n ≤ f.length) : s.inputRange a n = some (slice f a n) := by
  refine (Memory.readRange_eq_some hc a n _).mpr ⟨slice_length f a n hn, fun i hi => ?_⟩
  rw [slice_length f a n hn] at hi
  rw [hf (a + i) (by omega)]
  simp [slice]

/-- A whole frame that is written decodes as the byte string does, whatever follows it in IBUF. -/
theorem decodeInput_of_wholeFrame {b : Byte} {fr : Framing} {f : Bytes} (e : Byte) (hstart : s.ibuf.read 0 = some b)
    (hfr : framingOfStart s.params.largeCap b = some fr) (hwhole : frameLen fr s.imode ≤ s.inLen.toNat)
    (hlen : f.length = frameLen fr s.imode) (hf : ∀ i, (h : i < f.length) → s.ibuf.read i = some f[i]) :
    s.decodeInput e = some (decodeFrame s.params.largeCap f s.imode e) := by
  have hvia := decodeVia_eq_decodeFrame s.inputRange f s.params.largeCap s.imode e (inputRange_of_holds hc hf)
  rw [hlen] at hvia
  exact (decodeVia_of_longer (inputRange_one hc hstart) hfr hwhole).trans hvia

end

/-! ### PKT.DEC on an encoded frame -/

theorem execPktDec_of_encodedInput {s : State} {seq pad : Byte} {content : Bytes} {b : BMode} {r : Encoded}
    (hc : s.ibuf.Canonical) (hl : s.inLen.toNat ≤ s.params.ibufSize)
    (hr : encodeFrame seq content (capOfMode s.params.largeCap b) pad s.imode = some r) (hf : s.InputIs r.frame) :
    execPktDec seq s = .next (s.finishPacket content r.trailer) := by
  rw [execPktDec_of_inputIs seq hc hl hf, decodeFrame_encodeFrame hr]
  rfl

/-- The largest frame, which either buffer holds (00_scope.md R10). -/
theorem encodeFrame_length_le {q : Byte} {content : Bytes} {s : State} {r : Encoded}
    (hr : encodeFrame q content s.encodeCap s.pad s.imode = some r) :
    r.frame.length ≤ s.params.largeCap.bytes + 5 := by
  have hcap : s.encodeCap ≤ s.params.largeCap.bytes := capOfMode_le _ _
  have ht := trailerLen_le s.imode
  rw [encodeFrame_length_of_state hr]
  omega

theorem run_keeps_inv {k : Nat} {s t : State} (hs : s.Inv) (h : run k s = .next t) : t.Inv := by
  induction k generalizing s with
  | zero => cases h; exact hs
  | succ k ih =>
    rw [run] at h
    cases hstep : step s with
    | next u =>
      rw [hstep] at h
      exact ih (stepKeepsTheInvariant s u hs hstep) h
    | fault f => rw [hstep] at h; cases h
    | refused f => rw [hstep] at h; cases h

/-! ### After a failed decode (R172) -/

/-- PKT.DEC reads none of what a failed packet command writes, and overwrites all of it. -/
theorem execPktDec_failPacket (e : Byte) (s : State) (c : StatusCode) (v : Half) :
    execPktDec e (s.failPacket c v) = execPktDec e s := by
  have hfinish (r : Decoded) : (s.failPacket c v).finishDecode r = s.finishDecode r := by
    obtain ⟨c', v', content⟩ := r
    cases c' <;> rfl
  have hdecode : (s.failPacket c v).decodeInput e = s.decodeInput e := rfl
  have hlong : (s.failPacket c v).inputTooLong = s.inputTooLong := rfl
  unfold execPktDec
  rw [hlong, hdecode]
  cases s.inputTooLong with
  | true => rfl
  | false =>
    cases s.decodeInput e with
    | none => rfl
    | some r => exact congrArg done (hfinish r)

end Sys2Proof.Machine
end

section
/-! PROOFS. PKT.DEC of 44_packet_decode.md: the statements on what it reads, on the decode after a failed one, and on
the round trip through the engine, settled. -/

namespace Sys2Proof.Machine

open Sys2Proof

/-- Settles O34, one lemma per read of R160's pseudocode and per verdict between two reads. -/
theorem pktDecReadsOnlyIndexedBytes : Obligations.PktDecReadsOnlyIndexedBytes := by
  intro e s hc hl
  refine ⟨fun hlen h => execPktDec_of_decodeInput_eq_none hl (decodeInput_of_unwritten_start e hc hlen h),
    fun b hlen hstart hsoh hstx => ?_, fun b fr hstart hfr => ⟨fun hlen h3 => ?_, fun h3 hunwritten => ?_,
      fun x y h3 hx hy => ⟨fun hne => ?_, ?_⟩⟩⟩
  · have hnone : framingOfStart s.params.largeCap b = none := (if_neg hsoh).trans (if_neg hstx)
    exact execPktDec_of_failure hl (decodeVia_of_badStart (inputRange_one hc hstart) hnone hlen) (by decide)
  · exact execPktDec_of_failure hl (decodeVia_of_noPair (inputRange_one hc hstart) hfr hlen h3) (by decide)
  · refine execPktDec_of_decodeInput_eq_none hl ?_
    rcases hunwritten with h | h
    · exact decodeInput_of_unwritten_pair hstart hfr e hc h3 (Or.inl rfl) h
    · exact decodeInput_of_unwritten_pair hstart hfr e hc h3 (Or.inr rfl) h
  · have hpair : [x, y] ≠ seqPair e := by simpa [seqPair] using hne
    exact execPktDec_of_failure hl
      (decodeVia_of_wrongPair (inputRange_one hc hstart) hfr h3 (inputRange_two hc hx hy) hpair) (by decide)
  · rintro rfl rfl
    refine ⟨fun hshort => ?_, fun hwhole => ⟨fun i hi3 hi h => ?_, fun f hlen hf => ?_⟩⟩
    · exact execPktDec_of_failure hl
        (decodeVia_of_short (inputRange_one hc hstart) hfr h3 (inputRange_two hc hx hy) hshort) (by decide)
    · exact execPktDec_of_decodeInput_eq_none hl (decodeInput_of_unwritten_frame hstart hfr hc hx hy hwhole hi3 hi h)
    · have hdec := decodeInput_of_wholeFrame hc x hstart hfr hwhole hlen hf
      refine ⟨s.finishDecode _, ?_, finishDecode_code .., finishDecode_result ..⟩
      change execPktDec x s = _
      unfold execPktDec
      rw [if_neg (not_inputTooLong hl), hdec]
      rfl

/-- Settles O39: PKT.DEC fails through `failPacket`, which writes nothing that PKT.DEC reads. -/
theorem failedDecodeLeavesTheNextAlone : Obligations.FailedDecodeLeavesTheNextAlone := by
  intro e e' s t h hbad
  rcases packet_next (Or.inr rfl) h with ⟨c, v, -, rfl⟩ | ⟨out, v, -, rfl⟩
  · exact execPktDec_failPacket e' s c v
  · exact absurd rfl hbad

/-- Settles O58: the frame that PKT.ENC leaves in OBUF is the input COPYBACK leaves (O57), and decodes to the content
(O35). -/
theorem encodeCopybackDecodeGivesTheContent : Obligations.EncodeCopybackDecodeGivesTheContent := by
  intro s t seq content hinv hcontent h hok
  obtain ⟨-, -, -, hcopyback⟩ := pseudoInstructions
  have ht : t.Inv := exec_keeps_inv hinv h
  cases exec_effect h with
  | pktEncFailed q c hbad => exact absurd hok hbad
  | pktEnc q content' r hi hr =>
    obtain rfl : content = content' :=
      Option.some.inj ((input_eq_of_inputIs hinv.ibufCanonical hcontent).symm.trans hi)
    have hlt := encodeFrame_length_lt hr
    obtain ⟨-, hroom, -⟩ := hinv.params
    have hin := (finishPacket_outLen_toNat s r.trailer hlt).trans_le ((encodeFrame_length_le hr).trans hroom)
    have hout := finishPacket_outputIs s r.trailer hlt
    obtain ⟨-, u, hrun, hu, hframe⟩ := hcopyback _ r.frame ht hin hout
    have huinv : u.Inv := run_keeps_inv (ht.enqueue _) hrun
    have hparams : u.params = s.params := (congrArg State.params hu :)
    have himode : u.imode = s.imode := (congrArg State.imode hu :)
    have hulen : u.inLen.toNat ≤ u.params.ibufSize := by rwa [hu]
    have hur : encodeFrame seq content (capOfMode u.params.largeCap s.bmode) s.pad u.imode = some r := by
      rwa [hparams, himode]
    have hdec := execPktDec_of_encodedInput huinv.ibufCanonical hulen hur hframe
    have hclt : content.length < 2 ^ 16 := hcontent.1.trans_lt s.inLen.isLt
    exact ⟨r.frame, u, _, hout, hrun, hdec, rfl, rfl, finishPacket_outputIs u r.trailer hclt⟩

end Sys2Proof.Machine
end
